-- ==== Sys2Proof/Word.lean ====
section
/-! DEFINITION. The word types of the codec core: a byte (R12), the 16- and 32-bit register widths (R74) and the
move-to-front table (R40). -/

namespace Sys2Proof

/-- One byte, bits 7 down to 0 (R12). -/
abbrev Byte := BitVec 8

/-- A 16-bit register or header field (R74, R78). -/
abbrev Half := BitVec 16

/-- A 32-bit register or header field (R74, R78). -/
abbrev Word := BitVec 32

/-- The working move-to-front table `MTF[0..255]`: 256 entries of 8 bits (R40). -/
abbrev Mtf := Vector Byte 256

end Sys2Proof
end

