-- ==== Sys2Proof/Config.lean ====
section
/-! DEFINITION. What an implementation fixes: the constants of R7 and R8, the five address spaces of R50, the OPEN
parameters of R9 (opaque: every claim holds for each value they may take) and the free value that stands for the
contents of memory nothing has written (R340). -/

namespace Sys2Proof

/-! ### Fixed constants (R7, R8) -/

/-- CART_SIZE: bytes in the cartridge byte array (R7). -/
abbrev cartSize : Nat := 32768
/-- CODE_BASE: start of the code region, where the magic stands (R7). -/
abbrev codeBase : Nat := 0x4300
/-- DLEN_ADDR: the big-endian decompressed length (R7). -/
abbrev dlenAddr : Nat := 0x4304
/-- HDR6_ADDR: the big-endian version-dependent field (R7). -/
abbrev hdr6Addr : Nat := 0x4306
/-- BODY_BASE: start of the V1 token stream and of the V2 table (R7; absolute, by conflict C1). -/
abbrev bodyBase : Nat := 0x4308
/-- V2_STREAM_BASE: start of the V2 bit stream (R7). -/
abbrev v2StreamBase : Nat := 0x4408
/-- V2_HDR_BYTES: header and table bytes that compressed_len counts (R7). -/
abbrev v2HdrBytes : Nat := 264
/-- CODE_LEN: bytes of the code region (R7). -/
abbrev codeLen : Nat := 15616
/-- V1_BODY_LEN: bytes of the V1 body (R7). -/
abbrev v1BodyLen : Nat := 15608
/-- MBUF_SIZE: bytes of the match buffer (R8). -/
abbrev mbufSize : Nat := 32768
/-- OUT_CAP: bytes of the output memory (R8). -/
abbrev outCap : Nat := 132668
/-- REF_SEP: the separator byte of the reference token (R7, R87). -/
abbrev refSep : Byte := 0x3A

/-- The five memories, each an address space of its own (R50). -/
inductive Space where
  | cart | pix | out | mbuf | tok
  deriving DecidableEq, Repr

/-! ### The OPEN parameters (R9) -/

/-- V1_LOOP_BOUND: what the V1 loop compares with decompressed_len (R9, R161, R169). -/
inductive LoopBound where
  | cursor | output
  deriving DecidableEq, Repr

/-- V1_NIBBLES: which nibble of a BREF's second byte belongs to the distance (R9, R82). -/
inductive Nibbles where
  | doc | swapped
  deriving DecidableEq, Repr

/-- What a V2 grammar answers about one token's payload (R197). -/
inductive GrammarResult where
  /-- the payload used `used` bits, emits `emitted`, and the table becomes `table` -/
  | ok (used : Nat) (emitted : List Byte) (table : Mtf)
  /-- the payload needs more bits than there are -/
  | truncErr
  /-- the payload is no valid token -/
  | tokenErr
  deriving DecidableEq, Repr

/-- A conforming V2_GRAMMAR (R197): a function of the prefix value, the remaining stream bits, the table and the
output so far. It uses at most the bits there are, and is prefix-determined (condition b); that it is deterministic
(condition a) is that it is a function. -/
structure Grammar where
  run : Nat → List Bool → Mtf → List Byte → GrammarResult
  used_le : ∀ u rest mtf out k e m, run u rest mtf out = .ok k e m → k ≤ rest.length
  determined : ∀ u rest rest' mtf out k e m, run u rest mtf out = .ok k e m →
    k ≤ rest'.length → rest'.take k = rest.take k → run u rest' mtf out = .ok k e m

/-- The OPEN parameters, which "the model takes as an argument" (R9, R46), with the constraints the source settles, but for the
one on OLD_LOOKUP.
The values written here serve only to show that the type has a member; `Config.params` does not have them. -/
structure Params where
  /-- MAGIC_V1 -/
  magicV1 : Word := 1
  /-- MAGIC_V2 -/
  magicV2 : Word := 2
  /-- OLD_LOOKUP[0..58]. DESIGN CHOICE: any 59 bytes; what R9 quotes of their kind and order is not required (assumption log
  18). -/
  oldLookup : Vector Byte 59 := Vector.replicate 59 0
  /-- V2_GRAMMAR, `none` for NONE -/
  v2Grammar : Option Grammar := none
  /-- V1_LOOP_BOUND -/
  v1LoopBound : LoopBound := .cursor
  /-- V1_NIBBLES -/
  v1Nibbles : Nibbles := .doc
  /-- PIX_CAP -/
  pixCap : Nat := 131072
  magicV1_ne_zero : magicV1 ≠ 0 := by decide
  magicV2_ne_zero : magicV2 ≠ 0 := by decide
  magic_ne : magicV1 ≠ magicV2 := by decide
  pixCap_ge : 131072 ≤ pixCap := by decide
  deriving Inhabited

/-- The parameter values of the machine that runs: not known to any proof, so a claim about `exec` or `step` holds for
every value R9 allows, and for every OLD_LOOKUP (assumption logs 1 and 18). -/
opaque Config.params : Params

/-- The contents of a memory byte that nothing has written: "unspecified … any value, drawn per byte" (R49, R340, U12
of 93_implementation_defined.md). A free value: no proof knows it (assumption log 2). -/
opaque Config.powerOnByte : Space → Nat → Byte

/-- The bytes of each address space (R50). -/
def Space.size (p : Params) : Space → Nat
  | .cart => cartSize
  | .pix => p.pixCap
  | .out => outCap
  | .mbuf => mbufSize
  | .tok => 5

end Sys2Proof
end

