-- ==== Sys2Proof/Syntax.lean ====
section
/-! DEFINITION. The instructions, one constructor per row of spec/opcode_table.json, the tokens of the V1 stream, the
encoded forms, and the host's actions (R90). -/

namespace Sys2Proof

/-- Every decodable form of the opcode table: the thirteen commands of R72, the reserved command values of R73, the three
V1 tokens of R79 and the V2 token of R85. A command has no operand field (R71). -/
inductive Instr where
  /-- NOP, 0x00 (R257) -/
  | nop
  /-- EXTRACT, 0x01 (R102) -/
  | extract
  /-- PACK, 0x02 (R107) -/
  | pack
  /-- CLASSIFY, 0x03 (R124) -/
  | classify
  /-- DECODE_V0, 0x04 (R142) -/
  | decodeV0
  /-- DECODE_V1, 0x05 (R161) -/
  | decodeV1
  /-- DECODE_V2, 0x06 (R199) -/
  | decodeV2
  /-- DECODE_BYTES, 0x07 (R251) -/
  | decodeBytes
  /-- DECODE_IMAGE, 0x08 (R252) -/
  | decodeImage
  /-- FIND, 0x09 (R222) -/
  | find
  /-- ENCODE_REF, 0x0A (R228) -/
  | encodeRef
  /-- ENCODE, 0x0B (R151) -/
  | encode
  /-- SOFT_RESET, 0x0C (R258) -/
  | softReset
  /-- ILLEGAL_CMD: a reserved command value 0x0D..0xFF (R73, R259) -/
  | illegalCmd (op : Byte)
  /-- LIT: the literal byte (R80, R163) -/
  | lit (b : Byte)
  /-- TAB: the table index `k - 1` in 0..58 (R81, R164) -/
  | tab (i : Fin 59)
  /-- BREF: `n - 0x3C` in 0..195 and the two nibbles of the second byte (R82, R165) -/
  | bref (row : Fin 196) (h l : BitVec 4)
  /-- V2_TOKEN: the unary prefix value; its payload is what V2_GRAMMAR makes of the bits that follow (R85, R199) -/
  | v2Token (u : Nat)
  deriving DecidableEq, Repr

/-- The tokens of a V1 stream (R79). -/
inductive V1Token where
  | lit (b : Byte)
  | tab (i : Fin 59)
  | bref (row : Fin 196) (h l : BitVec 4)
  deriving DecidableEq, Repr

/-- A V1 token as an instruction of the table. -/
def V1Token.toInstr : V1Token → Instr
  | .lit b => .lit b
  | .tab i => .tab i
  | .bref row h l => .bref row h l

/-- An encoded form (R70): the command byte, the bytes of a V1 token, or the bits of a V2 token's prefix in stream
order. -/
inductive Code where
  | command (op : Byte)
  | v1 (bytes : List Byte)
  | v2 (bits : List Bool)
  deriving DecidableEq, Repr

/-- One line of a host program (R90). `CMD <mnemonic>` is `set 0x00` of the command's opcode. -/
inductive HostAction where
  /-- SET: write a register -/
  | set (reg : Byte) (value : Nat)
  /-- LOAD: write bytes at consecutive addresses -/
  | load (mem : Space) (addr : Nat) (bytes : List Byte)
  /-- FILL: write `count` copies of a byte -/
  | fill (mem : Space) (addr count : Nat) (b : Byte)
  /-- EXPECT: a checking annotation, with no effect on the core -/
  | expect (reg : Byte) (value : Nat)
  deriving DecidableEq, Repr

end Sys2Proof
end

