-- ==== Sys2Proof/Machine/State.lean ====
section
/-! DEFINITION. The machine's state: every register and memory of R20, the point reached inside a decode command, and
the host's pending actions; the ways a command can fail (R301..R306); the reasons a step can stop; the reset state. -/

namespace Sys2Proof.Machine

/-- A memory: the bytes written so far, as (address, byte) pairs with strictly rising addresses. An address that is not
listed has not been written: reading it gives no byte of this list, and the machine then reads the free value
`Config.powerOnByte` (R340). -/
abbrev Memory := List Host.Cell

/-- Every way a command can end with an error: the causes of R302 (FormatError), R303 (DecodeError), R304
(UnsupportedError) and R306 (CommandError), in the order of those tables. -/
inductive Err where
  | bpp | pixlenPartial | pixlenCap | packShort | v2Clen | v2Mtf | mbufRange
  | encTextLong | encTextUtf8 | encTextNul | encMagic
  | shortCart | utf8 | v1Trunc | v1BrefRange | v1Overrun | v2Trunc | v2Token | v2Overrun
  | v2Grammar | encV1 | encV2
  | illegalCmd | encSel
  deriving DecidableEq, Repr

/-- Everything the spec gives the machine (R20): the registers of R21..R40 and the memories of R41..R45. CMD holds
nothing and reads as 0 (R21), so it has no field. -/
structure Arch where
  /-- STATUS, register 0x01 (R22, R75) -/
  status : Half
  /-- BPP, register 0x02 (R23) -/
  bpp : Byte
  /-- PIXLEN, register 0x03 (R24) -/
  pixlen : Word
  /-- CARTLEN, register 0x04 (R25) -/
  cartlen : Word
  /-- VERSION, register 0x05 (R26) -/
  version : BitVec 2
  /-- MAGIC, register 0x06 (R27) -/
  magic : Word
  /-- DLEN, register 0x07 (R28) -/
  dlen : Half
  /-- HDR6, register 0x08 (R29) -/
  hdr6 : Half
  /-- OUTLEN, register 0x09 (R32) -/
  outlen : Word
  /-- TEXTLEN, register 0x0A (R33) -/
  textlen : Word
  /-- FLAGS, register 0x0B (R34, R76) -/
  flags : Byte
  /-- MSPLIT, register 0x0C (R35) -/
  msplit : Half
  /-- MBUFLEN, register 0x0D (R35) -/
  mbuflen : Half
  /-- MLEN, register 0x0E (R36) -/
  mlen : Half
  /-- MDIST, register 0x0F (R36) -/
  mdist : Half
  /-- ELEN, register 0x10 (R37) -/
  elen : Half
  /-- EDIST, register 0x11 (R37) -/
  edist : Half
  /-- TOKLEN, register 0x12 (R38) -/
  toklen : Byte
  /-- ENC_SEL, register 0x13 (R39) -/
  encSel : BitVec 2
  /-- CURSOR, internal, "at least 17 bits", never wraps (R30) -/
  cursor : Nat
  /-- BITPOS, internal, "at least 17 bits", only increases (R31) -/
  bitpos : Nat
  /-- MTF[0..255], internal (R40) -/
  mtf : Mtf
  /-- CART (R41) -/
  cart : Memory
  /-- PIX (R42) -/
  pix : Memory
  /-- OUT (R43) -/
  out : Memory
  /-- MBUF (R44) -/
  mbuf : Memory
  /-- TOK (R45) -/
  tok : Memory
  deriving DecidableEq, Repr

/-- Which command a decode in progress belongs to: a direct decoder (R260), or an entry point that builds a Cartridge
when the decode ends (R251). -/
inductive Entry where
  | direct | cartridge
  deriving DecidableEq, Repr

/-- A decode in progress: the state at the command's start, to which a failure returns (R305), the command it belongs
to, `decompressed_len`, and the sequence OUT as it stands (R43, R55). -/
structure Run where
  start : Arch
  entry : Entry
  dlen : Half
  out : List Byte
  deriving DecidableEq, Repr

/-- Where the engine is: between commands, or inside a V1 or V2 decode at the point where the next token is read (the
top of the loop of R161 or R199, its test passed). The model's own; the host sees `idle` only (R10, R344). -/
inductive Phase where
  | idle
  | v1 (r : Run)
  | v2 (r : Run) (nbits : Nat)
  deriving DecidableEq, Repr

/-- Why the machine stops. The core itself never faults: each failing command completes with a STATUS (R300). -/
inductive Fault where
  /-- Raised by a host LOAD or FILL of bytes that reach past the end of a memory (R50 gives no such address). Safe: the
  machine stops where the spec names no effect. -/
  | noSuchAddress (mem : Space) (addr : Nat)
  deriving DecidableEq, Repr

/-- Why an instruction has no meaning in a state. -/
inductive Refusal where
  /-- Raised by an arm of `exec` whose instruction has no meaning yet. Safe; no arm does. -/
  | notModelled (mnemonic : String)
  /-- Raised by a V1 token (LIT, TAB, BREF) given to `exec` with no V1 decode in progress: the token is data of a
  decode and has no effect outside one (R70, R79). Safe; no step reaches it. -/
  | noV1Decode
  /-- Raised by a V2 token given to `exec` with no V2 decode in progress (R70, R85). Safe; no step reaches it. -/
  | noV2Decode
  deriving DecidableEq, Repr

/-- The state: the spec's (`Arch`) and two fields of the model's own, the engine's phase and the host actions still to
come, oldest first (R11, R90). -/
structure State extends Arch where
  phase : Phase
  host : List HostAction
  deriving DecidableEq, Repr

/-- The architectural state after power-on reset (R49, R340). CURSOR, BITPOS and MTF are unspecified there; the values
here are the model's (assumption log 3). No memory byte has been written. -/
def Arch.reset : Arch where
  status := 0
  bpp := 0
  pixlen := 0
  cartlen := 0
  version := 3
  magic := 0
  dlen := 0
  hdr6 := 0
  outlen := 0
  textlen := 0
  flags := 0
  msplit := 0
  mbuflen := 0
  mlen := 0
  mdist := 0
  elen := 0
  edist := 0
  toklen := 0
  encSel := 0
  cursor := 0
  bitpos := 0
  mtf := Vector.replicate 256 0
  cart := []
  pix := []
  out := []
  mbuf := []
  tok := []

/-- The machine after power-on reset: no command is in progress (R340) and the host has nothing pending. -/
def State.reset : State where
  toArch := Arch.reset
  phase := .idle
  host := []

end Sys2Proof.Machine
end

