-- ==== Sys2Proof/Machine/Flags.lean ====
section
/-! DEFINITION. The layouts of STATUS (R22, R75) and FLAGS (R34, R76), the kind and cause codes of every error
(R301..R306), and every computation that writes a flag. -/

namespace Sys2Proof.Machine

/-! ### STATUS -/

/-- The error kinds (R301). -/
inductive ErrKind where
  | formatError | decodeError | unsupportedError | commandError
  deriving DecidableEq, Repr

/-- The KIND code (R75, R301). -/
def ErrKind.code : ErrKind → BitVec 3
  | .formatError => 1
  | .decodeError => 2
  | .unsupportedError => 3
  | .commandError => 4

/-- The kind of each error (R302..R306). -/
def Err.kind : Err → ErrKind
  | .bpp => .formatError
  | .pixlenPartial => .formatError
  | .pixlenCap => .formatError
  | .packShort => .formatError
  | .v2Clen => .formatError
  | .v2Mtf => .formatError
  | .mbufRange => .formatError
  | .encTextLong => .formatError
  | .encTextUtf8 => .formatError
  | .encTextNul => .formatError
  | .encMagic => .formatError
  | .shortCart => .decodeError
  | .utf8 => .decodeError
  | .v1Trunc => .decodeError
  | .v1BrefRange => .decodeError
  | .v1Overrun => .decodeError
  | .v2Trunc => .decodeError
  | .v2Token => .decodeError
  | .v2Overrun => .decodeError
  | .v2Grammar => .unsupportedError
  | .encV1 => .unsupportedError
  | .encV2 => .unsupportedError
  | .illegalCmd => .commandError
  | .encSel => .commandError

/-- The CAUSE code of each error within its kind (R302..R306). -/
def Err.cause : Err → Byte
  | .bpp => 0x01
  | .pixlenPartial => 0x02
  | .pixlenCap => 0x03
  | .packShort => 0x04
  | .v2Clen => 0x05
  | .v2Mtf => 0x06
  | .mbufRange => 0x07
  | .encTextLong => 0x08
  | .encTextUtf8 => 0x09
  | .encTextNul => 0x0A
  | .encMagic => 0x0B
  | .shortCart => 0x01
  | .utf8 => 0x02
  | .v1Trunc => 0x03
  | .v1BrefRange => 0x04
  | .v1Overrun => 0x05
  | .v2Trunc => 0x06
  | .v2Token => 0x07
  | .v2Overrun => 0x08
  | .v2Grammar => 0x01
  | .encV1 => 0x02
  | .encV2 => 0x03
  | .illegalCmd => 0x01
  | .encSel => 0x02

/-- STATUS from its fields: CAUSE, three zero bits, KIND, ERR, DONE (R75). -/
def statusWord (cause : Byte) (kind : BitVec 3) (err done : Bool) : Half :=
  cause ++ (0 : BitVec 3) ++ kind ++ BitVec.ofBool err ++ BitVec.ofBool done

/-- STATUS after a command that raised an error (R300). -/
def Err.status (e : Err) : Half := statusWord e.cause e.kind.code true true

/-- STATUS after a command that reached `done` (R307). -/
def statusDone : Half := statusWord 0 0 false true

/-- DONE, bit 0 of STATUS (R22). -/
def statusDoneBit (s : Half) : Bool := s.getLsbD 0
/-- ERR, bit 1 of STATUS (R22). -/
def statusErrBit (s : Half) : Bool := s.getLsbD 1
/-- KIND, bits 4:2 of STATUS (R22). -/
def statusKind (s : Half) : BitVec 3 := s.extractLsb' 2 3
/-- CAUSE, bits 15:8 of STATUS (R22). -/
def statusCause (s : Half) : Byte := s.extractLsb' 8 8

/-- The single value of the source software's error taxonomy (R320). -/
inductive SoftwareError where
  | internal
  deriving DecidableEq, Repr

/-- The source software's view of a STATUS: every KIND other than 0 is `Internal` (R320). -/
def softwareError (s : Half) : Option SoftwareError := if statusKind s = 0 then none else some .internal

/-! ### FLAGS -/

/-- TEXT_VALID, bit 0 of FLAGS (R34). -/
def flagTextValid (f : Byte) : Bool := f.getLsbD 0
/-- EMPTY, bit 1 of FLAGS (R34). -/
def flagEmpty (f : Byte) : Bool := f.getLsbD 1
/-- MFOUND, bit 2 of FLAGS (R34). -/
def flagMfound (f : Byte) : Bool := f.getLsbD 2
/-- MEMIT, bit 3 of FLAGS (R34). -/
def flagMemit (f : Byte) : Bool := f.getLsbD 3

/-- FLAGS after a Cartridge has been built: TEXT_VALID = 1 and EMPTY as given, the other bits kept (R251, R253). -/
def flagsWithCartridge (f : Byte) (empty : Bool) : Byte :=
  f.extractLsb' 2 6 ++ BitVec.ofBool empty ++ BitVec.ofBool true

/-- FLAGS after FIND: MFOUND and MEMIT as given, the other bits kept (R222, R225). -/
def flagsWithMatch (f : Byte) (found emit : Bool) : Byte :=
  f.extractLsb' 4 4 ++ BitVec.ofBool emit ++ BitVec.ofBool found ++ f.extractLsb' 0 2

/-- The emit policy: a match longer than 3 at a distance greater than 3 (R225). -/
def emitPolicy (length distance : Nat) : Bool := decide (3 < length) && decide (3 < distance)

end Sys2Proof.Machine
end

