-- ==== Sys2Proof/Machine/Ops.lean ====
section
/-! DEFINITION. The named operations over memory and state: reading and writing bytes (R50, R61), the bit stream (R54),
and how a command ends: the one operation that completes a command, with its results (R307) or, when it raised an
error, with the state it began in and a STATUS (R300, R305). -/

namespace Sys2Proof.Machine

/-! ### Memories -/

/-- The byte written at an address, if any has been. -/
def Memory.get? : Memory → Nat → Option Byte
  | [], _ => none
  | (k, b) :: m, a => if k = a then some b else Memory.get? m a

/-- Consecutive cells from an address. -/
def cellsFrom : Nat → List Byte → Memory
  | _, [] => []
  | a, b :: bs => (a, b) :: cellsFrom (a + 1) bs

/-- The memory after bytes are written at consecutive addresses. -/
def Memory.writeRange (m : Memory) (a : Nat) (bs : List Byte) : Memory :=
  m.filter (fun c => c.1 < a) ++ cellsFrom a bs ++ m.filter (fun c => a + bs.length ≤ c.1)

/-- The canonical form: addresses strictly rise and lie inside the memory. -/
abbrev Memory.wf (m : Memory) (size : Nat) : Prop :=
  m.Pairwise (fun c d => c.1 < d.1) ∧ ∀ c ∈ m, c.1 < size

/-- The memory of an address space (R50). -/
def Arch.mem (x : Arch) : Space → Memory
  | .cart => x.cart
  | .pix => x.pix
  | .out => x.out
  | .mbuf => x.mbuf
  | .tok => x.tok

/-- The state with the memory of one address space replaced. -/
def Arch.setMem (x : Arch) (sp : Space) (m : Memory) : Arch :=
  match sp with
  | .cart => { x with cart := m }
  | .pix => { x with pix := m }
  | .out => { x with out := m }
  | .mbuf => { x with mbuf := m }
  | .tok => { x with tok := m }

/-- One byte of a memory: the latest write to it (R61), or, where there is none, the free value of R340. -/
def Arch.read (x : Arch) (sp : Space) (a : Nat) : Byte :=
  match (x.mem sp).get? a with
  | some b => b
  | none => Config.powerOnByte sp a

/-- `M[a .. a + n]` (R13). -/
def Arch.bytes (x : Arch) (sp : Space) (a : Nat) : Nat → List Byte
  | 0 => []
  | n + 1 => x.read sp a :: Arch.bytes x sp (a + 1) n

theorem Arch.bytes_length (x : Arch) (sp : Space) (a n : Nat) : (x.bytes sp a n).length = n := by
  induction n generalizing a with
  | zero => rfl
  | succ n ih => simp [Arch.bytes, ih]

/-- Writes bytes at consecutive addresses of a memory (`MemWrite`, R14). -/
def Arch.write (x : Arch) (sp : Space) (a : Nat) (bs : List Byte) : Arch :=
  x.setMem sp ((x.mem sp).writeRange a bs)

/-- A text into OUT and its length into OUTLEN, as a decoder that succeeds leaves them (R32, R43). OUT bytes past the
text keep what was written last (R61; assumption log 4). -/
def Arch.setText (x : Arch) (s : List Byte) : Arch :=
  { x.write .out 0 s with outlen := BitVec.ofNat 32 s.length }

/-! ### The V2 bit stream -/

/-- Bit `k` of the V2 stream: bit `k mod 8` of `CART[0x4408 + k div 8]` (R54, R194). -/
def Arch.streamBit (x : Arch) (k : Nat) : Bool := (x.read .cart (v2StreamBase + k / 8)).getLsbD (k % 8)

/-- The `n` stream bits from position `k`. -/
def Arch.streamBits (x : Arch) (k : Nat) : Nat → List Bool
  | 0 => []
  | n + 1 => x.streamBit k :: Arch.streamBits x (k + 1) n

/-- `rest()`: the stream bits not yet read, of a stream of `nbits` bits (R197). -/
def Arch.restBits (x : Arch) (nbits pos : Nat) : List Bool := x.streamBits pos (nbits - pos)

/-! ### How a command ends -/

/-- An error, taken: the state the command began in, with STATUS written and nothing else (R300, R305). No vector, no
handler, no saved state exists (R311). -/
def Arch.failed (start : Arch) (e : Err) : Arch := { start with status := e.status }

/-- The one end of every command: its results with STATUS = 0x0001 (R307), or the error taken from the state `start` it
began in (R300, R305). -/
def Arch.completed (start : Arch) : Except Err Arch → Arch
  | .ok y => { y with status := statusDone }
  | .error e => start.failed e

/-- A command completes: the engine is idle again (R319). -/
def State.complete (s : State) (result : Except Err Arch) : State :=
  { s with toArch := s.toArch.completed result, phase := .idle }

/-- A decode in progress completes: as `complete`, from the state its command began in. -/
def State.finish (s : State) (r : Run) (result : Except Err Arch) : State :=
  { s with toArch := r.start.completed result, phase := .idle }

/-- A decode in progress raises an error. -/
def State.abort (s : State) (r : Run) (e : Err) : State := s.finish r (.error e)

end Sys2Proof.Machine
end

