-- ==== Sys2Proof/Machine/Operands.lean ====
section
/-! DEFINITION. The operands the commands read: big-endian header fields (R52, R78), the code region, pixels (R53), the
matcher's two buffers (R220), the text to encode (R150), and the checks on register operands that several commands
share (R104..R106, R109, R251). -/

namespace Sys2Proof.Machine

/-- `be16(M, a)` (R14, R52). -/
def be16 (hi lo : Byte) : Half := hi ++ lo

/-- `be32(M, a)` (R14, R52). -/
def be32 (b0 b1 b2 b3 : Byte) : Word := b0 ++ b1 ++ b2 ++ b3

/-- The magic, `be32(CART, 0x4300)` (R121). -/
def Arch.magicField (x : Arch) : Word :=
  be32 (x.read .cart codeBase) (x.read .cart (codeBase + 1)) (x.read .cart (codeBase + 2)) (x.read .cart (codeBase + 3))

/-- `decompressed_len`, `be16(CART, 0x4304)` (R28, R78). -/
def Arch.dlenField (x : Arch) : Half := be16 (x.read .cart dlenAddr) (x.read .cart (dlenAddr + 1))

/-- `be16(CART, 0x4306)` (R29, R78). -/
def Arch.hdr6Field (x : Arch) : Half := be16 (x.read .cart hdr6Addr) (x.read .cart (hdr6Addr + 1))

/-- The code region, `CART[0x4300 .. 0x8000]` (R51). -/
def Arch.codeRegion (x : Arch) : List Byte := x.bytes .cart codeBase codeLen

/-- The bytes of the V1 body at CURSOR that a token can use: at most two, none at or past 0x8000 (R79, R162). -/
def Arch.v1Window (x : Arch) (cursor : Nat) : List Byte :=
  x.bytes .cart (bodyBase + cursor) (min 2 (v1BodyLen - cursor))

/-- The 256 table bytes `CART[0x4308 .. 0x4408]` (R192). -/
def Arch.mtfBytes (x : Arch) : List Byte := x.bytes .cart bodyBase 256

/-- `NPIX = PIXLEN div 4` (R24). -/
def Arch.npix (x : Arch) : Nat := x.pixlen.toNat / 4

/-- The checks of the pixel operands, first failing check first: BPP (R104), capacity (R106), partial pixel (R105). -/
def imageCheck (p : Params) (x : Arch) : Option Err :=
  if x.bpp ≠ 4 then some .bpp
  else if p.pixCap < x.pixlen.toNat then some .pixlenCap
  else if x.pixlen.toNat % 4 ≠ 0 then some .pixlenPartial
  else none

/-- The checks of PACK and ENCODE: those of the pixel operands, then one pixel per cartridge byte (R109). -/
def packCheck (p : Params) (x : Arch) : Option Err :=
  match imageCheck p x with
  | some e => some e
  | none => if x.npix < cartSize then some .packShort else none

/-- A byte array shorter than a cartridge (R25, R251). -/
def shortCart (x : Arch) : Bool := decide (x.cartlen.toNat < cartSize)

/-- `search_buf = MBUF[0..MSPLIT]` (R220). -/
def Arch.searchBuf (x : Arch) : List Byte := x.bytes .mbuf 0 x.msplit.toNat

/-- `current_buf = MBUF[MSPLIT..MBUFLEN]` (R220). -/
def Arch.currentBuf (x : Arch) : List Byte := x.bytes .mbuf x.msplit.toNat (x.mbuflen.toNat - x.msplit.toNat)

/-- The text `OUT[0..OUTLEN]` (R150, R254). -/
def Arch.text (x : Arch) : List Byte := x.bytes .out 0 x.outlen.toNat

end Sys2Proof.Machine
end

