-- ==== Sys2Proof/Machine/Channel.lean ====
section
/-! DEFINITION. The bit-channel extractor (40_channel.md): the lane functions, EXTRACT and PACK. -/

namespace Sys2Proof.Machine

/-- `chan_byte(R, G, B, A)`: the cartridge byte a pixel carries (R100, R77). -/
def chanByte (r g b a : Byte) : Byte :=
  ((a &&& 3) <<< 6) ||| ((r &&& 3) <<< 4) ||| ((g &&& 3) <<< 2) ||| (b &&& 3)

/-- A channel byte with its low two bits replaced (R101). -/
def putLane (c lane : Byte) : Byte := (c &&& 0xFC) ||| (lane &&& 3)

/-- `chan_put(R, G, B, A, v)`: the pixel after cartridge byte `v` is stored in it, in memory order (R101, R111). -/
def chanPut (r g b a v : Byte) : List Byte :=
  [putLane r (v >>> 4), putLane g (v >>> 2), putLane b v, putLane a (v >>> 6)]

/-- The cartridge byte pixel `k` carries (R53, R77). -/
def pixelByte (x : Arch) (k : Nat) : Byte :=
  chanByte (x.read .pix (4 * k)) (x.read .pix (4 * k + 1)) (x.read .pix (4 * k + 2)) (x.read .pix (4 * k + 3))

/-- Pixel `k` with cartridge byte `v` stored in it. -/
def pixelWith (x : Arch) (k : Nat) (v : Byte) : List Byte :=
  chanPut (x.read .pix (4 * k)) (x.read .pix (4 * k + 1)) (x.read .pix (4 * k + 2)) (x.read .pix (4 * k + 3)) v

/-- The body of EXTRACT (R102): at most 32768 cartridge bytes, and CARTLEN = NPIX whatever the image's size (R103). -/
def extract (p : Params) (x : Arch) : Except Err Arch :=
  match imageCheck p x with
  | some e => .error e
  | none =>
    .ok { x.write .cart 0 ((List.range (min x.npix cartSize)).map (pixelByte x)) with
          cartlen := BitVec.ofNat 32 x.npix }

/-- The loop of PACK (R107): every cartridge byte into its pixel, in pixel order. -/
def packBody (x : Arch) : Arch :=
  x.write .pix 0 ((List.range cartSize).flatMap fun k => pixelWith x k (x.read .cart k))

/-- The body of PACK (R107). -/
def pack (p : Params) (x : Arch) : Except Err Arch :=
  match packCheck p x with
  | some e => .error e
  | none => .ok (packBody x)

/-- EXTRACT (R102). -/
def execExtract (s : State) : Host.Outcome State Fault Refusal :=
  .next (s.complete (extract Config.params s.toArch))

/-- PACK (R107). -/
def execPack (s : State) : Host.Outcome State Fault Refusal :=
  .next (s.complete (pack Config.params s.toArch))

end Sys2Proof.Machine
end

