-- ==== Sys2Proof/Machine/Utf8.lean ====
section
/-! DEFINITION. Text validity: well-formed UTF-8, the table of R140. -/

namespace Sys2Proof.Machine

/-- A byte in a range of the table, ends included. -/
def inRange (lo hi : Nat) (b : Byte) : Bool := decide (lo ≤ b.toNat) && decide (b.toNat ≤ hi)

/-- A continuation byte, 0x80..0xBF. -/
def utf8Cont (b : Byte) : Bool := inRange 0x80 0xBF b

/-- The two-byte row. -/
def utf8Pair (b1 b2 : Byte) : Bool := inRange 0xC2 0xDF b1 && utf8Cont b2

/-- The three-byte rows: no overlong form, no surrogate. -/
def utf8Triple (b1 b2 b3 : Byte) : Bool :=
  ((inRange 0xE0 0xE0 b1 && inRange 0xA0 0xBF b2) || (inRange 0xE1 0xEC b1 && utf8Cont b2)
    || (inRange 0xED 0xED b1 && inRange 0x80 0x9F b2) || (inRange 0xEE 0xEF b1 && utf8Cont b2)) && utf8Cont b3

/-- The four-byte rows: no overlong form, nothing above U+10FFFF. -/
def utf8Quad (b1 b2 b3 b4 : Byte) : Bool :=
  ((inRange 0xF0 0xF0 b1 && inRange 0x90 0xBF b2) || (inRange 0xF1 0xF3 b1 && utf8Cont b2)
    || (inRange 0xF4 0xF4 b1 && inRange 0x80 0x8F b2)) && utf8Cont b3 && utf8Cont b4

/-- `valid_utf8(s)` (R140): `s` is a concatenation of sequences of the table. -/
def validUtf8 : List Byte → Bool
  | [] => true
  | b1 :: r1 =>
    if inRange 0x00 0x7F b1 then validUtf8 r1
    else
      match r1 with
      | [] => false
      | b2 :: r2 =>
        if utf8Pair b1 b2 then validUtf8 r2
        else
          match r2 with
          | [] => false
          | b3 :: r3 =>
            if utf8Triple b1 b2 b3 then validUtf8 r3
            else
              match r3 with
              | [] => false
              | b4 :: r4 => utf8Quad b1 b2 b3 b4 && validUtf8 r4

end Sys2Proof.Machine
end

