-- ==== Sys2Proof/Machine/LiteralV0.lean ====
section
/-! DEFINITION. The literal-text decoder V0 (42_v0_literal.md). -/

namespace Sys2Proof.Machine

/-- The V0 text: the code region's bytes strictly before its first zero byte, or all of them (R142, R143). -/
def v0Text (x : Arch) : List Byte := x.codeRegion.takeWhile (fun b => b != 0)

/-- DECODE_V0 after its length check (R142). -/
def v0Body (x : Arch) : Except Err Arch :=
  if validUtf8 (v0Text x) then .ok (x.setText (v0Text x)) else .error .utf8

/-- DECODE_V0 (R142). -/
def decodeV0 (x : Arch) : Except Err Arch :=
  if shortCart x then .error .shortCart else v0Body x

/-- DECODE_V0 (R142). -/
def execDecodeV0 (s : State) : Host.Outcome State Fault Refusal :=
  .next (s.complete (decodeV0 s.toArch))

end Sys2Proof.Machine
end

