-- ==== Sys2Proof/WellFormed.lean ====
section
/-! DEFINITION. Which terms of `Instr` an encoding stands for. The ranges of TAB and BREF (R81, R82) are in their types;
the one check left is that a reserved command value is not one of the thirteen commands (R73). -/

namespace Sys2Proof

/-- An instruction that some encoding stands for. -/
def Instr.wellFormed : Instr → Bool
  | .illegalCmd op => decide (0x0D ≤ op.toNat)
  | .nop => true
  | .extract => true
  | .pack => true
  | .classify => true
  | .decodeV0 => true
  | .decodeV1 => true
  | .decodeV2 => true
  | .decodeBytes => true
  | .decodeImage => true
  | .find => true
  | .encodeRef => true
  | .encode => true
  | .softReset => true
  | .lit _ => true
  | .tab _ => true
  | .bref _ _ _ => true
  | .v2Token _ => true

end Sys2Proof
end

