-- ==== Sys2Proof/Decode.lean ====
section
/-! DEFINITION. The decoders of the two kinds of encoded form (R70), the bit reader's primitives (R194..R196), and the
encoder written from the same tables. -/

namespace Sys2Proof

/-- Why a decoder rejects its input. -/
inductive DecodeReject where
  /-- a V1 token whose first or second byte is not there (R84, R162) -/
  | v1Truncated
  /-- a V2 prefix with no zero bit before the stream ends (R196) -/
  | v2Unterminated
  /-- an encoded form with something after its one instruction -/
  | trailing
  deriving DecidableEq, Repr

/-! ### Command words (R71..R73) -/

/-- The command a byte written to CMD selects; total (R70). -/
def decodeCommand (op : Byte) : Instr :=
  match op.toNat with
  | 0x00 => .nop
  | 0x01 => .extract
  | 0x02 => .pack
  | 0x03 => .classify
  | 0x04 => .decodeV0
  | 0x05 => .decodeV1
  | 0x06 => .decodeV2
  | 0x07 => .decodeBytes
  | 0x08 => .decodeImage
  | 0x09 => .find
  | 0x0A => .encodeRef
  | 0x0B => .encode
  | 0x0C => .softReset
  | _ => .illegalCmd op

/-! ### V1 tokens (R79..R82) -/

/-- The V1 token at the front of a byte string, and the bytes after it. The first byte alone decides the token and its
length (R79). -/
def decodeV1Token : List Byte → Except DecodeReject (V1Token × List Byte)
  | [] => .error .v1Truncated
  | n :: rest =>
    if n = 0 then
      match rest with
      | [] => .error .v1Truncated
      | b :: rest => .ok (.lit b, rest)
    else if hk : n.toNat - 1 < 59 then .ok (.tab ⟨n.toNat - 1, hk⟩, rest)
    else
      match rest with
      | [] => .error .v1Truncated
      | m :: rest => .ok (.bref (Fin.ofNat 196 (n.toNat - 0x3C)) (m.extractLsb' 4 4) (m.extractLsb' 0 4), rest)

/-! ### The V2 bit reader (R194..R196)

A reader is the list of stream bits not yet read, in stream order; BITPOS is NBITS less its length. -/

/-- `read_bit()` (R194): `none` is V2_TRUNC. -/
def readBit : List Bool → Option (Bool × List Bool)
  | [] => none
  | b :: rest => some (b, rest)

/-- `read_bits(w)` (R195): the first bit read is bit 0 of the value. -/
def readBits : Nat → List Bool → Option (Nat × List Bool)
  | 0, bits => some (0, bits)
  | w + 1, bits =>
    match readBit bits with
    | none => none
    | some (b, rest) =>
      match readBits w rest with
      | none => none
      | some (v, rest) => some (b.toNat + 2 * v, rest)

/-- `read_unary()` (R196): the count of one-bits before the first zero, which is consumed. -/
def readUnary : List Bool → Option (Nat × List Bool)
  | [] => none
  | false :: rest => some (0, rest)
  | true :: rest =>
    match readUnary rest with
    | none => none
    | some (u, rest) => some (u + 1, rest)

/-! ### One decoder over encoded forms, and the encoder -/

/-- The instruction an encoded form stands for. -/
def decode : Code → Except DecodeReject Instr
  | .command op => .ok (decodeCommand op)
  | .v1 bytes =>
    match decodeV1Token bytes with
    | .error e => .error e
    | .ok (t, []) => .ok t.toInstr
    | .ok (_, _ :: _) => .error .trailing
  | .v2 bits =>
    match readUnary bits with
    | none => .error .v2Unterminated
    | some (u, []) => .ok (.v2Token u)
    | some (_, _ :: _) => .error .trailing

/-- The bytes of a V1 token (R80..R82, R91). -/
def V1Token.encode : V1Token → List Byte
  | .lit b => [0x00, b]
  | .tab i => [BitVec.ofNat 8 (i.val + 1)]
  | .bref row h l => [BitVec.ofNat 8 (0x3C + row.val), h ++ l]

/-- The bits of a unary prefix (R85, R92 `PFX`). -/
def encodeUnary (u : Nat) : List Bool := List.replicate u true ++ [false]

/-- The encoded form of an instruction (R72, R79..R82, R85). -/
def encode : Instr → Code
  | .nop => .command 0x00
  | .extract => .command 0x01
  | .pack => .command 0x02
  | .classify => .command 0x03
  | .decodeV0 => .command 0x04
  | .decodeV1 => .command 0x05
  | .decodeV2 => .command 0x06
  | .decodeBytes => .command 0x07
  | .decodeImage => .command 0x08
  | .find => .command 0x09
  | .encodeRef => .command 0x0A
  | .encode => .command 0x0B
  | .softReset => .command 0x0C
  | .illegalCmd op => .command op
  | .lit b => .v1 (V1Token.lit b).encode
  | .tab i => .v1 (V1Token.tab i).encode
  | .bref row h l => .v1 (V1Token.bref row h l).encode
  | .v2Token u => .v2 (encodeUnary u)

/-! ### The opcode table's words -/

/-- The bits of a word, bit 0 first. -/
def wordBits (w : Nat) : Nat → List Bool
  | 0 => []
  | n + 1 => decide (w % 2 = 1) :: wordBits (w / 2) n

/-- The two bytes of a 16-bit row of the table, "written first byte first (byte0 = bits 15..8)" (opcode_table.json, the
note of its LIT row). -/
def tableBytes (w : Nat) : List Byte := [BitVec.ofNat 8 (w / 256), BitVec.ofNat 8 w]

/-- The instruction read from a word of the table: 8 bits are a command word, 16 bits the bytes of a V1 token, and any
other length the bits of a V2 token in stream order, followed by zeros (assumption log 6). -/
def decodeTableWord (nbits w : Nat) : Option Instr :=
  if nbits = 8 then some (decodeCommand (BitVec.ofNat 8 w))
  else if nbits = 16 then
    match decodeV1Token (tableBytes w) with
    | .ok (t, _) => some t.toInstr
    | .error _ => none
  else
    match readUnary (wordBits w nbits ++ [false]) with
    | some (u, _) => some (.v2Token u)
    | none => none

end Sys2Proof
end

