-- ==== Sys2Proof/Machine/Classify.lean ====
section
/-! DEFINITION. The version-tag classifier (41_classify.md). -/

namespace Sys2Proof.Machine

/-- A compression tag (R26). -/
inductive Version where
  | v0 | v1 | v2
  deriving DecidableEq, Repr

/-- The code VERSION holds for a tag (R26, R127). -/
def Version.code : Version → BitVec 2
  | .v0 => 0
  | .v1 => 1
  | .v2 => 2

/-- The tag a VERSION code names; 3 is NONE (R127). -/
def versionOf (v : BitVec 2) : Option Version :=
  match v.toNat with
  | 0 => some .v0
  | 1 => some .v1
  | 2 => some .v2
  | _ => none

/-- `classify(m)` (R120): total, and V0 for every unknown magic (R122). -/
def classify (p : Params) (m : Word) : Version :=
  if m = p.magicV1 then .v1 else if m = p.magicV2 then .v2 else .v0

/-- The header as CLASSIFY and the entry points record it: MAGIC, VERSION, DLEN, HDR6 (R124, R251). -/
def Arch.withHeader (p : Params) (x : Arch) : Arch :=
  { x with
    magic := x.magicField
    version := (classify p x.magicField).code
    dlen := x.dlenField
    hdr6 := x.hdr6Field }

/-- CLASSIFY (R124): it ignores CARTLEN and never fails. -/
def execClassify (s : State) : Host.Outcome State Fault Refusal :=
  .next (s.complete (.ok (s.toArch.withHeader Config.params)))

end Sys2Proof.Machine
end

