-- ==== Sys2Proof/Machine/MtfV2.lean ====
section
/-! DEFINITION. The move-to-front decoder V2 (44_v2_mtf.md): header, table, the token framework around the OPEN grammar,
DECODE_V2, and a token's effect inside a decode in progress. -/

namespace Sys2Proof.Machine

/-! ### Header and table -/

/-- A compressed_len that cannot hold header and table, or reaches past the cartridge (R191). -/
def badClen (clen : Half) : Bool := decide (clen.toNat < v2HdrBytes) || decide (codeLen < clen.toNat)

/-- `NBITS = 8 × (compressed_len − 264)` (R193). -/
def v2NBits (clen : Half) : Nat := 8 * (clen.toNat - v2HdrBytes)

/-- The table the cartridge supplies: `MTF[i] = CART[0x4308 + i]` (R192). -/
def Arch.mtfField (x : Arch) : Mtf := ⟨x.mtfBytes.toArray, by simp [Arch.mtfBytes, Arch.bytes_length]⟩

/-- A table in which no value appears twice is a permutation of 0..255 (R192). -/
def isPermutation (m : Mtf) : Bool := decide m.toList.Nodup

/-- `mtf_take(i)`: the value, and the table with it moved to the front (R202). -/
def mtfTake (i : Fin 256) (m : Mtf) : Byte × Mtf :=
  (m[i], ⟨(m[i] :: (m.toList.take i ++ m.toList.drop (i + 1))).toArray, by
    have := i.isLt
    simp
    omega⟩)

/-! ### The decoder -/

/-- What a V2 token reads and writes: BITPOS, the table, and the sequence OUT (R197, R199). -/
structure V2State where
  bitpos : Nat
  mtf : Mtf
  out : List Byte
  deriving DecidableEq, Repr

/-- A V2 token of prefix value `u` at BITPOS: the prefix's `u + 1` bits, then the payload as V2_GRAMMAR has it (R197,
R199); with V2_GRAMMAR = NONE no token can be executed (R198). -/
def v2Exec (p : Params) (x : Arch) (nbits u : Nat) (d : V2State) : Except Err V2State :=
  match p.v2Grammar with
  | none => .error .v2Grammar
  | some g =>
    match g.run u (x.restBits nbits (d.bitpos + (u + 1))) d.mtf d.out with
    | .truncErr => .error .v2Trunc
    | .tokenErr => .error .v2Token
    | .ok k e m => .ok { bitpos := d.bitpos + (u + 1) + k, mtf := m, out := d.out ++ e }

/-- The error of a token that is needed when its prefix cannot be read: UnsupportedError comes before any bit is read
(R198, R206). -/
def v2NoToken (p : Params) : Err :=
  match p.v2Grammar with
  | none => .v2Grammar
  | some _ => .v2Trunc

/-- The test at the top of the loop (R199). -/
def v2Continues (dlen : Half) (d : V2State) : Bool := decide (d.out.length < dlen.toNat)

/-- The check after a token (R199, R200). -/
def v2Overruns (dlen : Half) (d : V2State) : Bool := decide (dlen.toNat < d.out.length)

/-- One turn of the loop (R199). With V2_GRAMMAR = NONE both branches raise UnsupportedError(V2_GRAMMAR), so that no bit
read first can be told (R198, R305). -/
def v2Turn (p : Params) (x : Arch) (nbits : Nat) (dlen : Half) (d : V2State) : Except Err V2State :=
  match readUnary (x.restBits nbits d.bitpos) with
  | none => .error (v2NoToken p)
  | some (u, _) =>
    match v2Exec p x nbits u d with
    | .error e => .error e
    | .ok d' => if v2Overruns dlen d' then .error .v2Overrun else .ok d'

/-- The loop of R199. Each turn reads at least the prefix's terminating bit, so after NBITS turns no token can be read
(R204). -/
def v2Loop (p : Params) (x : Arch) (nbits : Nat) (dlen : Half) : Nat → V2State → Except Err V2State
  | 0, d => if v2Continues dlen d then .error (v2NoToken p) else .ok d
  | n + 1, d =>
    if v2Continues dlen d then
      match v2Turn p x nbits dlen d with
      | .error e => .error e
      | .ok d' => v2Loop p x nbits dlen n d'
    else .ok d

/-- After the loop: the UTF-8 check, then the results (R199). -/
def v2Finish (x : Arch) (dlen : Half) (d : V2State) : Except Err Arch :=
  if validUtf8 d.out then
    .ok { x.setText d.out with bitpos := d.bitpos, mtf := d.mtf, dlen := dlen, hdr6 := x.hdr6Field }
  else .error .utf8

/-- BITPOS, MTF and OUT at the start of a decode (R192, R193, R199). -/
def v2Start (x : Arch) : V2State := { bitpos := 0, mtf := x.mtfField, out := [] }

/-- DECODE_V2 after its length check (R199). -/
def v2Body (p : Params) (x : Arch) : Except Err Arch :=
  if badClen x.hdr6Field then .error .v2Clen
  else if !isPermutation x.mtfField then .error .v2Mtf
  else
    match v2Loop p x (v2NBits x.hdr6Field) x.dlenField (v2NBits x.hdr6Field) (v2Start x) with
    | .error e => .error e
    | .ok d => v2Finish x x.dlenField d

/-- DECODE_V2 (R199). -/
def decodeV2 (p : Params) (x : Arch) : Except Err Arch :=
  if shortCart x then .error .shortCart else v2Body p x

/-- DECODE_V2 (R199). -/
def execDecodeV2 (s : State) : Host.Outcome State Fault Refusal :=
  .next (s.complete (decodeV2 Config.params s.toArch))

/-! ### A token inside a decode in progress -/

/-- The token's view of the state. -/
def State.v2View (s : State) (r : Run) : V2State := { bitpos := s.bitpos, mtf := s.mtf, out := r.out }

/-- A token's result, in the decode in progress; an error ends the command (R300). -/
def State.v2Put (s : State) (r : Run) (nbits : Nat) (result : Except Err V2State) : State :=
  match result with
  | .ok d => { s with bitpos := d.bitpos, mtf := d.mtf, phase := .v2 { r with out := d.out } nbits }
  | .error e => s.abort r e

/-- V2_TOKEN (R85, R199). -/
def execV2Token (u : Nat) (s : State) : Host.Outcome State Fault Refusal :=
  match s.phase with
  | .v2 r nbits => .next (s.v2Put r nbits (v2Exec Config.params s.toArch nbits u (s.v2View r)))
  | .idle => .refused .noV2Decode
  | .v1 _ => .refused .noV2Decode

end Sys2Proof.Machine
end

