-- ==== Sys2Proof/Machine/TokensV1.lean ====
section
/-! DEFINITION. The token-stream LZ decoder V1 (43_v1_tokens.md): the three tokens, the loop of R161, DECODE_V1, and a
token's effect inside a decode in progress. -/

namespace Sys2Proof.Machine

/-- What a V1 token reads and writes: CURSOR and the sequence OUT (R163..R165). -/
structure V1State where
  cursor : Nat
  out : List Byte
  deriving DecidableEq, Repr

/-! ### The tokens -/

/-- LIT (R163). -/
def v1Lit (b : Byte) (d : V1State) : V1State := { cursor := d.cursor + 2, out := d.out ++ [b] }

/-- TAB (R164). -/
def v1Tab (p : Params) (i : Fin 59) (d : V1State) : V1State :=
  { cursor := d.cursor + 1, out := d.out ++ [p.oldLookup[i]] }

/-- A BREF's distance under each value of V1_NIBBLES (R82). -/
def brefDistance (n : Nibbles) (row : Fin 196) (h l : BitVec 4) : Nat :=
  match n with
  | .doc => row.val * 16 + h.toNat
  | .swapped => row.val * 16 + l.toNat

/-- A BREF's length under each value of V1_NIBBLES (R82). -/
def brefLength (n : Nibbles) (h l : BitVec 4) : Nat :=
  match n with
  | .doc => l.toNat + 2
  | .swapped => h.toNat + 2

/-- The copy of a BREF: `length` bytes from `distance` before the end, all of them already emitted (R165..R167). -/
def v1Copy (distance length : Nat) (d : V1State) : Except Err V1State :=
  if d.out.length < distance ∨ distance < length then .error .v1BrefRange
  else .ok { cursor := d.cursor + 2, out := d.out ++ (d.out.drop (d.out.length - distance)).take length }

/-- BREF (R165). -/
def v1Bref (p : Params) (row : Fin 196) (h l : BitVec 4) (d : V1State) : Except Err V1State :=
  v1Copy (brefDistance p.v1Nibbles row h l) (brefLength p.v1Nibbles h l) d

/-- The effect of a V1 token. -/
def v1Exec (p : Params) (t : V1Token) (d : V1State) : Except Err V1State :=
  match t with
  | .lit b => .ok (v1Lit b d)
  | .tab i => .ok (v1Tab p i d)
  | .bref row h l => v1Bref p row h l d

/-! ### The decoder -/

/-- The test at the top of the loop (R161, R169). -/
def v1Continues (p : Params) (dlen : Half) (d : V1State) : Bool :=
  match p.v1LoopBound with
  | .cursor => decide (d.cursor < dlen.toNat)
  | .output => decide (d.out.length < dlen.toNat)

/-- The check after a token, in OUTPUT mode only (R161, R169). -/
def v1Overruns (p : Params) (dlen : Half) (d : V1State) : Bool :=
  decide (dlen.toNat < d.out.length) && decide (p.v1LoopBound = .output)

/-- One turn of the loop: fetch (R162), dispatch on the first byte (R161), execute, check for an overrun. -/
def v1Turn (p : Params) (x : Arch) (dlen : Half) (d : V1State) : Except Err V1State :=
  match decodeV1Token (x.v1Window d.cursor) with
  | .error _ => .error .v1Trunc
  | .ok (t, _) =>
    match v1Exec p t d with
    | .error e => .error e
    | .ok d' => if v1Overruns p dlen d' then .error .v1Overrun else .ok d'

/-- The main loop (R161). Each turn consumes at least one of the 15608 body bytes, so after that many turns the next
fetch is at or past 0x8000 (R162, R173). -/
def v1Loop (p : Params) (x : Arch) (dlen : Half) : Nat → V1State → Except Err V1State
  | 0, d => if v1Continues p dlen d then .error .v1Trunc else .ok d
  | n + 1, d =>
    if v1Continues p dlen d then
      match v1Turn p x dlen d with
      | .error e => .error e
      | .ok d' => v1Loop p x dlen n d'
    else .ok d

/-- After the loop: the UTF-8 check, then the results (R161, R168). -/
def v1Finish (x : Arch) (dlen : Half) (d : V1State) : Except Err Arch :=
  if validUtf8 d.out then
    .ok { x.setText d.out with cursor := d.cursor, dlen := dlen, hdr6 := x.hdr6Field }
  else .error .utf8

/-- CURSOR and OUT at the start of a decode (R161). -/
def v1Start : V1State := { cursor := 0, out := [] }

/-- DECODE_V1 after its length check (R161). -/
def v1Body (p : Params) (x : Arch) : Except Err Arch :=
  match v1Loop p x x.dlenField v1BodyLen v1Start with
  | .error e => .error e
  | .ok d => v1Finish x x.dlenField d

/-- DECODE_V1 (R161). -/
def decodeV1 (p : Params) (x : Arch) : Except Err Arch :=
  if shortCart x then .error .shortCart else v1Body p x

/-- DECODE_V1 (R161). -/
def execDecodeV1 (s : State) : Host.Outcome State Fault Refusal :=
  .next (s.complete (decodeV1 Config.params s.toArch))

/-! ### A token inside a decode in progress -/

/-- The token's view of the state. -/
def State.v1View (s : State) (r : Run) : V1State := { cursor := s.cursor, out := r.out }

/-- A token's result, in the decode in progress; an error ends the command (R300). -/
def State.v1Put (s : State) (r : Run) (result : Except Err V1State) : State :=
  match result with
  | .ok d => { s with cursor := d.cursor, phase := .v1 { r with out := d.out } }
  | .error e => s.abort r e

/-- LIT (R163). -/
def execLit (b : Byte) (s : State) : Host.Outcome State Fault Refusal :=
  match s.phase with
  | .v1 r => .next (s.v1Put r (.ok (v1Lit b (s.v1View r))))
  | .idle => .refused .noV1Decode
  | .v2 _ _ => .refused .noV1Decode

/-- TAB (R164). -/
def execTab (i : Fin 59) (s : State) : Host.Outcome State Fault Refusal :=
  match s.phase with
  | .v1 r => .next (s.v1Put r (.ok (v1Tab Config.params i (s.v1View r))))
  | .idle => .refused .noV1Decode
  | .v2 _ _ => .refused .noV1Decode

/-- BREF (R165). -/
def execBref (row : Fin 196) (h l : BitVec 4) (s : State) : Host.Outcome State Fault Refusal :=
  match s.phase with
  | .v1 r => .next (s.v1Put r (v1Bref Config.params row h l (s.v1View r)))
  | .idle => .refused .noV1Decode
  | .v2 _ _ => .refused .noV1Decode

end Sys2Proof.Machine
end

