-- ==== Sys2Proof/Machine/Cartridge.lean ====
section
/-! DEFINITION. The decode entry points and the Cartridge (46_cartridge.md): DECODE_BYTES, DECODE_IMAGE, and what a
decode in progress does when its loop ends. -/

namespace Sys2Proof.Machine

/-- The results of an entry point whose decoder has succeeded: the header registers, TEXTLEN, TEXT_VALID and EMPTY
(R251, R253). -/
def sealCartridge (p : Params) (x : Arch) : Arch :=
  { x.withHeader p with
    textlen := x.outlen
    flags := flagsWithCartridge x.flags (x.outlen == 0) }

/-- The decoder the magic selects, after its length check (R251). -/
def selectedBody (p : Params) (x : Arch) : Except Err Arch :=
  match classify p x.magicField with
  | .v0 => v0Body x
  | .v1 => v1Body p x
  | .v2 => v2Body p x

/-- DECODE_BYTES (R251). -/
def decodeBytes (p : Params) (x : Arch) : Except Err Arch :=
  if shortCart x then .error .shortCart
  else
    match selectedBody p x with
    | .error e => .error e
    | .ok y => .ok (sealCartridge p y)

/-- DECODE_IMAGE: the body of EXTRACT, then the body of DECODE_BYTES (R252). -/
def decodeImage (p : Params) (x : Arch) : Except Err Arch :=
  match extract p x with
  | .error e => .error e
  | .ok y => decodeBytes p y

/-- DECODE_BYTES (R251). -/
def execDecodeBytes (s : State) : Host.Outcome State Fault Refusal :=
  .next (s.complete (decodeBytes Config.params s.toArch))

/-- DECODE_IMAGE (R252). -/
def execDecodeImage (s : State) : Host.Outcome State Fault Refusal :=
  .next (s.complete (decodeImage Config.params s.toArch))

/-! ### The Cartridge's accessors -/

/-- The Cartridge the core holds: compression, text, length (R254); its `gfx` is a placeholder with no state (R48). -/
structure Cartridge where
  compression : Option Version
  text : List Byte
  length : Nat
  deriving DecidableEq, Repr

/-- The Cartridge, when FLAGS.TEXT_VALID = 1 (R254). -/
def Arch.cartridge (x : Arch) : Option Cartridge :=
  if flagTextValid x.flags then
    some { compression := versionOf x.version, text := x.bytes .out 0 x.textlen.toNat, length := x.textlen.toNat }
  else none

/-! ### A decode in progress -/

/-- What the command a decode belongs to does with the decoder's results (R251, R260). -/
def Entry.result (p : Params) (entry : Entry) (res : Except Err Arch) : Except Err Arch :=
  match entry, res with
  | .direct, res => res
  | .cartridge, .ok y => .ok (sealCartridge p y)
  | .cartridge, .error e => .error e

/-- After a V1 token: the overrun check, then the loop's test, then the end of the decode (R161). A command that an error
has ended is left alone. -/
def State.v1After (p : Params) (s : State) : State :=
  match s.phase with
  | .v1 r =>
    if v1Overruns p r.dlen (s.v1View r) then s.abort r .v1Overrun
    else if v1Continues p r.dlen (s.v1View r) then s
    else s.finish r (r.entry.result p (v1Finish s.toArch r.dlen (s.v1View r)))
  | .idle => s
  | .v2 _ _ => s

/-- After a V2 token: the overrun check, then the loop's test, then the end of the decode (R199). -/
def State.v2After (p : Params) (s : State) : State :=
  match s.phase with
  | .v2 r _ =>
    if v2Overruns r.dlen (s.v2View r) then s.abort r .v2Overrun
    else if v2Continues r.dlen (s.v2View r) then s
    else s.finish r (r.entry.result p (v2Finish s.toArch r.dlen (s.v2View r)))
  | .idle => s
  | .v1 _ => s

/-- The state in which a V1 decode of the command that began in `s` reads its first token (R161). -/
def State.enterV1 (s : State) (entry : Entry) : State :=
  { s with
    cursor := 0
    phase := .v1 { start := s.toArch, entry := entry, dlen := s.dlenField, out := [] } }

/-- The state in which a V2 decode of the command that began in `s` reads its first token (R199). -/
def State.enterV2 (s : State) (entry : Entry) : State :=
  { s with
    bitpos := 0
    mtf := s.mtfField
    phase := .v2 { start := s.toArch, entry := entry, dlen := s.dlenField, out := [] } (v2NBits s.hdr6Field) }

end Sys2Proof.Machine
end

