-- ==== Sys2Proof/Machine/EncodeText.lean ====
section
/-! DEFINITION. The V0 encode path, ENCODE (42_v0_literal.md). -/

namespace Sys2Proof.Machine

/-- The check of the compression asked for (R151, R155). -/
def encSelCheck (x : Arch) : Option Err :=
  if x.encSel = 3 then some .encSel
  else if x.encSel = 1 then some .encV1
  else if x.encSel = 2 then some .encV2
  else none

/-- The value the classifier would read where a text starts: its first four bytes, zero-padded (R153). -/
def textMagic (t : List Byte) : Word :=
  be32 (t.getD 0 0) (t.getD 1 0) (t.getD 2 0) (t.getD 3 0)

/-- The checks of the text, first failing check first (R151..R153). -/
def textCheck (p : Params) (x : Arch) : Option Err :=
  if codeLen < x.outlen.toNat then some .encTextLong
  else if !validUtf8 x.text then some .encTextUtf8
  else if (0 : Byte) ∈ x.text then some .encTextNul
  else if textMagic x.text = p.magicV1 ∨ textMagic x.text = p.magicV2 then some .encMagic
  else none

/-- All of ENCODE's checks in order (R151, R309). -/
def encodeCheck (p : Params) (x : Arch) : Option Err :=
  match encSelCheck x with
  | some e => some e
  | none =>
    match packCheck p x with
    | some e => some e
    | none => textCheck p x

/-- The code region ENCODE writes: the text, then zeros to the end (R151, R152). -/
def codeImage (t : List Byte) : List Byte := t ++ List.replicate (codeLen - t.length) 0

/-- ENCODE's results: the code region of CART, then the loop of PACK (R151, R154). -/
def encodeBody (x : Arch) : Arch := packBody (x.write .cart codeBase (codeImage x.text))

/-- The body of ENCODE (R151). -/
def encodeText (p : Params) (x : Arch) : Except Err Arch :=
  match encodeCheck p x with
  | some e => .error e
  | none => .ok (encodeBody x)

/-- ENCODE (R151). -/
def execEncode (s : State) : Host.Outcome State Fault Refusal :=
  .next (s.complete (encodeText Config.params s.toArch))

end Sys2Proof.Machine
end

