-- ==== Sys2Proof/Machine/Housekeeping.lean ====
section
/-! DEFINITION. NOP, SOFT_RESET and the reserved command values (46_cartridge.md, section 4). -/

namespace Sys2Proof.Machine

/-- The state SOFT_RESET leaves: every register at its reset value, the memories kept (R258, R341). -/
def softReset (x : Arch) : Arch :=
  { Arch.reset with cart := x.cart, pix := x.pix, out := x.out, mbuf := x.mbuf, tok := x.tok }

/-- NOP (R257). -/
def execNop (s : State) : Host.Outcome State Fault Refusal := .next (s.complete (.ok s.toArch))

/-- SOFT_RESET (R258). -/
def execSoftReset (s : State) : Host.Outcome State Fault Refusal := .next (s.complete (.ok (softReset s.toArch)))

/-- A reserved command value: CommandError(ILLEGAL_CMD), whichever it is (R73, R259). -/
def execIllegalCmd (_op : Byte) (s : State) : Host.Outcome State Fault Refusal :=
  .next (s.complete (.error .illegalCmd))

end Sys2Proof.Machine
end

