-- ==== Sys2Proof/Machine/Matcher.lean ====
section
/-! DEFINITION. The back-reference matcher (45_backref.md): FIND and ENCODE_REF. -/

namespace Sys2Proof.Machine

/-- How many bytes agree from the front: the run "extending the match as long as bytes agree" (R222). -/
def matchLen : List Byte → List Byte → Nat
  | a :: as, b :: bs => if a = b then matchLen as bs + 1 else 0
  | _, _ => 0

/-- The least position that holds a byte. -/
def findByte (c : Byte) : List Byte → Option Nat
  | [] => none
  | b :: bs =>
    if b = c then some 0
    else
      match findByte c bs with
      | none => none
      | some i => some (i + 1)

/-- `find(S, C)`: length and distance of the run at the earliest position whose byte is C's first (R222, R223). -/
def findMatch (S C : List Byte) : Option (Nat × Nat) :=
  match C with
  | [] => none
  | c :: _ =>
    match findByte c S with
    | none => none
    | some p => some (matchLen (S.drop p) C, S.length - p)

/-- FIND's operand check (R221). -/
def mbufBad (x : Arch) : Bool :=
  decide (mbufSize < x.mbuflen.toNat) || decide (x.mbuflen.toNat < x.msplit.toNat)

/-- FIND's results: MFOUND, MEMIT, MLEN and MDIST (R222, R225, R36). -/
def withMatch (x : Arch) : Option (Nat × Nat) → Arch
  | none => { x with flags := flagsWithMatch x.flags false false, mlen := 0, mdist := 0 }
  | some (len, dist) =>
    { x with
      flags := flagsWithMatch x.flags true (emitPolicy len dist)
      mlen := BitVec.ofNat 16 len
      mdist := BitVec.ofNat 16 dist }

/-- The body of FIND (R222). -/
def find (x : Arch) : Except Err Arch :=
  if mbufBad x then .error .mbufRange else .ok (withMatch x (findMatch x.searchBuf x.currentBuf))

/-- `be_var(v)`: big-endian, in the fewest bytes, one for 0 (R88, R226). -/
def beVar (v : Half) : List Byte :=
  if v.toNat ≤ 0xFF then [v.extractLsb' 0 8] else [v.extractLsb' 8 8, v.extractLsb' 0 8]

/-- The reference token of a length and a distance (R87). -/
def refToken (length distance : Half) : List Byte := beVar length ++ [refSep] ++ beVar distance

/-- The body of ENCODE_REF (R228). TOK bytes past TOKLEN keep what was written last (R61; assumption log 4). -/
def encodeRefBody (x : Arch) : Arch :=
  { x.write .tok 0 (refToken x.elen x.edist) with
    toklen := BitVec.ofNat 8 (refToken x.elen x.edist).length }

/-- FIND (R222). -/
def execFind (s : State) : Host.Outcome State Fault Refusal :=
  .next (s.complete (find s.toArch))

/-- ENCODE_REF (R228). -/
def execEncodeRef (s : State) : Host.Outcome State Fault Refusal :=
  .next (s.complete (.ok (encodeRefBody s.toArch)))

end Sys2Proof.Machine
end

