-- ==== Sys2Proof/Machine/Dispatch.lean ====
section
/-! DEFINITION. The dispatch of every instruction to its meaning. -/

namespace Sys2Proof.Machine

/-- The meaning of an instruction. -/
def exec (i : Instr) (s : State) : Host.Outcome State Fault Refusal :=
  match i with
  | .nop => Sys2Proof.Machine.execNop s
  | .extract => Sys2Proof.Machine.execExtract s
  | .pack => Sys2Proof.Machine.execPack s
  | .classify => Sys2Proof.Machine.execClassify s
  | .decodeV0 => Sys2Proof.Machine.execDecodeV0 s
  | .decodeV1 => Sys2Proof.Machine.execDecodeV1 s
  | .decodeV2 => Sys2Proof.Machine.execDecodeV2 s
  | .decodeBytes => Sys2Proof.Machine.execDecodeBytes s
  | .decodeImage => Sys2Proof.Machine.execDecodeImage s
  | .find => Sys2Proof.Machine.execFind s
  | .encodeRef => Sys2Proof.Machine.execEncodeRef s
  | .encode => Sys2Proof.Machine.execEncode s
  | .softReset => Sys2Proof.Machine.execSoftReset s
  | .illegalCmd op => Sys2Proof.Machine.execIllegalCmd op s
  | .lit b => Sys2Proof.Machine.execLit b s
  | .tab k => Sys2Proof.Machine.execTab k s
  | .bref row h l => Sys2Proof.Machine.execBref row h l s
  | .v2Token u => Sys2Proof.Machine.execV2Token u s

end Sys2Proof.Machine
end

