-- ==== Sys2Proof/Machine/HostAccess.lean ====
section
/-! DEFINITION. What the host can do between commands (R56, R74): reading and writing registers and memories. -/

namespace Sys2Proof.Machine

/-- A host read of a register; CMD and every unassigned number read 0 (R21, R74). -/
def hostReadReg (x : Arch) (reg : Byte) : Nat :=
  match reg.toNat with
  | 0x01 => x.status.toNat
  | 0x02 => x.bpp.toNat
  | 0x03 => x.pixlen.toNat
  | 0x04 => x.cartlen.toNat
  | 0x05 => x.version.toNat
  | 0x06 => x.magic.toNat
  | 0x07 => x.dlen.toNat
  | 0x08 => x.hdr6.toNat
  | 0x09 => x.outlen.toNat
  | 0x0A => x.textlen.toNat
  | 0x0B => x.flags.toNat
  | 0x0C => x.msplit.toNat
  | 0x0D => x.mbuflen.toNat
  | 0x0E => x.mlen.toNat
  | 0x0F => x.mdist.toNat
  | 0x10 => x.elen.toNat
  | 0x11 => x.edist.toNat
  | 0x12 => x.toklen.toNat
  | 0x13 => x.encSel.toNat
  | _ => 0

/-- A host write to a register other than CMD: the value mod 2^width where the host may write, no effect on a read-only
or unassigned register (R56, R74). -/
def hostWriteReg (x : Arch) (reg : Byte) (v : Nat) : Arch :=
  match reg.toNat with
  | 0x02 => { x with bpp := BitVec.ofNat 8 v }
  | 0x03 => { x with pixlen := BitVec.ofNat 32 v }
  | 0x04 => { x with cartlen := BitVec.ofNat 32 v }
  | 0x09 => { x with outlen := BitVec.ofNat 32 v }
  | 0x0C => { x with msplit := BitVec.ofNat 16 v }
  | 0x0D => { x with mbuflen := BitVec.ofNat 16 v }
  | 0x10 => { x with elen := BitVec.ofNat 16 v }
  | 0x11 => { x with edist := BitVec.ofNat 16 v }
  | 0x13 => { x with encSel := BitVec.ofNat 2 v }
  | _ => x

/-- A host read of `n` bytes of a memory (R56); `none` where the memory has no such address. -/
def hostReadMem (p : Params) (x : Arch) (sp : Space) (a n : Nat) : Option (List Byte) :=
  if a + n ≤ sp.size p then some (x.bytes sp a n) else none

/-- A host write to a memory: TOK is read-only (R56); bytes past the end of a memory have no address (R50). -/
def hostWriteMem (p : Params) (s : State) (sp : Space) (a : Nat) (bs : List Byte) :
    Host.Outcome State Fault Refusal :=
  match sp with
  | .tok => .next s
  | .cart | .pix | .out | .mbuf =>
    if a + bs.length ≤ sp.size p then .next { s with toArch := s.toArch.write sp a bs }
    else .fault (.noSuchAddress sp a)

/-- The effect of a host action other than a write to CMD (R90). -/
def hostAct (p : Params) (s : State) : HostAction → Host.Outcome State Fault Refusal
  | .set reg v => .next { s with toArch := hostWriteReg s.toArch reg v }
  | .load sp a bs => hostWriteMem p s sp a bs
  | .fill sp a count b => hostWriteMem p s sp a (List.replicate count b)
  | .expect _ _ => .next s

end Sys2Proof.Machine
end

