-- ==== Sys2Proof/Machine/Fetch.lean ====
section
/-! DEFINITION. Where the machine reads its next instruction: a command from the host's next action (R71, R72), a V1 token
from the body at CURSOR (R162), a V2 prefix from the bit stream at BITPOS (R196); and placing a given word there. -/

namespace Sys2Proof.Machine

/-- The next V1 token of a decode in progress, `none` where it is cut off (R162). -/
def State.fetchV1 (s : State) : Option V1Token :=
  match decodeV1Token (s.v1Window s.cursor) with
  | .ok (t, _) => some t
  | .error _ => none

/-- The prefix of the next V2 token of a decode in progress, `none` where it is cut off (R196). -/
def State.fetchV2 (s : State) (nbits : Nat) : Option Nat :=
  match readUnary (s.restBits nbits s.bitpos) with
  | some (u, _) => some u
  | none => none

/-- The decode that `placeWord` sets up for a token: its command began in `s`, with the largest decompressed_len. -/
def State.placedRun (s : State) : Run :=
  { start := s.toArch, entry := .direct, dlen := 0xFFFF, out := [] }

/-- The bits of a table word, as many bytes of them as hold `n` bits. -/
def wordBytes (w : Nat) : Nat → List Byte
  | 0 => []
  | n + 1 => BitVec.ofNat 8 w :: wordBytes (w / 256) n

/-- A table word where the machine reads its next instruction: a command word as the host's next action; a V1 token at
the body's start, in a V1 decode about to read its first token; a V2 token at the stream's start, in a V2 decode about to
read its first token, one zero byte after the word's own (assumption logs 6 and 7). -/
def State.placeWord (s : State) (nbits w : Nat) : State :=
  if nbits = 8 then { s with phase := .idle, host := .set 0x00 w :: s.host }
  else if nbits = 16 then
    { s with
      toArch := { s.toArch.write .cart bodyBase (tableBytes w) with cursor := 0 }
      phase := .v1 s.placedRun }
  else
    { s with
      toArch := { s.toArch.write .cart v2StreamBase (wordBytes (w % 2 ^ nbits) (nbits / 8 + 1)) with bitpos := 0 }
      phase := .v2 s.placedRun (8 * (nbits / 8 + 1)) }

end Sys2Proof.Machine
end

