-- ==== Sys2Proof/Machine/Step.lean ====
section
/-! DEFINITION. One step of the machine. Between commands it performs the host's next action; a write to CMD runs the
whole command (R10, R21, R349). Inside a decode it runs one token of the loop (R161, R199). -/

namespace Sys2Proof.Machine

/-- One token of a V1 decode in progress. -/
def stepV1 (s : State) (r : Run) : Host.Outcome State Fault Refusal :=
  match s.fetchV1 with
  | none => .next (s.abort r .v1Trunc)
  | some t =>
    match exec t.toInstr s with
    | .next s' => .next (s'.v1After Config.params)
    | .fault f => .fault f
    | .refused f => .refused f

/-- One token of a V2 decode in progress. -/
def stepV2 (s : State) (r : Run) (nbits : Nat) : Host.Outcome State Fault Refusal :=
  match s.fetchV2 nbits with
  | none => .next (s.abort r (v2NoToken Config.params))
  | some u =>
    match exec (.v2Token u) s with
    | .next s' => .next (s'.v2After Config.params)
    | .fault f => .fault f
    | .refused f => .refused f

/-- The host's next action; with none pending the core stays as it is (R319). -/
def stepHost (s : State) : Host.Outcome State Fault Refusal :=
  match s.host with
  | [] => .next s
  | a :: rest =>
    match a with
    | .set reg v =>
      if reg = 0 then exec (decodeCommand (BitVec.ofNat 8 v)) { s with host := rest }
      else hostAct Config.params { s with host := rest } (.set reg v)
    | .load sp addr bs => hostAct Config.params { s with host := rest } (.load sp addr bs)
    | .fill sp addr n b => hostAct Config.params { s with host := rest } (.fill sp addr n b)
    | .expect reg v => hostAct Config.params { s with host := rest } (.expect reg v)

/-- One step. -/
def step (s : State) : Host.Outcome State Fault Refusal :=
  match s.phase with
  | .idle => stepHost s
  | .v1 r => stepV1 s r
  | .v2 r nbits => stepV2 s r nbits

/-- The state with an instruction of the opcode table where `step` reads its next instruction. -/
def State.withFetchWord (s : State) (nbits w : Nat) : State := s.placeWord nbits w

end Sys2Proof.Machine
end

