-- ==== Sys2Proof/Machine/Assembler.lean ====
section
/-! DEFINITION. The assembler syntax of 30_encoding.md section 8: V1 and V2 token syntax (R91, R92) and the
pseudo-instructions of host programs (R90). An assembly error is `none`. -/

namespace Sys2Proof.Machine

/-- A V1 token or pseudo-instruction as the assembler reads it (R91). A character of LITS and TABC is given by its UTF-8
bytes. -/
inductive AsmToken where
  /-- LIT b -/
  | lit (b : Byte)
  /-- TAB k -/
  | tab (k : Nat)
  /-- BREF distance, length -/
  | bref (distance length : Nat)
  /-- LITS: one LIT per byte of the text -/
  | lits (text : List Byte)
  /-- TABC: the TAB of the least index that holds the character -/
  | tabc (c : Byte)
  deriving DecidableEq, Repr

/-- The bytes of one V1 token, with V1_NIBBLES = DOC (R91). -/
def asmV1Token (p : Params) : AsmToken → Option (List Byte)
  | .lit b => some [0x00, b]
  | .tab k => if 1 ≤ k ∧ k ≤ 59 then some [BitVec.ofNat 8 k] else none
  | .bref distance length =>
    if distance ≤ 3135 ∧ 2 ≤ length ∧ length ≤ 17 then
      some [BitVec.ofNat 8 (0x3C + distance / 16), BitVec.ofNat 8 (distance % 16 * 16 + (length - 2))]
    else none
  | .lits text => some (text.flatMap fun b => [0x00, b])
  | .tabc c =>
    match p.oldLookup.toList.findIdx? (fun b => b == c) with
    | none => none
    | some i => some [BitVec.ofNat 8 (i + 1)]

/-- The bytes of a sequence of V1 tokens. -/
def asmV1 (p : Params) : List AsmToken → Option (List Byte)
  | [] => some []
  | t :: ts =>
    match asmV1Token p t, asmV1 p ts with
    | some a, some b => some (a ++ b)
    | _, _ => none

/-- The V2 forms the spec can spell (R92). -/
inductive AsmBits where
  /-- PFX u -/
  | pfx (u : Nat)
  /-- BITS n, v -/
  | bits (n v : Nat)
  deriving DecidableEq, Repr

/-- The stream bits of a V2 form, least significant first (R92, R195). -/
def asmV2Bits : AsmBits → List Bool
  | .pfx u => encodeUnary u
  | .bits n v => wordBits v n

/-- The value of up to eight stream bits, the first in bit 0. -/
def bitsValue : List Bool → Nat
  | [] => 0
  | b :: bs => b.toNat + 2 * bitsValue bs

/-- Stream bits packed into `n` bytes, the first bit in bit 0 of the first byte (R54, R92). DESIGN CHOICE: bits that are not there
are zeros (assumption log 17). -/
def packBits : Nat → List Bool → List Byte
  | 0, _ => []
  | n + 1, bits => BitVec.ofNat 8 (bitsValue (bits.take 8)) :: packBits n (bits.drop 8)

/-- The bytes of a sequence of V2 forms (R92). DESIGN CHOICE: where their bits are no multiple of 8, zero bits fill the unused high
bits of the last byte, which R92 leaves open (assumption log 17). -/
def asmV2 (forms : List AsmBits) : List Byte :=
  packBits (((forms.flatMap asmV2Bits).length + 7) / 8) (forms.flatMap asmV2Bits)

/-- CARTBYTES (R90). -/
def cartBytes (bs : List Byte) : List HostAction := [.load .cart 0 bs, .set 0x04 32768]

/-- HEADER (R90). -/
def header (magic : Word) (dlen hdr6 : Half) : List HostAction :=
  [.load .cart codeBase
    [magic.extractLsb' 24 8, magic.extractLsb' 16 8, magic.extractLsb' 8 8, magic.extractLsb' 0 8,
     dlen.extractLsb' 8 8, dlen.extractLsb' 0 8, hdr6.extractLsb' 8 8, hdr6.extractLsb' 0 8]]

/-- BODY (R90, R91). -/
def body (p : Params) (ts : List AsmToken) : Option (List HostAction) :=
  match asmV1 p ts with
  | none => none
  | some bs => some [.load .cart bodyBase bs]

/-- CMD (R90): a write of the command's opcode to CMD. -/
def command (i : Instr) : Option HostAction :=
  match encode i with
  | .command op => some (.set 0x00 op.toNat)
  | .v1 _ => none
  | .v2 _ => none

end Sys2Proof.Machine
end

