-- ==== Sys2Proof/Safety.lean ====
section
/-! DEFINITION. The terms claims are stated in: what a command leaves unchanged, how it ends, the values STATUS can have
(R322), and the invariant of the machine. -/

namespace Sys2Proof.Machine

/-! ### What a command leaves unchanged, and how it ends -/

/-- Every byte of every memory reads as before. -/
def storesNothing (s t : State) : Prop := ∀ sp a, t.read sp a = s.read sp a

/-- Every byte reads as before, but for the `n` bytes of memory `sp` from address `lo`. -/
def storesOnly (s t : State) (sp : Space) (lo n : Nat) : Prop :=
  ∀ sp' a, ¬ (sp' = sp ∧ lo ≤ a ∧ a < lo + n) → t.read sp' a = s.read sp' a

/-- The command completes with this STATUS and changes nothing else (R300, R305). -/
def failsWith (i : Instr) (s : State) (st : Half) : Prop := exec i s = .next { s with status := st, phase := .idle }

/-- The thirteen commands and the reserved values: what a write to CMD can start (R72, R73). -/
def isCommand (i : Instr) : Prop := ∃ op, i = decodeCommand op

/-! ### STATUS -/

/-- "Every value a completed command can leave", and the value after power-on reset: the table of R322. -/
def legalStatus : List Half :=
  [0x0000, 0x0001,
   0x0107, 0x0207, 0x0307, 0x0407, 0x0507, 0x0607,
   0x0707, 0x0807, 0x0907, 0x0A07, 0x0B07,
   0x010B, 0x020B, 0x030B, 0x040B,
   0x050B, 0x060B, 0x070B, 0x080B,
   0x010F, 0x020F, 0x030F,
   0x0113, 0x0213]

/-! ### The invariant -/

/-- What holds of the registers and memories whenever the machine has only taken steps. -/
structure Arch.Inv (x : Arch) : Prop where
  /-- every memory keeps its canonical form, inside its size (R50) -/
  memories : ∀ sp, (x.mem sp).wf (sp.size Config.params)
  /-- no STATUS but those of R322 -/
  status : x.status ∈ legalStatus
  /-- FLAGS bits 7:4 read as 0 (R34) -/
  reserved : x.flags.extractLsb' 4 4 = 0
  /-- MLEN and MDIST are 0 when no match is held (R36) -/
  noMatch : flagMfound x.flags = false → x.mlen = 0 ∧ x.mdist = 0
  /-- a match held has a length from 1 to its distance (R223) -/
  match_le : flagMfound x.flags = true → 1 ≤ x.mlen.toNat ∧ x.mlen.toNat ≤ x.mdist.toNat
  /-- MEMIT is the emit policy (R225) -/
  emit : flagMemit x.flags = (flagMfound x.flags && emitPolicy x.mlen.toNat x.mdist.toNat)
  /-- EMPTY tells whether the Cartridge held is empty (R34, R253) -/
  empty : flagTextValid x.flags = true → flagEmpty x.flags = (x.textlen == 0)
  /-- a Cartridge held has a version (R254) -/
  version : flagTextValid x.flags = true → x.version ≠ 3
  /-- no text is longer than OUT (R95, R172) -/
  textlen : x.textlen.toNat ≤ outCap
  /-- TOKLEN is 0, or the length of a reference token (R38) -/
  toklen : x.toklen = 0 ∨ x.toklen = 3 ∨ x.toklen = 4 ∨ x.toklen = 5

/-- What holds of a decode in progress: the state it would return to meets the invariant, and its output is bounded (R172,
R200). -/
def Phase.Inv (cursor : Nat) : Phase → Prop
  | .idle => True
  | .v1 r => r.start.Inv ∧ cursor ≤ v1BodyLen ∧ 2 * r.out.length ≤ 17 * cursor
  | .v2 r _ => r.start.Inv ∧ r.out.length ≤ r.dlen.toNat

/-- The machine's invariant. -/
structure State.Inv (s : State) : Prop where
  arch : s.toArch.Inv
  phase : s.phase.Inv s.cursor

end Sys2Proof.Machine
end

