-- ==== Sys2Proof/Certificates/Slice0/Obligations.lean ====
section
/-! DEFINITION. The statements, each a rule of spec/ or what follows from some. A statement about every state holds for every
value of the OPEN parameters (R9), which no proof knows. -/

namespace Sys2Proof.Machine

/-! ### Terms of the statements -/

/-- The rows of R140's table: the range of each byte of a sequence. -/
def utf8Table : List (List (Nat × Nat)) :=
  [[(0x00, 0x7F)],
   [(0xC2, 0xDF), (0x80, 0xBF)],
   [(0xE0, 0xE0), (0xA0, 0xBF), (0x80, 0xBF)],
   [(0xE1, 0xEC), (0x80, 0xBF), (0x80, 0xBF)],
   [(0xED, 0xED), (0x80, 0x9F), (0x80, 0xBF)],
   [(0xEE, 0xEF), (0x80, 0xBF), (0x80, 0xBF)],
   [(0xF0, 0xF0), (0x90, 0xBF), (0x80, 0xBF), (0x80, 0xBF)],
   [(0xF1, 0xF3), (0x80, 0xBF), (0x80, 0xBF), (0x80, 0xBF)],
   [(0xF4, 0xF4), (0x80, 0x8F), (0x80, 0xBF), (0x80, 0xBF)]]

/-- A sequence of bytes, each in its range of a row. -/
def matchesRow (row : List (Nat × Nat)) (q : List Byte) : Prop :=
  List.Forall₂ (fun r b => r.1 ≤ b.toNat ∧ b.toNat ≤ r.2) row q

/-- `x` with the registers and memories that a decoder writes put back as in `y`: what is left is the decoder's frame. -/
def restoreDecode (y x : Arch) : Arch :=
  { x with
    status := y.status, outlen := y.outlen, out := y.out, dlen := y.dlen, hdr6 := y.hdr6, cursor := y.cursor,
    bitpos := y.bitpos, mtf := y.mtf }

/-- `x` with the registers that an entry point writes on top of its decoder's put back as in `y`. -/
def restoreCartridge (y x : Arch) : Arch :=
  { restoreDecode y x with
    magic := y.magic, version := y.version, textlen := y.textlen, flags := y.flags }

/-- The text the machine holds in OUT is `t`: OUTLEN is its length and OUT its bytes. -/
def holdsText (s : State) (t : List Byte) : Prop :=
  s.outlen.toNat = t.length ∧ ∀ i (h : i < t.length), s.read .out i = t[i]

/-- The Cartridge the machine holds, as an entry point that succeeded left it (R251, R253). -/
def holdsCartridge (s : State) (v : Version) (t : List Byte) : Prop :=
  s.version = v.code ∧ s.textlen.toNat = t.length ∧ flagTextValid s.flags = true ∧
    flagEmpty s.flags = decide (t.length = 0) ∧ holdsText s t

/-- The value the classifier reads where a text starts: its first four bytes, zero-padded, big-endian (R153). -/
def leadingMagic (t : List Byte) : Word := be32 (t.getD 0 0) (t.getD 1 0) (t.getD 2 0) (t.getD 3 0)

/-- `z` is where the V0 text of the code region ends: no zero byte before it, and a zero byte or the region's end at it
(R142). -/
def v0End (x : Arch) (z : Nat) : Prop :=
  z ≤ codeLen ∧ (∀ i, i < z → x.read .cart (codeBase + i) ≠ 0) ∧
    (z = codeLen ∨ x.read .cart (codeBase + z) = 0)

/-- The table bytes CART[0x4308..0x4408] are a permutation of 0..255: no value appears twice (R192). -/
def tableIsPermutation (x : Arch) : Prop :=
  ∀ i j, i < j → j < 256 → x.read .cart (0x4308 + i) ≠ x.read .cart (0x4308 + j)

/-- The text the decoder selected by the magic makes of CART, when it raises no error: for V0 that of R142, for V1 and V2 the
output of the loops of R161 and R199; valid UTF-8 in each case. -/
def selectedText (x : Arch) (text : List Byte) : Prop :=
  validUtf8 text = true ∧
    match classify Config.params x.magicField with
    | .v0 => v0End x text.length ∧ text = x.bytes .cart 0x4300 text.length
    | .v1 => ∃ c, v1Loop Config.params x x.dlenField 15608 { cursor := 0, out := [] } = .ok ⟨c, text⟩
    | .v2 => 264 ≤ x.hdr6Field.toNat ∧ x.hdr6Field.toNat ≤ 15616 ∧ tableIsPermutation x ∧
        ∃ b m, v2Loop Config.params x (8 * (x.hdr6Field.toNat - 264)) x.dlenField (8 * (x.hdr6Field.toNat - 264))
          { bitpos := 0, mtf := x.mtfField, out := [] } = .ok ⟨b, m, text⟩

/-- The STATUS of a decode whose loop ends as `res`, where that is an error: UTF8 when the loop's output is not valid
UTF-8, else the loop's own error (R168, R199, R309). -/
def loopFailure {α : Type} (out : α → List Byte) (res : Except Err α) (st : Half) : Prop :=
  (∃ d, res = .ok d ∧ validUtf8 (out d) = false ∧ st = 0x020B) ∨ ∃ e, res = .error e ∧ st = e.status

/-- The STATUS with which the decoder selected by the magic fails on CART: for V0 that of R142, for V1 and V2 those of R161
and R199, the checks of the V2 header first (R251). -/
def selectedFailure (x : Arch) (st : Half) : Prop :=
  match classify Config.params x.magicField with
  | .v0 => ∃ z, v0End x z ∧ validUtf8 (x.bytes .cart 0x4300 z) = false ∧ st = 0x020B
  | .v1 => loopFailure V1State.out (v1Loop Config.params x x.dlenField 15608 { cursor := 0, out := [] }) st
  | .v2 =>
    ((x.hdr6Field.toNat < 264 ∨ 15616 < x.hdr6Field.toNat) ∧ st = 0x0507) ∨
    (264 ≤ x.hdr6Field.toNat ∧ x.hdr6Field.toNat ≤ 15616 ∧ ¬ tableIsPermutation x ∧ st = 0x0607) ∨
    (264 ≤ x.hdr6Field.toNat ∧ x.hdr6Field.toNat ≤ 15616 ∧ tableIsPermutation x ∧
      loopFailure V2State.out
        (v2Loop Config.params x (8 * (x.hdr6Field.toNat - 264)) x.dlenField (8 * (x.hdr6Field.toNat - 264))
          { bitpos := 0, mtf := x.mtfField, out := [] }) st)

/-- One step stores these bytes from address `a` of memory `sp` and nothing else, and takes the host's action off the
list. -/
def stepStores (s : State) (sp : Space) (a : Nat) (bs : List Byte) (rest : List HostAction) : Prop :=
  ∃ t, step s = .next t ∧ (∀ i (h : i < bs.length), t.read sp (a + i) = bs[i]) ∧ storesOnly s t sp a bs.length ∧
    { t.toArch with cart := s.cart, pix := s.pix, out := s.out, mbuf := s.mbuf, tok := s.tok } = s.toArch ∧
    t.phase = .idle ∧ t.host = rest

/-- The state a whole image is decoded from: CART as the first 32768 pixels carry it, CARTLEN the pixel count (R252). -/
def imageCartridge (s : State) : Arch :=
  { s.toArch.write .cart 0 ((List.range 32768).map fun k =>
      chanByte (s.read .pix (4 * k)) (s.read .pix (4 * k + 1)) (s.read .pix (4 * k + 2)) (s.read .pix (4 * k + 3))) with
    cartlen := BitVec.ofNat 32 (s.pixlen.toNat / 4) }

end Sys2Proof.Machine

open Sys2Proof Sys2Proof.Machine

/-! ### Encodings -/

/-- Decoding an encoded well-formed instruction gives it back, with every operand at every value. -/
def Obligations.DecodeOfEncodeIsIdentity : Prop :=
  ∀ i : Instr, i.wellFormed = true → decode (encode i) = .ok i

/-- An encoded form that decodes to an instruction is the one encoding of it, and the instruction is well-formed. -/
def Obligations.EncodingsAreUnique : Prop :=
  ∀ (c : Code) (i : Instr), decode c = .ok i → encode i = c ∧ i.wellFormed = true

/-- R72's opcode map and R73's reserved values. -/
def Obligations.CommandMapIsTheTable : Prop :=
  ([0x00, 0x01, 0x02, 0x03, 0x04, 0x05, 0x06, 0x07, 0x08, 0x09, 0x0A, 0x0B, 0x0C] : List Byte).map decodeCommand =
      [.nop, .extract, .pack, .classify, .decodeV0, .decodeV1, .decodeV2, .decodeBytes, .decodeImage, .find, .encodeRef,
        .encode, .softReset] ∧
    ∀ op : Byte, 0x0D ≤ op.toNat → decodeCommand op = .illegalCmd op

/-- R79: the first byte of a V1 token alone decides the token and its length. -/
def Obligations.FirstByteDecidesV1Token : Prop :=
  ∀ (n : Byte) (rest : List Byte),
    (n.toNat = 0 → ∀ b, decodeV1Token (n :: b :: rest) = .ok (.lit b, rest)) ∧
    (1 ≤ n.toNat → n.toNat ≤ 0x3B →
      ∃ i : Fin 59, i.val = n.toNat - 1 ∧ decodeV1Token (n :: rest) = .ok (.tab i, rest)) ∧
    (0x3C ≤ n.toNat → ∀ m : Byte, ∃ (row : Fin 196) (h l : BitVec 4),
      row.val = n.toNat - 0x3C ∧ h.toNat = m.toNat / 16 ∧ l.toNat = m.toNat % 16 ∧
        decodeV1Token (n :: m :: rest) = .ok (.bref row h l, rest)) ∧
    ((n.toNat = 0 ∨ 0x3C ≤ n.toNat) → decodeV1Token [n] = .error .v1Truncated)

/-- R83: with V1_NIBBLES = DOC, every distance in 0..3135 with every length in 2..17 has exactly one encoding, the one the
rule gives, and no encoding goes outside those ranges. -/
def Obligations.BrefOperandsHaveOneEncoding : Prop :=
  (∀ (row : Fin 196) (h l : BitVec 4), brefDistance .doc row h l ≤ 3135 ∧
    2 ≤ brefLength .doc h l ∧ brefLength .doc h l ≤ 17) ∧
  ∀ distance length : Nat, distance ≤ 3135 → 2 ≤ length → length ≤ 17 →
    ∀ (row : Fin 196) (h l : BitVec 4),
      (brefDistance .doc row h l = distance ∧ brefLength .doc h l = length) ↔
        (0x3C + row.val = 0x3C + distance / 16 ∧ h.toNat = distance % 16 ∧ l.toNat = length - 2)

/-- Words written out from the spec's encodings decode to the instructions they stand for. -/
def Obligations.SpelledWordsDecode : Prop :=
  decode (.command 0x07) = .ok .decodeBytes ∧
    decode (.command 0x0B) = .ok .encode ∧
    decode (.command 0x7F) = .ok (.illegalCmd 0x7F) ∧
    decode (.v1 [0x00, 0x41]) = .ok (.lit 0x41) ∧
    decode (.v1 [0x3B]) = .ok (.tab 58) ∧
    decode (.v1 [0x3D, 0x05]) = .ok (.bref 1 0 5) ∧
    decode (.v2 [true, true, true, false]) = .ok (.v2Token 3)

/-- R195: `read_bits(w)` takes w bits, the first read being bit 0 of the value; it fails only for want of bits. -/
def Obligations.ReadBitsIsLsbFirst : Prop :=
  ∀ (w : Nat) (bits : List Bool),
    (bits.length < w → readBits w bits = none) ∧
    (w ≤ bits.length → ∃ v, readBits w bits = some (v, bits.drop w) ∧ v < 2 ^ w ∧
      ∀ j (h : j < bits.length), j < w → v.testBit j = bits[j])

/-- R196: `read_unary()` counts the one-bits before the first zero, which it consumes, and fails exactly on a run of
one-bits that reaches the end of the stream. -/
def Obligations.ReadUnaryCountsOnes : Prop :=
  ∀ bits : List Bool,
    (∀ u rest, readUnary bits = some (u, rest) ↔ bits = List.replicate u true ++ false :: rest) ∧
    (readUnary bits = none ↔ ∀ b ∈ bits, b = true)

/-- R54: bit k of the stream is bit (k mod 8) of CART[0x4408 + k div 8], for as many bits as the stream has. -/
def Obligations.StreamBitsAreLsbFirst : Prop :=
  ∀ (x : Arch) (nbits pos : Nat), (x.restBits nbits pos).length = nbits - pos ∧
    ∀ k (h : k < (x.restBits nbits pos).length),
      (x.restBits nbits pos)[k] = (x.read .cart (0x4408 + (pos + k) / 8)).getLsbD ((pos + k) % 8)

/-- R140: `valid_utf8(s)` holds exactly when s is a concatenation of sequences of the table. -/
def Obligations.ValidUtf8IsTheTable : Prop :=
  ∀ s : List Byte, validUtf8 s = true ↔
    ∃ qs : List (List Byte), s = qs.flatten ∧ ∀ q ∈ qs, ∃ row ∈ utf8Table, matchesRow row q

/-! ### The channel extractor -/

/-- R111: the lanes of a pixel. R carries cartridge bits 5:4, G bits 3:2, B bits 1:0, A bits 7:6; storing a byte keeps
bits 7:2 of every channel. -/
def Obligations.PixelLanesAreIndependent : Prop :=
  ∀ r g b a v : Byte,
    (chanByte r g b a).extractLsb' 4 2 = r.extractLsb' 0 2 ∧
    (chanByte r g b a).extractLsb' 2 2 = g.extractLsb' 0 2 ∧
    (chanByte r g b a).extractLsb' 0 2 = b.extractLsb' 0 2 ∧
    (chanByte r g b a).extractLsb' 6 2 = a.extractLsb' 0 2 ∧
    ∃ r' g' b' a', chanPut r g b a v = [r', g', b', a'] ∧ chanByte r' g' b' a' = v ∧
      r'.extractLsb' 2 6 = r.extractLsb' 2 6 ∧ g'.extractLsb' 2 6 = g.extractLsb' 2 6 ∧
      b'.extractLsb' 2 6 = b.extractLsb' 2 6 ∧ a'.extractLsb' 2 6 = a.extractLsb' 2 6

/-- EXTRACT completes where R102's checks pass: cartridge byte k is what pixel k carries, for the first 32768 pixels;
CARTLEN is NPIX; nothing else changes. That the
internal CURSOR, BITPOS and MTF stay is the model's reading (assumption log 5). -/
def Obligations.ExtractCompletes : Prop :=
  ∀ s : State, s.bpp = 4 → s.pixlen.toNat ≤ Config.params.pixCap → s.pixlen.toNat % 4 = 0 →
    ∃ t, exec .extract s = .next t ∧ t.status = 0x0001 ∧ t.cartlen.toNat = s.pixlen.toNat / 4 ∧
      (∀ k, k < min (s.pixlen.toNat / 4) 32768 →
        t.read .cart k = chanByte (s.read .pix (4 * k)) (s.read .pix (4 * k + 1)) (s.read .pix (4 * k + 2))
          (s.read .pix (4 * k + 3))) ∧
      storesOnly s t .cart 0 (min (s.pixlen.toNat / 4) 32768) ∧
      { t.toArch with status := s.status, cartlen := s.cartlen, cart := s.cart } = s.toArch ∧
      t.phase = .idle ∧ t.host = s.host

/-- R104, R106, R105: the first failing check of the pixel operands, in that order, in EXTRACT, PACK and DECODE_IMAGE, and
in ENCODE when it is asked for V0. -/
def Obligations.PixelChecksInOrder : Prop :=
  ∀ (s : State) (i : Instr), (i = .extract ∨ i = .pack ∨ i = .decodeImage ∨ (i = .encode ∧ s.encSel = 0)) →
    (s.bpp ≠ 4 ∨ Config.params.pixCap < s.pixlen.toNat ∨ s.pixlen.toNat % 4 ≠ 0) →
    failsWith i s
      (if s.bpp ≠ 4 then 0x0107 else if Config.params.pixCap < s.pixlen.toNat then 0x0307 else 0x0207)

/-- PACK completes where R107's checks pass: the four bytes of each of the first 32768 pixels become those of `chan_put`;
nothing else changes (R108). That the
internal CURSOR, BITPOS and MTF stay is the model's reading (assumption log 5). -/
def Obligations.PackCompletes : Prop :=
  ∀ s : State, s.bpp = 4 → s.pixlen.toNat ≤ Config.params.pixCap → s.pixlen.toNat % 4 = 0 →
    32768 ≤ s.pixlen.toNat / 4 →
    ∃ t, exec .pack s = .next t ∧ t.status = 0x0001 ∧
      (∀ k, k < 32768 → [t.read .pix (4 * k), t.read .pix (4 * k + 1), t.read .pix (4 * k + 2), t.read .pix (4 * k + 3)] =
        chanPut (s.read .pix (4 * k)) (s.read .pix (4 * k + 1)) (s.read .pix (4 * k + 2)) (s.read .pix (4 * k + 3))
          (s.read .cart k)) ∧
      storesOnly s t .pix 0 131072 ∧
      { t.toArch with status := s.status, pix := s.pix } = s.toArch ∧ t.phase = .idle ∧ t.host = s.host

/-- R109 and R252: an image of fewer than 32768 whole pixels is too short for PACK and for ENCODE of V0, and holds no
cartridge for DECODE_IMAGE, which leaves CART and CARTLEN as they were. -/
def Obligations.SmallImagesFail : Prop :=
  ∀ s : State, s.bpp = 4 → s.pixlen.toNat ≤ Config.params.pixCap → s.pixlen.toNat % 4 = 0 →
    s.pixlen.toNat / 4 < 32768 →
    failsWith .pack s 0x0407 ∧ (s.encSel = 0 → failsWith .encode s 0x0407) ∧ failsWith .decodeImage s 0x010B

/-- R106 for every value of the OPEN parameter PIX_CAP, and R153 for every value of MAGIC_V1 and MAGIC_V2: the capacity
check comes right after the BPP check, and a text that would be read back as V1 or V2 is refused. -/
def Obligations.ChecksOfEveryOpenParameter : Prop :=
  ∀ (p : Params) (x : Arch), x.bpp = 4 →
    (p.pixCap < x.pixlen.toNat →
      extract p x = .error .pixlenCap ∧ pack p x = .error .pixlenCap ∧ decodeImage p x = .error .pixlenCap ∧
        (x.encSel = 0 → encodeText p x = .error .pixlenCap)) ∧
    (x.pixlen.toNat ≤ p.pixCap → x.encSel = 0 → x.pixlen.toNat % 4 = 0 → 32768 ≤ x.pixlen.toNat / 4 →
      x.outlen.toNat ≤ 15616 → validUtf8 (x.bytes .out 0 x.outlen.toNat) = true →
      0 ∉ x.bytes .out 0 x.outlen.toNat →
      (leadingMagic (x.bytes .out 0 x.outlen.toNat) = p.magicV1 ∨
        leadingMagic (x.bytes .out 0 x.outlen.toNat) = p.magicV2) →
      encodeText p x = .error .encMagic)

/-- R110: on an image of at least 32768 whole pixels, EXTRACT then PACK leaves every byte of PIX as it was, and PACK then
EXTRACT leaves CART[0..32768] as it was. -/
def Obligations.ExtractPackRoundTrip : Prop :=
  ∀ s : State, s.bpp = 4 → s.pixlen.toNat ≤ Config.params.pixCap → s.pixlen.toNat % 4 = 0 →
    32768 ≤ s.pixlen.toNat / 4 →
    (∃ t u, exec .extract s = .next t ∧ exec .pack t = .next u ∧ u.status = 0x0001 ∧
      ∀ a, u.read .pix a = s.read .pix a) ∧
    (∃ t u, exec .pack s = .next t ∧ exec .extract t = .next u ∧ u.status = 0x0001 ∧
      ∀ a, a < 32768 → u.read .cart a = s.read .cart a)

/-! ### The classifier -/

/-- R120, R122: the classification of every magic value. -/
def Obligations.ClassifyIsTotal : Prop :=
  ∀ (p : Params) (m : Word),
    (classify p m = .v1 ↔ m = p.magicV1) ∧ (classify p m = .v2 ↔ m = p.magicV2) ∧
    (m ≠ p.magicV1 → m ≠ p.magicV2 → classify p m = .v0) ∧ classify p 0 = .v0

/-- CLASSIFY completes in every state, whatever CARTLEN says (R124): the header fields, big-endian, and the version of the
magic; nothing else changes. That the
internal CURSOR, BITPOS and MTF stay is the model's reading (assumption log 5). -/
def Obligations.ClassifyCompletes : Prop :=
  ∀ s : State, ∃ t, exec .classify s = .next t ∧ t.status = 0x0001 ∧
    t.magic.toNat = (s.read .cart 0x4300).toNat * 2 ^ 24 + (s.read .cart 0x4301).toNat * 2 ^ 16 +
      (s.read .cart 0x4302).toNat * 2 ^ 8 + (s.read .cart 0x4303).toNat ∧
    t.version = (if t.magic = Config.params.magicV1 then 1 else if t.magic = Config.params.magicV2 then 2 else 0) ∧
    t.dlen.toNat = (s.read .cart 0x4304).toNat * 256 + (s.read .cart 0x4305).toNat ∧
    t.hdr6.toNat = (s.read .cart 0x4306).toNat * 256 + (s.read .cart 0x4307).toNat ∧
    storesNothing s t ∧
    { t.toArch with status := s.status, magic := s.magic, version := s.version, dlen := s.dlen, hdr6 := s.hdr6 } =
      s.toArch ∧
    t.phase = .idle ∧ t.host = s.host

/-! ### The decoders' shared checks -/

/-- R303, SHORT_CART: every decoder of a byte array fails on one shorter than 32768 bytes, before anything is read. -/
def Obligations.ShortCartFails : Prop :=
  ∀ (s : State) (i : Instr), (i = .decodeV0 ∨ i = .decodeV1 ∨ i = .decodeV2 ∨ i = .decodeBytes) →
    s.cartlen.toNat < 32768 → failsWith i s 0x010B

/-! ### V0 -/

/-- DECODE_V0 completes where the bytes before the region's first zero are valid UTF-8 (R142, R143): they become the text and
nothing else changes. Where they are not, it fails.
Bytes of OUT past the text keep what was written last (the model's reading: assumption log 4). That the
internal CURSOR, BITPOS and MTF stay is the model's reading (assumption log 5). -/
def Obligations.DecodeV0Completes : Prop :=
  ∀ (s : State) (z : Nat), 32768 ≤ s.cartlen.toNat → v0End s.toArch z →
    (validUtf8 (s.bytes .cart 0x4300 z) = true →
      ∃ t, exec .decodeV0 s = .next t ∧ t.status = 0x0001 ∧ holdsText t (s.bytes .cart 0x4300 z) ∧
        storesOnly s t .out 0 z ∧
        { t.toArch with status := s.status, outlen := s.outlen, out := s.out } = s.toArch ∧
        t.phase = .idle ∧ t.host = s.host) ∧
    (validUtf8 (s.bytes .cart 0x4300 z) = false → failsWith .decodeV0 s 0x020B)

/-- R145: bytes after the terminator do not affect the result.
Bytes of OUT past the text keep what was written last (the model's reading: assumption log 4). -/
def Obligations.BytesAfterTerminatorDoNotMatter : Prop :=
  ∀ (s s' : State) (z : Nat), z < 15616 → s.read .cart (0x4300 + z) = 0 →
    (∀ a, a ≤ 0x4300 + z → s'.read .cart a = s.read .cart a) → s'.cartlen = s.cartlen → s'.out = s.out →
    ∃ t t', exec .decodeV0 s = .next t ∧ exec .decodeV0 s' = .next t' ∧ (t'.status = t.status) ∧
      (t.status = 0x0001 → t'.outlen = t.outlen ∧ t'.out = t.out)

/-! ### V1 -/

/-- LIT completes in every V1 decode in progress (R163): the literal byte at the end of OUT, CURSOR on by 2; nothing else
changes. -/
def Obligations.LitCompletes : Prop :=
  ∀ (s : State) (r : Run) (b : Byte), s.phase = .v1 r →
    exec (.lit b) s = .next { s with cursor := s.cursor + 2, phase := .v1 { r with out := r.out ++ [b] } }

/-- TAB completes in every V1 decode in progress (R164): the table's byte at the end of OUT, CURSOR on by 1; nothing else
changes. -/
def Obligations.TabCompletes : Prop :=
  ∀ (s : State) (r : Run) (k : Fin 59), s.phase = .v1 r →
    exec (.tab k) s =
      .next { s with
              cursor := s.cursor + 1
              phase := .v1 { r with out := r.out ++ [Config.params.oldLookup[k]] } }

/-- BREF completes in every V1 decode in progress where its copy lies within the bytes already emitted (R165): `length`
bytes from `distance` before the end, CURSOR on by 2; nothing else changes (R167). -/
def Obligations.BrefCompletes : Prop :=
  ∀ (s : State) (r : Run) (row : Fin 196) (h l : BitVec 4) (distance length : Nat), s.phase = .v1 r →
    distance = row.val * 16 + (if Config.params.v1Nibbles = .doc then h.toNat else l.toNat) →
    length = (if Config.params.v1Nibbles = .doc then l.toNat else h.toNat) + 2 →
    distance ≤ r.out.length → length ≤ distance →
    ∃ out', exec (.bref row h l) s = .next { s with cursor := s.cursor + 2, phase := .v1 { r with out := out' } } ∧
      out'.length = r.out.length + length ∧ out'.take r.out.length = r.out ∧
      ∀ j, j < length → out'[r.out.length + j]? = r.out[r.out.length - distance + j]?

/-- R166: a BREF whose copy does not lie within the bytes already emitted fails, and the state returns to that at the
command's start but for STATUS (R305). -/
def Obligations.BrefOutOfRangeFails : Prop :=
  ∀ (s : State) (r : Run) (row : Fin 196) (h l : BitVec 4) (distance length : Nat), s.phase = .v1 r →
    distance = row.val * 16 + (if Config.params.v1Nibbles = .doc then h.toNat else l.toNat) →
    length = (if Config.params.v1Nibbles = .doc then l.toNat else h.toNat) + 2 →
    (r.out.length < distance ∨ distance < length) →
    exec (.bref row h l) s = .next { s with toArch := { r.start with status := 0x040B }, phase := .idle }

/-- R162: inside a V1 decode, a token whose first or second byte would lie at or past 0x8000 fails. That one step runs one token is
the model's own view (assumption log 8). -/
def Obligations.TruncatedV1TokenFails : Prop :=
  ∀ (s : State) (r : Run), s.phase = .v1 r →
    (0x8000 ≤ 0x4308 + s.cursor ∨
      (0x4308 + s.cursor = 0x7FFF ∧
        (s.read .cart 0x7FFF = 0 ∨ 0x3C ≤ (s.read .cart 0x7FFF).toNat))) →
    step s = .next { s with toArch := { r.start with status := 0x030B }, phase := .idle }

/-- DECODE_V1 completes where the loop of R161 ends without an error and its output is valid UTF-8: the output becomes the
text, DLEN and HDR6 the header fields; nothing else changes but the internal CURSOR, which keeps the loop's last value (the
model's reading: assumption log 5). Where the output is not valid UTF-8 it fails with UTF8 (R168), and where the loop fails,
with the loop's own error, one of the three of R309. Bytes of OUT past the text keep what was written last (the model's
reading: assumption log 4). -/
def Obligations.DecodeV1Completes : Prop :=
  ∀ s : State, 32768 ≤ s.cartlen.toNat →
    (∀ d : V1State, v1Loop Config.params s.toArch s.dlenField 15608 { cursor := 0, out := [] } = .ok d →
      validUtf8 d.out = true →
      ∃ t, exec .decodeV1 s = .next t ∧ t.status = 0x0001 ∧ holdsText t d.out ∧
        t.dlen = s.dlenField ∧ t.hdr6 = s.hdr6Field ∧ t.cursor = d.cursor ∧
        storesOnly s t .out 0 d.out.length ∧ restoreDecode s.toArch t.toArch = s.toArch ∧
        t.bitpos = s.bitpos ∧ t.mtf = s.mtf ∧ t.phase = .idle ∧ t.host = s.host) ∧
    ∀ st : Half,
      loopFailure V1State.out (v1Loop Config.params s.toArch s.dlenField 15608 { cursor := 0, out := [] }) st →
      failsWith .decodeV1 s st ∧ st ∈ ([0x020B, 0x030B, 0x040B, 0x050B] : List Half)

/-- R161 as steps: the machine, put at the loop's first token, runs one token a step and reaches, within 15609 steps, the
state that the whole command DECODE_V1 leaves, the internal CURSOR included (assumption log 5). The token steps are the
model's own view of the loop (assumption log 8). -/
def Obligations.TokenStepsComposeDecodeV1 : Prop :=
  ∀ s : State, s.phase = .idle → 32768 ≤ s.cartlen.toNat → s.dlenField ≠ 0 →
    ∃ n t, n ≤ 15609 ∧ exec .decodeV1 s = .next t ∧ Sys2Proof.core.run n (s.enterV1 .direct) = .next t

/-- R172: a V1 decode that succeeds has consumed at most 15608 stream bytes and emitted at most 132668. The count of
consumed bytes is CURSOR as the command leaves it (assumption log 5). -/
def Obligations.V1OutputIsBounded : Prop :=
  ∀ (p : Params) (x y : Arch), decodeV1 p x = .ok y → y.cursor ≤ 15608 ∧ y.outlen.toNat ≤ 132668

/-- R169: with V1_LOOP_BOUND = OUTPUT a successful decode gives exactly dlen bytes. -/
def Obligations.OutputModeIsExact : Prop :=
  ∀ (p : Params) (x y : Arch), p.v1LoopBound = .output → decodeV1 p x = .ok y → y.outlen.toNat = x.dlenField.toNat

/-- R161 with V1_LOOP_BOUND = CURSOR: a successful decode runs turns of the loop, each started before dlen, up to the first
token boundary at or past dlen, and stops there, at dlen or one byte past it; so a dlen beyond the body never decodes. The
boundary is CURSOR as the command leaves it (assumption log 5). -/
def Obligations.CursorModeEndsAtDlen : Prop :=
  ∀ (p : Params) (x y : Arch), p.v1LoopBound = .cursor → decodeV1 p x = .ok y →
    ∃ (n : Nat) (d : Nat → V1State), d 0 = { cursor := 0, out := [] } ∧
      (∀ k, k < n → (d k).cursor < x.dlenField.toNat ∧ v1Turn p x x.dlenField (d k) = .ok (d (k + 1))) ∧
      x.dlenField.toNat ≤ (d n).cursor ∧ y.cursor = (d n).cursor ∧ y.outlen.toNat = (d n).out.length ∧
      y.cursor ≤ x.dlenField.toNat + 1 ∧ x.dlenField.toNat ≤ 15608

/-! ### V2 -/

/-- R191, R192, R206: a compressed_len outside 264..15616 fails; then a table that holds a value twice fails. -/
def Obligations.V2HeaderChecksInOrder : Prop :=
  ∀ s : State, 32768 ≤ s.cartlen.toNat →
    ((s.hdr6Field.toNat < 264 ∨ 15616 < s.hdr6Field.toNat) → failsWith .decodeV2 s 0x0507) ∧
    (264 ≤ s.hdr6Field.toNat → s.hdr6Field.toNat ≤ 15616 →
      ¬ tableIsPermutation s.toArch →
      failsWith .decodeV2 s 0x0607)

/-- R198, R205: with V2_GRAMMAR = NONE and a sound header, the first token needed raises UnsupportedError; none is needed
when decompressed_len is 0, and then the decode succeeds with no output. -/
def Obligations.NoGrammarIsUnsupported : Prop :=
  ∀ (p : Params) (x : Arch), p.v2Grammar = none → 32768 ≤ x.cartlen.toNat → 264 ≤ x.hdr6Field.toNat →
    x.hdr6Field.toNat ≤ 15616 →
    tableIsPermutation x →
    (x.dlenField ≠ 0 → decodeV2 p x = .error .v2Grammar) ∧
    (x.dlenField = 0 → ∃ y, decodeV2 p x = .ok y ∧ y.outlen = 0 ∧ y.dlen = 0 ∧ y.hdr6 = x.hdr6Field)

/-- V2_TOKEN completes in every V2 decode in progress: its prefix's u + 1 bits are consumed, then V2_GRAMMAR decides (R197,
R199). It moves BITPOS past the payload, emits its bytes and replaces the table; or the command fails, with the state
returned to that at its start (R305). -/
def Obligations.V2TokenCompletes : Prop :=
  ∀ (s : State) (r : Run) (nbits u : Nat), s.phase = .v2 r nbits →
    exec (.v2Token u) s = .next
      (match Config.params.v2Grammar with
      | none => { s with toArch := { r.start with status := 0x010F }, phase := .idle }
      | some g =>
        match g.run u (s.restBits nbits (s.bitpos + (u + 1))) s.mtf r.out with
        | .truncErr => { s with toArch := { r.start with status := 0x060B }, phase := .idle }
        | .tokenErr => { s with toArch := { r.start with status := 0x070B }, phase := .idle }
        | .ok k e m =>
          { s with
            bitpos := s.bitpos + (u + 1) + k
            mtf := m
            phase := .v2 { r with out := r.out ++ e } nbits })

/-- DECODE_V2 completes where the header is sound, the loop of R199 ends without an error and its output is valid UTF-8:
the output becomes the text, DLEN and HDR6 the header fields; nothing else changes but the internal BITPOS and MTF
(assumption log 5). Where the output is not valid UTF-8 it fails with UTF8, whatever the grammar, and where the loop fails,
with the loop's own error, one of the four of R309. Bytes of OUT past the text keep what was written last (the model's
reading: assumption log 4). -/
def Obligations.DecodeV2Completes : Prop :=
  (∀ s : State, 32768 ≤ s.cartlen.toNat → 264 ≤ s.hdr6Field.toNat → s.hdr6Field.toNat ≤ 15616 →
    tableIsPermutation s.toArch →
    (∀ d : V2State,
      v2Loop Config.params s.toArch (8 * (s.hdr6Field.toNat - 264)) s.dlenField (8 * (s.hdr6Field.toNat - 264))
        { bitpos := 0, mtf := s.mtfField, out := [] } = .ok d →
      validUtf8 d.out = true →
      ∃ t, exec .decodeV2 s = .next t ∧ t.status = 0x0001 ∧ holdsText t d.out ∧
        t.outlen.toNat = s.dlenField.toNat ∧ t.dlen = s.dlenField ∧ t.hdr6 = s.hdr6Field ∧
        storesOnly s t .out 0 d.out.length ∧ restoreDecode s.toArch t.toArch = s.toArch ∧
        t.cursor = s.cursor ∧ t.phase = .idle ∧ t.host = s.host) ∧
    ∀ st : Half,
      loopFailure V2State.out
        (v2Loop Config.params s.toArch (8 * (s.hdr6Field.toNat - 264)) s.dlenField (8 * (s.hdr6Field.toNat - 264))
          { bitpos := 0, mtf := s.mtfField, out := [] }) st →
      failsWith .decodeV2 s st ∧ st ∈ ([0x010F, 0x020B, 0x060B, 0x070B, 0x080B] : List Half)) ∧
  ∀ (p : Params) (x : Arch) (d : V2State), 32768 ≤ x.cartlen.toNat → 264 ≤ x.hdr6Field.toNat →
    x.hdr6Field.toNat ≤ 15616 → tableIsPermutation x →
    v2Loop p x (8 * (x.hdr6Field.toNat - 264)) x.dlenField (8 * (x.hdr6Field.toNat - 264))
      { bitpos := 0, mtf := x.mtfField, out := [] } = .ok d →
    validUtf8 d.out = false → decodeV2 p x = .error .utf8

/-- R199 as steps: the machine, put at the loop's first token, runs one token a step and reaches the state that the whole
command DECODE_V2 leaves, the internal BITPOS and MTF included (assumption log 5). The token steps are the model's own view of
the loop (assumption log 8). -/
def Obligations.TokenStepsComposeDecodeV2 : Prop :=
  ∀ s : State, s.phase = .idle → 32768 ≤ s.cartlen.toNat → s.dlenField ≠ 0 → 264 ≤ s.hdr6Field.toNat →
    s.hdr6Field.toNat ≤ 15616 →
    tableIsPermutation s.toArch →
    ∃ n t, n ≤ 8 * (s.hdr6Field.toNat - 264) + 1 ∧ exec .decodeV2 s = .next t ∧
      Sys2Proof.core.run n (s.enterV2 .direct) = .next t

/-- R202: `mtf_take(i)` returns entry i, shifts entries 0..i-1 up by one, puts the value at index 0, and keeps the table a
permutation. -/
def Obligations.MtfTakeMovesToFront : Prop :=
  ∀ (i : Fin 256) (m : Mtf),
    (mtfTake i m).1 = m[i] ∧ (mtfTake i m).2[0] = m[i] ∧
    (∀ (j : Nat) (h : j + 1 < 256), (mtfTake i m).2[j + 1] = if j < i.val then m[j] else m[j + 1]) ∧
    (m.toList.Nodup → (mtfTake i m).2.toList.Nodup)

/-! ### The matcher -/

/-- FIND completes where MSPLIT ≤ MBUFLEN ≤ 32768 (R222): the run at the earliest position that holds C's first byte,
extended while bytes agree; MFOUND, MLEN, MDIST and MEMIT; nothing else changes. The distance is R222's for every position, also
above the 16384 that R95 and R224 (e) name (the model's reading: assumption log 14). That the internal CURSOR, BITPOS and MTF
stay is the model's reading too (assumption log 5). -/
def Obligations.FindCompletes : Prop :=
  ∀ (s : State) (S C : List Byte), s.msplit.toNat ≤ s.mbuflen.toNat → s.mbuflen.toNat ≤ 32768 →
    S = s.bytes .mbuf 0 s.msplit.toNat → C = s.bytes .mbuf s.msplit.toNat (s.mbuflen.toNat - s.msplit.toNat) →
    ∃ t, exec .find s = .next t ∧ t.status = 0x0001 ∧
      ((C = [] ∨ ∃ c C', C = c :: C' ∧ c ∉ S) →
        flagMfound t.flags = false ∧ flagMemit t.flags = false ∧ t.mlen = 0 ∧ t.mdist = 0) ∧
      (∀ p c C', C = c :: C' → p < S.length → S[p]? = some c → (∀ q, q < p → S[q]? ≠ some c) →
        flagMfound t.flags = true ∧ t.mdist.toNat = S.length - p ∧
        1 ≤ t.mlen.toNat ∧ p + t.mlen.toNat ≤ S.length ∧ t.mlen.toNat ≤ C.length ∧
        (∀ j, j < t.mlen.toNat → S[p + j]? = C[j]?) ∧
        (p + t.mlen.toNat < S.length → t.mlen.toNat < C.length → S[p + t.mlen.toNat]? ≠ C[t.mlen.toNat]?) ∧
        flagMemit t.flags = (decide (3 < t.mlen.toNat) && decide (3 < t.mdist.toNat))) ∧
      flagTextValid t.flags = flagTextValid s.flags ∧ flagEmpty t.flags = flagEmpty s.flags ∧
      t.flags.extractLsb' 4 4 = s.flags.extractLsb' 4 4 ∧ storesNothing s t ∧
      { t.toArch with status := s.status, flags := s.flags, mlen := s.mlen, mdist := s.mdist } = s.toArch ∧
      t.phase = .idle ∧ t.host = s.host

/-- R221: with MBUFLEN above 32768 or MSPLIT above MBUFLEN, FIND fails with FormatError(MBUF_RANGE) and writes nothing but
STATUS. -/
def Obligations.FindRangeCheck : Prop :=
  ∀ s : State, (32768 < s.mbuflen.toNat ∨ s.mbuflen.toNat < s.msplit.toNat) → failsWith .find s 0x0707

/-- ENCODE_REF completes in every state (R228): length, separator, distance, each field big-endian in the fewest bytes
(R87, R88); nothing else changes.
Bytes of TOK past TOKLEN keep what was written last (the model's reading: assumption log 4). That the
internal CURSOR, BITPOS and MTF stay is the model's reading (assumption log 5). -/
def Obligations.EncodeRefCompletes : Prop :=
  ∀ s : State, ∃ (t : State) (width : Nat → Nat), exec .encodeRef s = .next t ∧ t.status = 0x0001 ∧
    (∀ v, width v = if v ≤ 0xFF then 1 else 2) ∧
    t.toklen.toNat = width s.elen.toNat + 1 + width s.edist.toNat ∧
    (∀ j, j < width s.elen.toNat →
      (t.read .tok j).toNat = s.elen.toNat / 256 ^ (width s.elen.toNat - 1 - j) % 256) ∧
    t.read .tok (width s.elen.toNat) = 0x3A ∧
    (∀ j, j < width s.edist.toNat →
      (t.read .tok (width s.elen.toNat + 1 + j)).toNat =
        s.edist.toNat / 256 ^ (width s.edist.toNat - 1 - j) % 256) ∧
    storesOnly s t .tok 0 t.toklen.toNat ∧
    { t.toArch with status := s.status, toklen := s.toklen, tok := s.tok } = s.toArch ∧
    t.phase = .idle ∧ t.host = s.host

/-! ### ENCODE -/

/-- ENCODE completes where R151's checks pass: the text and zeros to the end of the code region, then every cartridge byte
into its pixel; CART[0..0x4300] and everything else stays (R154, R156). That the
pixels carry the CART bytes just written is R151's procedure, against R59 and R348 (the model's reading: assumption log 16);
that the internal CURSOR, BITPOS and MTF stay is the model's reading too (assumption log 5). -/
def Obligations.EncodeCompletes : Prop :=
  ∀ (s : State) (t : List Byte), t = s.bytes .out 0 s.outlen.toNat → s.encSel = 0 → s.bpp = 4 →
    s.pixlen.toNat ≤ Config.params.pixCap → s.pixlen.toNat % 4 = 0 → 32768 ≤ s.pixlen.toNat / 4 →
    s.outlen.toNat ≤ 15616 → validUtf8 t = true → 0 ∉ t →
    leadingMagic t ≠ Config.params.magicV1 → leadingMagic t ≠ Config.params.magicV2 →
    ∃ u, exec .encode s = .next u ∧ u.status = 0x0001 ∧
      (∀ i, i < 15616 → u.read .cart (0x4300 + i) = t.getD i 0) ∧
      (∀ a, (a < 0x4300 ∨ 0x8000 ≤ a) → u.read .cart a = s.read .cart a) ∧
      (∀ k, k < 32768 → [u.read .pix (4 * k), u.read .pix (4 * k + 1), u.read .pix (4 * k + 2), u.read .pix (4 * k + 3)] =
        chanPut (s.read .pix (4 * k)) (s.read .pix (4 * k + 1)) (s.read .pix (4 * k + 2)) (s.read .pix (4 * k + 3))
          (u.read .cart k)) ∧
      (∀ a, 131072 ≤ a → u.read .pix a = s.read .pix a) ∧
      { u.toArch with status := s.status, cart := s.cart, pix := s.pix } = s.toArch ∧
      u.phase = .idle ∧ u.host = s.host

/-- R151, R155: ENCODE checks the compression asked for before anything else. -/
def Obligations.EncodeChecksCompressionFirst : Prop :=
  ∀ s : State,
    (s.encSel = 3 → failsWith .encode s 0x0213) ∧
    (s.encSel = 1 → failsWith .encode s 0x020F) ∧
    (s.encSel = 2 → failsWith .encode s 0x030F)

/-- R152, R153: for V0 and an image that holds a cartridge, the first failing check of the text: its length, its UTF-8, its
zero bytes, its first four bytes. -/
def Obligations.EncodeChecksTextInOrder : Prop :=
  ∀ (s : State) (t : List Byte), s.encSel = 0 → s.bpp = 4 → s.pixlen.toNat ≤ Config.params.pixCap →
    s.pixlen.toNat % 4 = 0 → 32768 ≤ s.pixlen.toNat / 4 → t = s.bytes .out 0 s.outlen.toNat →
    (15616 < s.outlen.toNat ∨ validUtf8 t = false ∨ 0 ∈ t ∨ leadingMagic t = Config.params.magicV1 ∨
      leadingMagic t = Config.params.magicV2) →
    failsWith .encode s
      (if 15616 < s.outlen.toNat then 0x0807 else if validUtf8 t = false then 0x0907 else if 0 ∈ t then 0x0A07
       else 0x0B07)

/-- R157: after a successful ENCODE of a text, EXTRACT then DECODE_BYTES gives VERSION 0 and the same text. -/
def Obligations.EncodeDecodeRoundTrip : Prop :=
  ∀ (s u : State) (t : List Byte), t = s.bytes .out 0 s.outlen.toNat → exec .encode s = .next u → u.status = 0x0001 →
    ∃ v w, exec .extract u = .next v ∧ exec .decodeBytes v = .next w ∧ w.status = 0x0001 ∧ w.version = 0 ∧
      holdsText w t

/-! ### The entry points -/

/-- DECODE_BYTES completes where the decoder its magic selects does (R251): that decoder's results, and the Cartridge's
registers; everything else but the internal CURSOR, BITPOS and MTF stays. Where the selected decoder fails, DECODE_BYTES fails
with the same STATUS. Bytes of OUT past the text keep what was written last (the model's reading: assumption log 4). -/
def Obligations.DecodeBytesCompletes : Prop :=
  ∀ s : State, 32768 ≤ s.cartlen.toNat →
    (∀ text : List Byte, selectedText s.toArch text →
      ∃ t, exec .decodeBytes s = .next t ∧ t.status = 0x0001 ∧
        holdsCartridge t (classify Config.params s.magicField) text ∧
        t.magic = s.magicField ∧ t.dlen = s.dlenField ∧ t.hdr6 = s.hdr6Field ∧
        flagMfound t.flags = flagMfound s.flags ∧ flagMemit t.flags = flagMemit s.flags ∧
        t.flags.extractLsb' 4 4 = s.flags.extractLsb' 4 4 ∧
        storesOnly s t .out 0 text.length ∧ restoreCartridge s.toArch t.toArch = s.toArch ∧
        t.phase = .idle ∧ t.host = s.host) ∧
    ∀ st : Half, selectedFailure s.toArch st → failsWith .decodeBytes s st

/-- DECODE_IMAGE completes where the image holds a cartridge and the decoder its magic selects completes on what the pixels
carry (R252): CART and CARTLEN as EXTRACT leaves them, and the Cartridge as DECODE_BYTES leaves it; everything else but the
internal CURSOR, BITPOS and MTF stays. Where the selected decoder fails on what the pixels carry, DECODE_IMAGE fails with the
same STATUS, and CART and CARTLEN are as they were. Bytes of OUT past the text keep what was written last (the model's reading:
assumption log 4). -/
def Obligations.DecodeImageCompletes : Prop :=
  ∀ s : State, s.bpp = 4 → s.pixlen.toNat ≤ Config.params.pixCap → s.pixlen.toNat % 4 = 0 →
    32768 ≤ s.pixlen.toNat / 4 →
    (∀ text : List Byte, selectedText (imageCartridge s) text →
      ∃ t, exec .decodeImage s = .next t ∧ t.status = 0x0001 ∧
        holdsCartridge t (classify Config.params (imageCartridge s).magicField) text ∧
        t.magic = (imageCartridge s).magicField ∧ t.dlen = (imageCartridge s).dlenField ∧
        t.hdr6 = (imageCartridge s).hdr6Field ∧ t.cartlen.toNat = s.pixlen.toNat / 4 ∧
        (∀ a, t.read .cart a = (imageCartridge s).read .cart a) ∧
        flagMfound t.flags = flagMfound s.flags ∧ flagMemit t.flags = flagMemit s.flags ∧
        t.flags.extractLsb' 4 4 = s.flags.extractLsb' 4 4 ∧
        (∀ sp a, sp ≠ .cart → ¬ (sp = .out ∧ a < text.length) → t.read sp a = s.read sp a) ∧
        { restoreCartridge s.toArch t.toArch with cart := s.cart, cartlen := s.cartlen } = s.toArch ∧
        t.phase = .idle ∧ t.host = s.host) ∧
    ∀ st : Half, selectedFailure (imageCartridge s) st → failsWith .decodeImage s st

/-- R256 says that a second DECODE_BYTES gives the same Cartridge and STATUS; in the model it changes nothing at all. That bytes of
OUT past the text stay is the model's reading (assumption log 4), and so is that the internal CURSOR, BITPOS and MTF stay
(assumption log 5). -/
def Obligations.DecodeBytesIsIdempotent : Prop :=
  ∀ s t u : State, exec .decodeBytes s = .next t → exec .decodeBytes t = .next u → u = t

/-- R260: the direct decoders never write VERSION, MAGIC, TEXTLEN or FLAGS, nor (R60) CART or PIX. -/
def Obligations.DirectDecodersBuildNoCartridge : Prop :=
  ∀ (s t : State) (i : Instr), (i = .decodeV0 ∨ i = .decodeV1 ∨ i = .decodeV2) → exec i s = .next t →
    t.version = s.version ∧ t.magic = s.magic ∧ t.textlen = s.textlen ∧ t.flags = s.flags ∧
      ∀ a, t.read .cart a = s.read .cart a ∧ t.read .pix a = s.read .pix a

/-! ### Housekeeping, errors, reset -/

/-- NOP and the reserved values complete in every state: STATUS alone changes (R257, R259). -/
def Obligations.NopAndReservedCompletes : Prop :=
  ∀ (s : State) (op : Byte),
    exec .nop s = .next { s with status := 0x0001, phase := .idle } ∧
    exec (.illegalCmd op) s = .next { s with status := 0x0113, phase := .idle }

/-- SOFT_RESET completes in every state (R258): every register at its reset value, STATUS 0x0001, the memories kept. The
values of CURSOR, BITPOS and MTF are the model's choice (assumption log 3). -/
def Obligations.SoftResetCompletes : Prop :=
  ∀ s : State, ∃ t, exec .softReset s = .next t ∧ t.status = 0x0001 ∧ storesNothing s t ∧
    { t.toArch with
      status := 0, cart := [], pix := [], out := [], mbuf := [], tok := [] } = State.reset.toArch ∧
    t.phase = .idle ∧ t.host = s.host

/-- R305: a command that raises an error leaves every register and memory as it was when it began, but for STATUS. -/
def Obligations.FailedCommandsChangeOnlyStatus : Prop :=
  ∀ (s t : State) (i : Instr), isCommand i → exec i s = .next t → statusErrBit t.status = true →
    t = { s with status := t.status, phase := .idle }

/-- R322: no command leaves a STATUS outside the table; it leaves 0x0001 or an error's value, never 0x0000. -/
def Obligations.CommandsLeaveListedStatus : Prop :=
  ∀ (s t : State) (i : Instr), isCommand i → exec i s = .next t → t.status ∈ legalStatus ∧ t.status ≠ 0x0000

/-- R41: only EXTRACT and ENCODE write CART (and DECODE_IMAGE, whose body EXTRACT's is). Under every other command every
byte of CART reads as before. That DECODE_IMAGE writes CART is R252, which R41 does
not name (assumption log 16). -/
def Obligations.CartHasFewWriters : Prop :=
  ∀ (s t : State) (i : Instr), isCommand i → i ≠ .extract → i ≠ .encode → i ≠ .decodeImage →
    exec i s = .next t → ∀ a, t.read .cart a = s.read .cart a

/-- R340: the registers after power-on reset. -/
def Obligations.ResetRegisters : Prop :=
  (∀ reg : Byte, hostReadReg State.reset.toArch reg = if reg = 0x05 then 3 else 0) ∧
    State.reset.phase = .idle ∧ State.reset.host = []

/-- R56, R74, R90: what a host action other than a write to CMD does, as one step of the machine (the list of actions is the
model's own: assumption log 9). SET writes a register: the value mod 2^width where the host may write it, and no effect on a
read-only or unassigned one; every other register and memory stays. LOAD and FILL store their bytes and nothing else; on TOK
they have no effect. EXPECT has none. CMD and the unassigned numbers read 0. -/
def Obligations.HostRegisterAccess : Prop :=
  (∀ (s : State) (rest : List HostAction), s.phase = .idle →
    (∀ reg v, reg ≠ 0x00 → s.host = .set reg v :: rest →
      step s = .next { s with toArch := hostWriteReg s.toArch reg v, host := rest }) ∧
    (∀ sp a bs, sp ≠ .tok → a + bs.length ≤ sp.size Config.params → s.host = .load sp a bs :: rest →
      stepStores s sp a bs rest) ∧
    (∀ sp a n b, sp ≠ .tok → a + n ≤ sp.size Config.params → s.host = .fill sp a n b :: rest →
      stepStores s sp a (List.replicate n b) rest) ∧
    (∀ a bs, s.host = .load .tok a bs :: rest → step s = .next { s with host := rest }) ∧
    (∀ a n b, s.host = .fill .tok a n b :: rest → step s = .next { s with host := rest }) ∧
    (∀ reg v, s.host = .expect reg v :: rest → step s = .next { s with host := rest })) ∧
  (∀ (x : Arch) (v : Nat) (reg : Byte), reg ≠ 0x00 →
    (∀ width, (reg.toNat, width) ∈
        [(0x02, 8), (0x03, 32), (0x04, 32), (0x09, 32), (0x0C, 16), (0x0D, 16), (0x10, 16), (0x11, 16), (0x13, 2)] →
      hostReadReg (hostWriteReg x reg v) reg = v % 2 ^ width) ∧
    (reg.toNat ∉ [0x02, 0x03, 0x04, 0x09, 0x0C, 0x0D, 0x10, 0x11, 0x13] → hostWriteReg x reg v = x) ∧
    (∀ reg' : Byte, reg' ≠ reg → hostReadReg (hostWriteReg x reg v) reg' = hostReadReg x reg') ∧
    { hostWriteReg x reg v with
      bpp := x.bpp, pixlen := x.pixlen, cartlen := x.cartlen, outlen := x.outlen, msplit := x.msplit,
      mbuflen := x.mbuflen, elen := x.elen, edist := x.edist, encSel := x.encSel } = x) ∧
  ∀ (x : Arch) (reg : Byte), (reg.toNat = 0 ∨ 0x14 ≤ reg.toNat) → hostReadReg x reg = 0

/-! ### The machine -/

/-- A step runs the decoded instruction. Between commands, a write to CMD runs the command its byte decodes to. Inside a V1
decode the bytes at 0x4308 + CURSOR, inside a V2 decode the bits at BITPOS, decode to a token, and the step runs it and
then does what R161 and R199 do after a token. The list of host actions is the model's own (assumption log 9), and so is the
token-level view, in which one step runs one token; in R10 the whole command is the step (assumption log 8). -/
def Obligations.StepRunsDecodedInstruction : Prop :=
  ∀ s : State,
    (∀ v rest, s.phase = .idle → s.host = .set 0x00 v :: rest →
      step s = exec (decodeCommand (BitVec.ofNat 8 v)) { s with host := rest }) ∧
    (∀ r t rest s', s.phase = .v1 r → decodeV1Token (s.v1Window s.cursor) = .ok (t, rest) →
      exec t.toInstr s = .next s' → step s = .next (s'.v1After Config.params)) ∧
    (∀ r nbits u rest s', s.phase = .v2 r nbits → readUnary (s.restBits nbits s.bitpos) = some (u, rest) →
      exec (.v2Token u) s = .next s' → step s = .next (s'.v2After Config.params))

/-- The machine never refuses, and faults only on a host write past the end of a memory: in every state a step goes on to a
next state, or the host's next action is such a write. That such a write stops the machine is the model's choice (assumption log
10), and so are the refusals of a token outside a decode, which no step reaches (assumption log 12). -/
def Obligations.StepsNeverRefuse : Prop :=
  ∀ s : State, (∃ t, step s = .next t) ∨
    ∃ sp a, step s = .fault (.noSuchAddress sp a) ∧ s.phase = .idle ∧
      ∃ act rest, s.host = act :: rest ∧
        ((∃ bs, act = .load sp a bs ∧ sp.size Config.params < a + bs.length) ∨
          ∃ n b, act = .fill sp a n b ∧ sp.size Config.params < a + n)

/-- Every step keeps the invariant: memories in canonical form inside their sizes (R50), a STATUS of the table (R322), FLAGS as
R34, R225 and R253 have it, MLEN and MDIST as R36 and R223, a Cartridge with a version (R254), a text that fits OUT (R43,
R172), TOKLEN as R38; inside a decode the start state's invariant and the output's bound (R172, R200). The canonical form is the
model's (assumption log 2), and a decode in progress is its token-level view (assumption log 8). -/
def Obligations.StepKeepsInvariant : Prop :=
  ∀ s t : State, s.Inv → step s = .next t → t.Inv

/-- The machine after reset meets the invariant. -/
def Obligations.ResetMeetsInvariant : Prop := State.reset.Inv
end

