-- ==== Sys2Proof/Laws/State.lean ====
section
/-! SUPPORT. One lemma per field per update: what the named operations on `Arch` and `State` leave in each field. -/

namespace Sys2Proof.Machine

variable (x : Arch) (s : State) (r : Run) (sp : Space) (m : Memory) (a : Nat) (bs : List Byte) (e : Err)

/-! ### Memories -/

@[simp] theorem mem_setMem : (x.setMem sp m).mem sp = m := by cases sp <;> rfl

theorem mem_setMem_ne {sp' : Space} (h : sp' ≠ sp) : (x.setMem sp m).mem sp' = x.mem sp' := by
  cases sp <;> cases sp' <;> first | rfl | exact absurd rfl h

@[simp] theorem mem_write : (x.write sp a bs).mem sp = (x.mem sp).writeRange a bs := mem_setMem ..

theorem mem_write_ne {sp' : Space} (h : sp' ≠ sp) : (x.write sp a bs).mem sp' = x.mem sp' := mem_setMem_ne _ _ _ h

@[simp] theorem write_status : (x.write sp a bs).status = x.status := by cases sp <;> rfl
@[simp] theorem write_bpp : (x.write sp a bs).bpp = x.bpp := by cases sp <;> rfl
@[simp] theorem write_pixlen : (x.write sp a bs).pixlen = x.pixlen := by cases sp <;> rfl
@[simp] theorem write_cartlen : (x.write sp a bs).cartlen = x.cartlen := by cases sp <;> rfl
@[simp] theorem write_version : (x.write sp a bs).version = x.version := by cases sp <;> rfl
@[simp] theorem write_magic : (x.write sp a bs).magic = x.magic := by cases sp <;> rfl
@[simp] theorem write_dlen : (x.write sp a bs).dlen = x.dlen := by cases sp <;> rfl
@[simp] theorem write_hdr6 : (x.write sp a bs).hdr6 = x.hdr6 := by cases sp <;> rfl
@[simp] theorem write_outlen : (x.write sp a bs).outlen = x.outlen := by cases sp <;> rfl
@[simp] theorem write_textlen : (x.write sp a bs).textlen = x.textlen := by cases sp <;> rfl
@[simp] theorem write_flags : (x.write sp a bs).flags = x.flags := by cases sp <;> rfl
@[simp] theorem write_msplit : (x.write sp a bs).msplit = x.msplit := by cases sp <;> rfl
@[simp] theorem write_mbuflen : (x.write sp a bs).mbuflen = x.mbuflen := by cases sp <;> rfl
@[simp] theorem write_mlen : (x.write sp a bs).mlen = x.mlen := by cases sp <;> rfl
@[simp] theorem write_mdist : (x.write sp a bs).mdist = x.mdist := by cases sp <;> rfl
@[simp] theorem write_elen : (x.write sp a bs).elen = x.elen := by cases sp <;> rfl
@[simp] theorem write_edist : (x.write sp a bs).edist = x.edist := by cases sp <;> rfl
@[simp] theorem write_toklen : (x.write sp a bs).toklen = x.toklen := by cases sp <;> rfl
@[simp] theorem write_encSel : (x.write sp a bs).encSel = x.encSel := by cases sp <;> rfl
@[simp] theorem write_cursor : (x.write sp a bs).cursor = x.cursor := by cases sp <;> rfl
@[simp] theorem write_bitpos : (x.write sp a bs).bitpos = x.bitpos := by cases sp <;> rfl
@[simp] theorem write_mtf : (x.write sp a bs).mtf = x.mtf := by cases sp <;> rfl

@[simp] theorem mem_cart : x.mem .cart = x.cart := rfl
@[simp] theorem mem_pix : x.mem .pix = x.pix := rfl
@[simp] theorem mem_out : x.mem .out = x.out := rfl
@[simp] theorem mem_mbuf : x.mem .mbuf = x.mbuf := rfl
@[simp] theorem mem_tok : x.mem .tok = x.tok := rfl

@[simp] theorem write_cart_cart : (x.write .cart a bs).cart = x.cart.writeRange a bs := rfl
@[simp] theorem write_cart_pix : (x.write .cart a bs).pix = x.pix := rfl
@[simp] theorem write_cart_out : (x.write .cart a bs).out = x.out := rfl
@[simp] theorem write_cart_mbuf : (x.write .cart a bs).mbuf = x.mbuf := rfl
@[simp] theorem write_cart_tok : (x.write .cart a bs).tok = x.tok := rfl
@[simp] theorem write_pix_cart : (x.write .pix a bs).cart = x.cart := rfl
@[simp] theorem write_pix_pix : (x.write .pix a bs).pix = x.pix.writeRange a bs := rfl
@[simp] theorem write_pix_out : (x.write .pix a bs).out = x.out := rfl
@[simp] theorem write_pix_mbuf : (x.write .pix a bs).mbuf = x.mbuf := rfl
@[simp] theorem write_pix_tok : (x.write .pix a bs).tok = x.tok := rfl
@[simp] theorem write_out_cart : (x.write .out a bs).cart = x.cart := rfl
@[simp] theorem write_out_pix : (x.write .out a bs).pix = x.pix := rfl
@[simp] theorem write_out_out : (x.write .out a bs).out = x.out.writeRange a bs := rfl
@[simp] theorem write_out_mbuf : (x.write .out a bs).mbuf = x.mbuf := rfl
@[simp] theorem write_out_tok : (x.write .out a bs).tok = x.tok := rfl
@[simp] theorem write_mbuf_cart : (x.write .mbuf a bs).cart = x.cart := rfl
@[simp] theorem write_mbuf_pix : (x.write .mbuf a bs).pix = x.pix := rfl
@[simp] theorem write_mbuf_out : (x.write .mbuf a bs).out = x.out := rfl
@[simp] theorem write_mbuf_mbuf : (x.write .mbuf a bs).mbuf = x.mbuf.writeRange a bs := rfl
@[simp] theorem write_mbuf_tok : (x.write .mbuf a bs).tok = x.tok := rfl
@[simp] theorem write_tok_cart : (x.write .tok a bs).cart = x.cart := rfl
@[simp] theorem write_tok_pix : (x.write .tok a bs).pix = x.pix := rfl
@[simp] theorem write_tok_out : (x.write .tok a bs).out = x.out := rfl
@[simp] theorem write_tok_mbuf : (x.write .tok a bs).mbuf = x.mbuf := rfl
@[simp] theorem write_tok_tok : (x.write .tok a bs).tok = x.tok.writeRange a bs := rfl

/-! ### Text results -/

@[simp] theorem setText_outlen : (x.setText bs).outlen = BitVec.ofNat 32 bs.length := rfl
@[simp] theorem setText_out : (x.setText bs).out = x.out.writeRange 0 bs := rfl
@[simp] theorem setText_status : (x.setText bs).status = x.status := rfl
@[simp] theorem setText_bpp : (x.setText bs).bpp = x.bpp := rfl
@[simp] theorem setText_pixlen : (x.setText bs).pixlen = x.pixlen := rfl
@[simp] theorem setText_cartlen : (x.setText bs).cartlen = x.cartlen := rfl
@[simp] theorem setText_version : (x.setText bs).version = x.version := rfl
@[simp] theorem setText_magic : (x.setText bs).magic = x.magic := rfl
@[simp] theorem setText_dlen : (x.setText bs).dlen = x.dlen := rfl
@[simp] theorem setText_hdr6 : (x.setText bs).hdr6 = x.hdr6 := rfl
@[simp] theorem setText_textlen : (x.setText bs).textlen = x.textlen := rfl
@[simp] theorem setText_flags : (x.setText bs).flags = x.flags := rfl
@[simp] theorem setText_msplit : (x.setText bs).msplit = x.msplit := rfl
@[simp] theorem setText_mbuflen : (x.setText bs).mbuflen = x.mbuflen := rfl
@[simp] theorem setText_mlen : (x.setText bs).mlen = x.mlen := rfl
@[simp] theorem setText_mdist : (x.setText bs).mdist = x.mdist := rfl
@[simp] theorem setText_elen : (x.setText bs).elen = x.elen := rfl
@[simp] theorem setText_edist : (x.setText bs).edist = x.edist := rfl
@[simp] theorem setText_toklen : (x.setText bs).toklen = x.toklen := rfl
@[simp] theorem setText_encSel : (x.setText bs).encSel = x.encSel := rfl
@[simp] theorem setText_cursor : (x.setText bs).cursor = x.cursor := rfl
@[simp] theorem setText_bitpos : (x.setText bs).bitpos = x.bitpos := rfl
@[simp] theorem setText_mtf : (x.setText bs).mtf = x.mtf := rfl
@[simp] theorem setText_cart : (x.setText bs).cart = x.cart := rfl
@[simp] theorem setText_pix : (x.setText bs).pix = x.pix := rfl
@[simp] theorem setText_mbuf : (x.setText bs).mbuf = x.mbuf := rfl
@[simp] theorem setText_tok : (x.setText bs).tok = x.tok := rfl

/-! ### How a command ends -/

@[simp] theorem completed_ok (y : Arch) : x.completed (.ok y) = { y with status := statusDone } := rfl
@[simp] theorem completed_error : x.completed (.error e) = { x with status := e.status } := rfl
@[simp] theorem complete_toArch (res : Except Err Arch) : (s.complete res).toArch = s.toArch.completed res := rfl
@[simp] theorem complete_phase (res : Except Err Arch) : (s.complete res).phase = .idle := rfl
@[simp] theorem complete_host (res : Except Err Arch) : (s.complete res).host = s.host := rfl
@[simp] theorem finish_toArch (res : Except Err Arch) : (s.finish r res).toArch = r.start.completed res := rfl
@[simp] theorem finish_phase (res : Except Err Arch) : (s.finish r res).phase = .idle := rfl
@[simp] theorem finish_host (res : Except Err Arch) : (s.finish r res).host = s.host := rfl
@[simp] theorem abort_toArch : (s.abort r e).toArch = { r.start with status := e.status } := rfl
@[simp] theorem abort_phase : (s.abort r e).phase = .idle := rfl
@[simp] theorem abort_host : (s.abort r e).host = s.host := rfl

/-- Everything the end of a command can do: the results with STATUS = done, or the starting state with the error's
STATUS (R305, R307). -/
theorem completed_cases (res : Except Err Arch) :
    (∃ y, res = .ok y ∧ x.completed res = { y with status := statusDone }) ∨
      ∃ e, res = .error e ∧ x.completed res = { x with status := e.status } := by
  cases res with
  | ok y => exact .inl ⟨y, rfl, rfl⟩
  | error e => exact .inr ⟨e, rfl, rfl⟩

/-! ### Frames -/

theorem write_cart_frame : x.write .cart a bs = { x with cart := (x.write .cart a bs).cart } := rfl
theorem write_pix_frame : x.write .pix a bs = { x with pix := (x.write .pix a bs).pix } := rfl
theorem write_out_frame : x.write .out a bs = { x with out := (x.write .out a bs).out } := rfl
theorem write_tok_frame : x.write .tok a bs = { x with tok := (x.write .tok a bs).tok } := rfl

theorem packBody_frame : packBody x = { x with pix := (packBody x).pix } := write_pix_frame ..

/-- ENCODE's results differ from the start in CART and PIX alone (R156). -/
theorem encodeBody_frame : encodeBody x = { x with cart := (encodeBody x).cart, pix := (encodeBody x).pix } := by
  have h1 := packBody_frame (x.write .cart codeBase (codeImage x.text))
  have h2 := write_cart_frame x codeBase (codeImage x.text)
  have h3 : encodeBody x = packBody (x.write .cart codeBase (codeImage x.text)) := rfl
  rw [← h3] at h1
  generalize encodeBody x = z at *
  generalize x.write .cart codeBase (codeImage x.text) = w at *
  rw [h1, h2]

/-- A command that raises an error: STATUS alone changes, and the engine is idle (R305). -/
theorem complete_error : s.complete (.error e) = { s with status := e.status, phase := .idle } := rfl

/-! ### FLAGS -/

@[simp] theorem flagTextValid_withCartridge (f : Byte) (b : Bool) : flagTextValid (flagsWithCartridge f b) = true := by
  revert f b; decide +kernel

@[simp] theorem flagEmpty_withCartridge (f : Byte) (b : Bool) : flagEmpty (flagsWithCartridge f b) = b := by
  revert f b; decide +kernel

@[simp] theorem flagMfound_withCartridge (f : Byte) (b : Bool) :
    flagMfound (flagsWithCartridge f b) = flagMfound f := by
  revert f b; decide +kernel

@[simp] theorem flagMemit_withCartridge (f : Byte) (b : Bool) :
    flagMemit (flagsWithCartridge f b) = flagMemit f := by
  revert f b; decide +kernel

@[simp] theorem flagMfound_withMatch (f : Byte) (b c : Bool) : flagMfound (flagsWithMatch f b c) = b := by
  revert f b c; decide +kernel

@[simp] theorem flagMemit_withMatch (f : Byte) (b c : Bool) : flagMemit (flagsWithMatch f b c) = c := by
  revert f b c; decide +kernel

@[simp] theorem flagTextValid_withMatch (f : Byte) (b c : Bool) :
    flagTextValid (flagsWithMatch f b c) = flagTextValid f := by
  revert f b c; decide +kernel

@[simp] theorem flagEmpty_withMatch (f : Byte) (b c : Bool) : flagEmpty (flagsWithMatch f b c) = flagEmpty f := by
  revert f b c; decide +kernel

@[simp] theorem withCartridge_reserved (f : Byte) (b : Bool) :
    (flagsWithCartridge f b).extractLsb' 4 4 = f.extractLsb' 4 4 := by
  revert f b; decide +kernel

@[simp] theorem withMatch_reserved (f : Byte) (b c : Bool) :
    (flagsWithMatch f b c).extractLsb' 4 4 = f.extractLsb' 4 4 := by
  revert f b c; decide +kernel

end Sys2Proof.Machine
end

