-- ==== Sys2Proof/Laws/Memory.lean ====
section
/-! SUPPORT. The laws of memory: reading after writing, the canonical form, and lists of consecutive bytes. -/

namespace Sys2Proof.Machine

/-! ### One write and the reads after it -/

theorem get?_append (m n : Memory) (a : Nat) :
    Memory.get? (m ++ n) a = (Memory.get? m a).or (Memory.get? n a) := by
  induction m with
  | nil => simp [Memory.get?]
  | cons c m ih =>
    obtain ⟨k, b⟩ := c
    by_cases h : k = a <;> simp [Memory.get?, h, ih]

theorem get?_filter (m : Memory) (q : Nat → Bool) (a : Nat) :
    Memory.get? (m.filter (fun c => q c.1)) a = if q a then Memory.get? m a else none := by
  induction m with
  | nil => simp [Memory.get?]
  | cons c m ih =>
    obtain ⟨k, b⟩ := c
    by_cases hq : q k
    · by_cases h : k = a
      · subst h; simp [Memory.get?, hq]
      · simp [Memory.get?, hq, h, ih]
    · by_cases h : k = a
      · subst h; simp [hq, ih]
      · simp [Memory.get?, hq, h, ih]

theorem get?_cellsFrom (a : Nat) (bs : List Byte) (i : Nat) :
    Memory.get? (cellsFrom a bs) i = if a ≤ i then bs[i - a]? else none := by
  induction bs generalizing a with
  | nil => simp [cellsFrom, Memory.get?]
  | cons b bs ih =>
    by_cases h : a = i
    · subst h; simp [cellsFrom, Memory.get?]
    · by_cases h2 : a + 1 ≤ i
      · have h3 : i - a = i - (a + 1) + 1 := by omega
        simp [cellsFrom, Memory.get?, h, ih, h2, show a ≤ i by omega, h3]
      · simp [cellsFrom, Memory.get?, h, ih, h2, show ¬ a ≤ i by omega]

/-- Reading an address after a write: the byte written there, or what was there before. -/
theorem get?_writeRange (m : Memory) (a : Nat) (bs : List Byte) (i : Nat) :
    (m.writeRange a bs).get? i =
      if a ≤ i ∧ i < a + bs.length then bs[i - a]? else m.get? i := by
  have h1 := get?_filter m (fun k => decide (k < a)) i
  have h2 := get?_filter m (fun k => decide (a + bs.length ≤ k)) i
  simp only [Memory.writeRange, get?_append, h1, h2, get?_cellsFrom]
  by_cases ha : i < a
  · simp [ha, show ¬ a ≤ i by omega, show ¬ a + bs.length ≤ i by omega]
  · by_cases hb : i < a + bs.length
    · simp [ha, hb, show a ≤ i by omega, show ¬ a + bs.length ≤ i by omega]
    · simp [ha, hb, show a ≤ i by omega, show a + bs.length ≤ i by omega, show bs.length ≤ i - a by omega]

theorem read_write (x : Arch) (sp : Space) (a : Nat) (bs : List Byte) (i : Nat) :
    (x.write sp a bs).read sp i =
      if h : a ≤ i ∧ i < a + bs.length then bs[i - a]'(by omega) else x.read sp i := by
  simp only [Arch.read, mem_write, get?_writeRange]
  by_cases h : a ≤ i ∧ i < a + bs.length
  · have : i - a < bs.length := by omega
    simp [h, this]
  · simp [h]

theorem read_write_ne (x : Arch) {sp sp' : Space} (h : sp' ≠ sp) (a : Nat) (bs : List Byte) (i : Nat) :
    (x.write sp a bs).read sp' i = x.read sp' i := by
  simp only [Arch.read, mem_write_ne x sp a bs h]

theorem read_write_out (x : Arch) (sp : Space) (a : Nat) (bs : List Byte) (i : Nat)
    (h : i < a ∨ a + bs.length ≤ i) : (x.write sp a bs).read sp i = x.read sp i := by
  rw [read_write, dif_neg (by omega)]

/-- Reading depends on the memories alone. -/
theorem read_congr {x y : Arch} {sp : Space} (h : x.mem sp = y.mem sp) (i : Nat) : x.read sp i = y.read sp i := by
  simp only [Arch.read, h]

/-! ### The canonical form -/

theorem cellsFrom_fst (a : Nat) (bs : List Byte) (c : Host.Cell) (h : c ∈ cellsFrom a bs) :
    a ≤ c.1 ∧ c.1 < a + bs.length := by
  induction bs generalizing a with
  | nil => simp [cellsFrom] at h
  | cons b bs ih =>
    simp only [cellsFrom, List.mem_cons] at h
    rcases h with rfl | h
    · simp
    · have := ih _ h
      simp only [List.length_cons]
      omega

theorem cellsFrom_rising (a : Nat) (bs : List Byte) : (cellsFrom a bs).Pairwise (fun c d => c.1 < d.1) := by
  induction bs generalizing a with
  | nil => exact List.Pairwise.nil
  | cons b bs ih =>
    refine List.Pairwise.cons (fun c hc => ?_) (ih (a + 1))
    have := cellsFrom_fst _ _ _ hc
    omega

/-- A write inside the memory keeps the canonical form. -/
theorem wf_writeRange {m : Memory} {size a : Nat} {bs : List Byte} (h : m.wf size) (hb : a + bs.length ≤ size) :
    (m.writeRange a bs).wf size := by
  obtain ⟨hp, hs⟩ := h
  constructor
  · simp only [Memory.writeRange, List.append_assoc]
    rw [List.pairwise_append, List.pairwise_append]
    refine ⟨hp.filter _, ⟨cellsFrom_rising a bs, hp.filter _, ?_⟩, ?_⟩
    · intro c hc d hd
      have := cellsFrom_fst _ _ _ hc
      simp only [List.mem_filter, decide_eq_true_eq] at hd
      omega
    · intro c hc d hd
      simp only [List.mem_filter, decide_eq_true_eq] at hc
      rw [List.mem_append] at hd
      rcases hd with hd | hd
      · have := cellsFrom_fst _ _ _ hd
        omega
      · simp only [List.mem_filter, decide_eq_true_eq] at hd
        omega
  · intro c hc
    simp only [Memory.writeRange, List.mem_append, List.mem_filter, decide_eq_true_eq] at hc
    rcases hc with (⟨hc, _⟩ | hc) | ⟨hc, _⟩
    · exact hs c hc
    · have := cellsFrom_fst _ _ _ hc
      omega
    · exact hs c hc

theorem wf_nil (size : Nat) : Memory.wf [] size := by simp [Memory.wf]

/-- The same bytes written twice from address 0 are written once. -/
theorem writeRange_twice (m : Memory) (bs : List Byte) : (m.writeRange 0 bs).writeRange 0 bs = m.writeRange 0 bs := by
  unfold Memory.writeRange
  have h0 : ∀ m : Memory, m.filter (fun c => decide (c.1 < 0)) = [] := by intro m; simp
  have h1 : (cellsFrom 0 bs).filter (fun c => decide (0 + bs.length ≤ c.1)) = [] := by
    rw [List.filter_eq_nil_iff]
    intro c hc
    have := cellsFrom_fst _ _ _ hc
    simp
    omega
  simp only [h0, List.nil_append, List.filter_append, h1, List.filter_filter, Bool.and_self]

/-- A write inside one memory keeps the canonical form of all five. -/
theorem write_mems_wf {p : Params} {x : Arch} (hx : ∀ sp, (x.mem sp).wf (sp.size p)) {sp : Space} {a : Nat}
    {bs : List Byte} (h : a + bs.length ≤ sp.size p) (sp' : Space) : ((x.write sp a bs).mem sp').wf (sp'.size p) := by
  by_cases e : sp' = sp
  · subst e
    rw [mem_write]
    exact wf_writeRange (hx _) h
  · rw [mem_write_ne _ _ _ _ e]
    exact hx sp'

/-! ### Consecutive bytes -/

@[simp] theorem bytes_length (x : Arch) (sp : Space) (a n : Nat) : (x.bytes sp a n).length = n :=
  Arch.bytes_length ..

theorem bytes_getElem (x : Arch) (sp : Space) (a n i : Nat) (h : i < (x.bytes sp a n).length) :
    (x.bytes sp a n)[i] = x.read sp (a + i) := by
  induction n generalizing a i with
  | zero => simp at h
  | succ n ih =>
    cases i with
    | zero => simp [Arch.bytes]
    | succ i =>
      simp only [Arch.bytes, List.getElem_cons_succ]
      rw [ih]
      congr 1
      omega

/-- Two runs of bytes that read alike are the same list. -/
theorem bytes_congr {x y : Arch} {sp : Space} {a n : Nat} (h : ∀ i, i < n → x.read sp (a + i) = y.read sp (a + i)) :
    x.bytes sp a n = y.bytes sp a n := by
  apply List.ext_getElem
  · simp
  · intro i h1 h2
    rw [bytes_getElem, bytes_getElem]
    exact h i (by simpa using h1)

/-- The bytes just written, read back. -/
theorem bytes_write (x : Arch) (sp : Space) (a : Nat) (bs : List Byte) :
    (x.write sp a bs).bytes sp a bs.length = bs := by
  apply List.ext_getElem
  · simp
  · intro i h1 h2
    rw [bytes_getElem, read_write, dif_pos (by omega)]
    congr 1
    omega

@[simp] theorem streamBits_length (x : Arch) (k n : Nat) : (x.streamBits k n).length = n := by
  induction n generalizing k with
  | zero => rfl
  | succ n ih => simp [Arch.streamBits, ih]

theorem streamBits_getElem (x : Arch) (k n i : Nat) (h : i < (x.streamBits k n).length) :
    (x.streamBits k n)[i] = x.streamBit (k + i) := by
  induction n generalizing k i with
  | zero => simp at h
  | succ n ih =>
    cases i with
    | zero => simp [Arch.streamBits]
    | succ i =>
      simp only [Arch.streamBits, List.getElem_cons_succ]
      rw [ih]
      congr 1
      omega

end Sys2Proof.Machine
end

