-- ==== Sys2Proof/Laws/Checks.lean ====
section
/-! SUPPORT. What the shared checks on register operands say when they pass. -/

namespace Sys2Proof.Machine

/-- The pixel operands pass: BPP = 4, within the capacity, whole pixels (R104..R106). -/
theorem imageCheck_eq_none {p : Params} {x : Arch} :
    imageCheck p x = none ↔ x.bpp = 4 ∧ x.pixlen.toNat ≤ p.pixCap ∧ x.pixlen.toNat % 4 = 0 := by
  unfold imageCheck
  split
  · simp_all
  · split
    · simp; omega
    · split <;> simp_all

/-- The operands of PACK pass: also one pixel per cartridge byte (R109). -/
theorem packCheck_eq_none {p : Params} {x : Arch} :
    packCheck p x = none ↔
      (x.bpp = 4 ∧ x.pixlen.toNat ≤ p.pixCap ∧ x.pixlen.toNat % 4 = 0) ∧ 32768 ≤ x.pixlen.toNat / 4 := by
  rw [← imageCheck_eq_none]
  unfold packCheck
  cases h : imageCheck p x with
  | some e => simp
  | none =>
    simp only [Arch.npix, cartSize, true_and]
    by_cases h : x.pixlen.toNat / 4 < 32768
    · simp [h]
    · simp [h]; omega

theorem shortCart_eq_false {x : Arch} : shortCart x = false ↔ 32768 ≤ x.cartlen.toNat := by
  simp [shortCart]

theorem shortCart_eq_true {x : Arch} : shortCart x = true ↔ x.cartlen.toNat < 32768 := by
  simp [shortCart]

/-- EXTRACT succeeds with the pixels' bytes and their count (R102). -/
theorem extract_ok {p : Params} {x y : Arch} (h : extract p x = .ok y) :
    imageCheck p x = none ∧
      y = { x.write .cart 0 ((List.range (min x.npix cartSize)).map (pixelByte x)) with
            cartlen := BitVec.ofNat 32 x.npix } := by
  unfold extract at h
  split at h
  · cases h
  · next hc => exact ⟨hc, by cases h; rfl⟩

/-- PACK succeeds with its loop's result (R107). -/
theorem pack_ok {p : Params} {x y : Arch} (h : pack p x = .ok y) : packCheck p x = none ∧ y = packBody x := by
  unfold pack at h
  split at h
  · cases h
  · next hc => exact ⟨hc, by cases h; rfl⟩

/-- ENCODE's checks pass (R151). -/
theorem encodeCheck_eq_none {p : Params} {x : Arch} :
    encodeCheck p x = none ↔ encSelCheck x = none ∧ packCheck p x = none ∧ textCheck p x = none := by
  unfold encodeCheck
  cases encSelCheck x <;> cases packCheck p x <;> simp

theorem encSelCheck_eq_none {x : Arch} : encSelCheck x = none ↔ x.encSel = 0 := by
  have : ∀ v : BitVec 2, (if v = 3 then some Err.encSel else if v = 1 then some .encV1 else if v = 2 then some .encV2
      else none) = none ↔ v = 0 := by decide
  exact this x.encSel

theorem textCheck_eq_none {p : Params} {x : Arch} :
    textCheck p x = none ↔ x.outlen.toNat ≤ codeLen ∧ validUtf8 x.text = true ∧ (0 : Byte) ∉ x.text ∧
      textMagic x.text ≠ p.magicV1 ∧ textMagic x.text ≠ p.magicV2 := by
  unfold textCheck
  split
  · simp; omega
  · split
    · simp_all
    · split
      · simp_all
      · split
        · next h => rcases h with h | h <;> simp_all
        · next h => simp_all

/-- ENCODE succeeds with the code region and the packed image (R151). -/
theorem encodeText_ok {p : Params} {x y : Arch} (h : encodeText p x = .ok y) :
    encodeCheck p x = none ∧ y = encodeBody x := by
  unfold encodeText at h
  split at h
  · cases h
  · next hc => exact ⟨hc, by cases h; rfl⟩

/-! ### The bytes the image commands write -/

/-- The cartridge bytes EXTRACT writes, read back. -/
theorem read_extractBytes (x : Arch) (n k : Nat) :
    (x.write .cart 0 ((List.range n).map (pixelByte x))).read .cart k =
      if k < n then pixelByte x k else x.read .cart k := by
  rw [read_write]
  by_cases h : k < n
  · simp [h]
  · simp [h]

theorem pixelWith_length (x : Arch) (k : Nat) (v : Byte) : (pixelWith x k v).length = 4 := rfl

theorem flatMap_four_length (f : Nat → List Byte) (h : ∀ k, (f k).length = 4) (n : Nat) :
    ((List.range n).flatMap f).length = 4 * n := by
  induction n with
  | zero => rfl
  | succ n ih => simp [List.range_succ, List.flatMap_append, ih, h]; omega

theorem flatMap_four_getElem? (f : Nat → List Byte) (h : ∀ k, (f k).length = 4) (n k j : Nat) (hk : k < n) (hj : j < 4) :
    ((List.range n).flatMap f)[4 * k + j]? = (f k)[j]? := by
  induction n with
  | zero => omega
  | succ n ih =>
    have hl := flatMap_four_length f h n
    rw [List.range_succ, List.flatMap_append]
    by_cases hkn : k < n
    · rw [List.getElem?_append_left (by rw [hl]; omega), ih hkn]
    · have : k = n := by omega
      subst this
      rw [List.getElem?_append_right (by rw [hl]; omega), hl]
      simp

theorem packBytes_length (x : Arch) :
    ((List.range cartSize).flatMap fun k => pixelWith x k (x.read .cart k)).length = 131072 := by
  rw [flatMap_four_length _ (fun _ => rfl), cartSize]

/-- The channel bytes PACK writes: byte `j` of pixel `k`. -/
theorem read_packBody (x : Arch) (k j : Nat) (hk : k < 32768) (hj : j < 4) :
    some ((packBody x).read .pix (4 * k + j)) = (pixelWith x k (x.read .cart k))[j]? := by
  rw [packBody, read_write, dif_pos (by rw [packBytes_length]; omega)]
  rw [← flatMap_four_getElem? (fun k => pixelWith x k (x.read .cart k)) (fun _ => rfl) cartSize k j hk hj]
  simp

theorem read_packBody_out (x : Arch) (a : Nat) (h : 131072 ≤ a) : (packBody x).read .pix a = x.read .pix a := by
  rw [packBody, read_write_out _ _ _ _ _ (by rw [packBytes_length]; omega)]

theorem read_packBody_ne (x : Arch) {sp : Space} (h : sp ≠ .pix) (a : Nat) :
    (packBody x).read sp a = x.read sp a := read_write_ne x h ..

/-! ### ENCODE's bytes -/

theorem codeImage_length {t : List Byte} (h : t.length ≤ 15616) : (codeImage t).length = 15616 := by
  simp [codeImage, codeLen]
  omega

theorem codeImage_getElem {t : List Byte} {i : Nat} (h : i < (codeImage t).length) :
    (codeImage t)[i] = t.getD i 0 := by
  simp only [codeImage, List.getElem_append, List.getElem_replicate]
  split
  · next h => simp [List.getD, h]
  · next h =>
    simp only [List.getD]
    rw [List.getElem?_eq_none (by omega)]
    rfl

/-- The code region after ENCODE: the text, then zeros (R151). -/
theorem read_encodeBody {x : Arch} (h : x.outlen.toNat ≤ 15616) {i : Nat} (hi : i < 15616) :
    (encodeBody x).read .cart (0x4300 + i) = x.text.getD i 0 := by
  have hl : (codeImage x.text).length = 15616 := codeImage_length (by simpa [Arch.text] using h)
  rw [encodeBody, read_packBody_ne _ (by simp), read_write, dif_pos (by simp only [codeBase, hl]; omega),
    codeImage_getElem, show 0x4300 + i - codeBase = i from Nat.add_sub_cancel_left ..]

/-- The cartridge outside the code region after ENCODE (R156). -/
theorem read_encodeBody_out {x : Arch} (h : x.outlen.toNat ≤ 15616) {a : Nat} (ha : a < 0x4300 ∨ 0x8000 ≤ a) :
    (encodeBody x).read .cart a = x.read .cart a := by
  have hl : (codeImage x.text).length = 15616 := codeImage_length (by simpa [Arch.text] using h)
  rw [encodeBody, read_packBody_ne _ (by simp), read_write_out _ _ _ _ _ (by simp only [codeBase, hl]; omega)]

/-! ### Big-endian fields -/

theorem be16_toNat (hi lo : Byte) : (be16 hi lo).toNat = hi.toNat * 256 + lo.toNat := by
  have h := lo.isLt
  show ((hi ++ lo : BitVec (8 + 8))).toNat = _
  rw [BitVec.toNat_append, ← Nat.shiftLeft_add_eq_or_of_lt h, Nat.shiftLeft_eq]

theorem be32_toNat (b0 b1 b2 b3 : Byte) :
    (be32 b0 b1 b2 b3).toNat = b0.toNat * 2 ^ 24 + b1.toNat * 2 ^ 16 + b2.toNat * 2 ^ 8 + b3.toNat := by
  have h1 := b1.isLt
  have h2 := b2.isLt
  have h3 := b3.isLt
  show ((b0 ++ b1 ++ b2 ++ b3 : BitVec (8 + 8 + 8 + 8))).toNat = _
  rw [BitVec.toNat_append, BitVec.toNat_append, BitVec.toNat_append, ← Nat.shiftLeft_add_eq_or_of_lt h1,
    ← Nat.shiftLeft_add_eq_or_of_lt h2, ← Nat.shiftLeft_add_eq_or_of_lt h3]
  simp only [Nat.shiftLeft_eq]
  omega

/-! ### Lanes -/

theorem chanByte_chanPut (r g b a v : Byte) :
    chanByte (putLane r (v >>> 4)) (putLane g (v >>> 2)) (putLane b v) (putLane a (v >>> 6)) = v := by
  apply BitVec.eq_of_getLsbD_eq
  intro i hi
  have : i = 0 ∨ i = 1 ∨ i = 2 ∨ i = 3 ∨ i = 4 ∨ i = 5 ∨ i = 6 ∨ i = 7 := by omega
  rcases this with rfl | rfl | rfl | rfl | rfl | rfl | rfl | rfl <;> simp [chanByte, putLane]

/-- A lane that already carries the bits of the byte is left as it is. -/
theorem putLane_self (c : Byte) : putLane c c = c := by
  revert c; decide +kernel

theorem chanPut_chanByte (r g b a : Byte) : chanPut r g b a (chanByte r g b a) = [r, g, b, a] := by
  have l : ∀ c v : Byte, v &&& 3 = c &&& 3 → putLane c v = c := fun c v h => by
    have := putLane_self c
    unfold putLane at *
    rw [h, this]
  have e : ∀ i, i < 8 → (i = 0 ∨ i = 1 ∨ i = 2 ∨ i = 3 ∨ i = 4 ∨ i = 5 ∨ i = 6 ∨ i = 7) := by omega
  simp only [chanPut]
  rw [l r, l g, l b, l a]
  all_goals
    apply BitVec.eq_of_getLsbD_eq
    intro i hi
    rcases e i hi with rfl | rfl | rfl | rfl | rfl | rfl | rfl | rfl <;> simp [chanByte]

theorem putLane_congr (c v w : Byte) (h : v &&& 3 = w &&& 3) : putLane c v = putLane c w := by
  unfold putLane
  rw [h]

end Sys2Proof.Machine
end

