-- ==== Sys2Proof/Laws/Codec.lean ====
section
/-! SUPPORT. What the decoders can do: the token decoders' inversions, one turn of each loop, the loops packaged as
inductions, the output bounds, and that a decode depends on CART's bytes alone. -/

namespace Sys2Proof.Machine

/-! ### Token decoders -/

/-- How many stream bytes a token takes (R79). -/
def v1Size : V1Token → Nat
  | .lit _ => 2
  | .tab _ => 1
  | .bref _ _ _ => 2

/-- A token that decodes was wholly there. -/
theorem decodeV1Token_length {bs rest : List Byte} {t : V1Token} (h : decodeV1Token bs = .ok (t, rest)) :
    bs.length = v1Size t + rest.length := by
  match bs with
  | [] => simp [decodeV1Token] at h
  | n :: r =>
    simp only [decodeV1Token] at h
    split at h
    · match r with
      | [] => simp at h
      | b :: r => cases h; simp [v1Size]; omega
    · split at h
      · cases h; simp [v1Size]; omega
      · match r with
        | [] => simp at h
        | m :: r => cases h; simp [v1Size]; omega

/-- `read_unary()` gives the ones before the first zero (R196). -/
theorem readUnary_eq_some {bits rest : List Bool} {u : Nat} :
    readUnary bits = some (u, rest) ↔ bits = List.replicate u true ++ false :: rest := by
  induction bits generalizing u with
  | nil => simp [readUnary]
  | cons b bits ih =>
    cases b with
    | false =>
      cases u with
      | zero => simp [readUnary, eq_comm]
      | succ u => simp [readUnary, List.replicate_succ]
    | true =>
      cases hr : readUnary bits with
      | none =>
        cases u with
        | zero => simp [readUnary, hr]
        | succ u =>
          simp only [readUnary, hr, List.replicate_succ, List.cons_append, List.cons.injEq, true_and]
          rw [← ih, hr]
          simp
      | some q =>
        obtain ⟨v, r⟩ := q
        cases u with
        | zero => simp [readUnary, hr]
        | succ u =>
          simp only [readUnary, hr, List.replicate_succ, List.cons_append, List.cons.injEq, true_and]
          rw [← ih, hr]
          simp

/-- `read_unary()` takes at least the terminating zero. -/
theorem readUnary_length {bits rest : List Bool} {u : Nat} (h : readUnary bits = some (u, rest)) :
    bits.length = u + 1 + rest.length := by
  rw [readUnary_eq_some] at h
  subst h
  simp
  omega

/-! ### V1 -/

@[simp] theorem v1Window_length (x : Arch) (c : Nat) : (x.v1Window c).length = min 2 (v1BodyLen - c) := by
  simp [Arch.v1Window]

/-- A token's effect: it advances CURSOR by its size and appends bytes. -/
theorem v1Exec_ok {p : Params} {t : V1Token} {d d' : V1State} (h : v1Exec p t d = .ok d') :
    d'.cursor = d.cursor + v1Size t ∧ ∃ e : List Byte, d'.out = d.out ++ e ∧ 1 ≤ e.length ∧ 2 * e.length ≤ 17 * v1Size t := by
  cases t with
  | lit b => cases h; exact ⟨rfl, [b], rfl, by simp, by simp [v1Size]⟩
  | tab i => cases h; exact ⟨rfl, [p.oldLookup[i]], rfl, by simp, by simp [v1Size]⟩
  | bref row hi lo =>
    simp only [v1Exec, v1Bref, v1Copy] at h
    split at h
    · cases h
    · next hr =>
      cases h
      refine ⟨rfl, _, rfl, ?_, ?_⟩
      · simp only [List.length_take, List.length_drop]
        have : 2 ≤ brefLength p.v1Nibbles hi lo := by
          cases p.v1Nibbles <;> simp [brefLength]
        omega
      · simp only [List.length_take, List.length_drop, v1Size]
        have h1 := hi.isLt
        have h2 := lo.isLt
        have : brefLength p.v1Nibbles hi lo ≤ 17 := by
          cases p.v1Nibbles <;> simp only [brefLength] <;> omega
        omega

/-- One turn of the V1 loop: a token that was wholly there, its effect, and no overrun. -/
theorem v1Turn_ok {p : Params} {x : Arch} {dlen : Half} {d d' : V1State} (h : v1Turn p x dlen d = .ok d') :
    ∃ t rest, decodeV1Token (x.v1Window d.cursor) = .ok (t, rest) ∧ v1Exec p t d = .ok d' ∧
      v1Overruns p dlen d' = false ∧ d'.cursor ≤ v1BodyLen := by
  unfold v1Turn at h
  split at h
  · cases h
  · next t rest hd =>
    split at h
    · cases h
    · next d'' he =>
      split at h
      · cases h
      · next ho =>
        cases h
        refine ⟨t, rest, hd, he, by simpa using ho, ?_⟩
        have h1 := decodeV1Token_length hd
        have h2 := (v1Exec_ok he).1
        rw [v1Window_length] at h1
        have : 1 ≤ v1Size t := by cases t <;> simp [v1Size]
        omega

/-- What every turn keeps holds when the loop ends, and then its test has failed (R161). -/
theorem v1Loop_ok {p : Params} {x : Arch} {dlen : Half} {P : V1State → Prop}
    (hP : ∀ d d', P d → v1Continues p dlen d = true → v1Turn p x dlen d = .ok d' → P d') {n : Nat} {d d' : V1State} (hd : P d)
    (h : v1Loop p x dlen n d = .ok d') : P d' ∧ v1Continues p dlen d' = false := by
  induction n generalizing d with
  | zero =>
    simp only [v1Loop] at h
    split at h
    · cases h
    · next hc => cases h; exact ⟨hd, by simpa using hc⟩
  | succ n ih =>
    simp only [v1Loop] at h
    split at h
    · next hcont =>
      split at h
      · cases h
      · next d1 h1 => exact ih (hP _ _ hd hcont h1) h
    · next hc => cases h; exact ⟨hd, by simpa using hc⟩

/-- The turns of a loop that ends, in order: each was started while the loop's test held (R161). -/
theorem v1Loop_turns {p : Params} {x : Arch} {dlen : Half} {n : Nat} {d d' : V1State} (h : v1Loop p x dlen n d = .ok d') :
    ∃ (k : Nat) (f : Nat → V1State), f 0 = d ∧ f k = d' ∧
      ∀ j, j < k → v1Continues p dlen (f j) = true ∧ v1Turn p x dlen (f j) = .ok (f (j + 1)) := by
  induction n generalizing d with
  | zero =>
    simp only [v1Loop] at h
    split at h
    · cases h
    · cases h
      exact ⟨0, fun _ => d', rfl, rfl, fun _ hj => absurd hj (by omega)⟩
  | succ n ih =>
    simp only [v1Loop] at h
    split at h
    · next hc =>
      split at h
      · cases h
      · next d1 h1 =>
        obtain ⟨k, f, h0, hk, hf⟩ := ih h
        refine ⟨k + 1, fun j => if j = 0 then d else f (j - 1), rfl, by simp [hk], fun j hj => ?_⟩
        cases j with
        | zero => simpa [h0] using ⟨hc, h1⟩
        | succ j => simpa using hf j (by omega)
    · cases h
      exact ⟨0, fun _ => d', rfl, rfl, fun _ hj => absurd hj (by omega)⟩

/-- A turn fails with one of the three errors of R309. -/
theorem v1Turn_error {p : Params} {x : Arch} {dlen : Half} {d : V1State} {e : Err} (h : v1Turn p x dlen d = .error e) :
    e = .v1Trunc ∨ e = .v1BrefRange ∨ e = .v1Overrun := by
  unfold v1Turn at h
  split at h
  · cases h
    exact .inl rfl
  · next t rest _ =>
    split at h
    · next e' he =>
      cases h
      cases t <;> simp only [v1Exec, v1Bref, v1Copy, reduceCtorEq] at he
      split at he <;> cases he
      exact .inr (.inl rfl)
    · split at h <;> cases h
      exact .inr (.inr rfl)

/-- The loop fails with one of the three errors of R309. -/
theorem v1Loop_error {p : Params} {x : Arch} {dlen : Half} {n : Nat} {d : V1State} {e : Err}
    (h : v1Loop p x dlen n d = .error e) : e = .v1Trunc ∨ e = .v1BrefRange ∨ e = .v1Overrun := by
  induction n generalizing d with
  | zero =>
    simp only [v1Loop] at h
    split at h <;> cases h
    exact .inl rfl
  | succ n ih =>
    simp only [v1Loop] at h
    split at h
    · split at h
      · next e' he => cases h; exact v1Turn_error he
      · exact ih h
    · cases h

/-- The bound of R172, as a relation between CURSOR and OUT that each token keeps. -/
def v1Bounded (d : V1State) : Prop := d.cursor ≤ v1BodyLen ∧ 2 * d.out.length ≤ 17 * d.cursor

theorem v1Turn_bounded {p : Params} {x : Arch} {dlen : Half} {d d' : V1State} (hd : v1Bounded d)
    (h : v1Turn p x dlen d = .ok d') : v1Bounded d' := by
  obtain ⟨t, _, _, he, _, hc⟩ := v1Turn_ok h
  obtain ⟨h1, e, h2, h3, h4⟩ := v1Exec_ok he
  refine ⟨hc, ?_⟩
  have := hd.2
  rw [h2, List.length_append]
  omega

theorem v1Loop_bounded {p : Params} {x : Arch} {dlen : Half} {n : Nat} {d d' : V1State} (hd : v1Bounded d)
    (h : v1Loop p x dlen n d = .ok d') : v1Bounded d' :=
  (v1Loop_ok (P := v1Bounded) (fun _ _ hd _ h => v1Turn_bounded hd h) hd h).1

theorem v1Start_bounded : v1Bounded v1Start := by simp [v1Bounded, v1Start]

/-- No V1 output is longer than OUT (R172). -/
theorem v1Bounded_length {d : V1State} (h : v1Bounded d) : d.out.length ≤ outCap := by
  obtain ⟨h1, h2⟩ := h
  simp only [v1BodyLen, outCap] at *
  omega

/-! ### V2 -/

/-- A V2 token's effect: it moves past its bits, within the stream when its own bits are there. -/
theorem v2Exec_ok {p : Params} {x : Arch} {nbits u : Nat} {d d' : V2State} (h : v2Exec p x nbits u d = .ok d') :
    ∃ g k e m, p.v2Grammar = some g ∧
      g.run u (x.restBits nbits (d.bitpos + (u + 1))) d.mtf d.out = .ok k e m ∧
      d' = { bitpos := d.bitpos + (u + 1) + k, mtf := m, out := d.out ++ e } := by
  unfold v2Exec at h
  split at h
  · cases h
  · next g hg =>
    split at h
    · cases h
    · cases h
    · next k e m hr => cases h; exact ⟨g, k, e, m, hg, hr, rfl⟩

/-- One turn of the V2 loop. -/
theorem v2Turn_ok {p : Params} {x : Arch} {nbits : Nat} {dlen : Half} {d d' : V2State}
    (h : v2Turn p x nbits dlen d = .ok d') :
    ∃ u rest, readUnary (x.restBits nbits d.bitpos) = some (u, rest) ∧ v2Exec p x nbits u d = .ok d' ∧
      v2Overruns dlen d' = false := by
  unfold v2Turn at h
  split at h
  · cases h
  · next u rest hu =>
    split at h
    · cases h
    · next d'' he =>
      split at h
      · cases h
      · next ho => cases h; exact ⟨u, rest, hu, he, by simpa using ho⟩

/-- What every turn keeps holds when the loop ends, and then its test has failed (R199). -/
theorem v2Loop_ok {p : Params} {x : Arch} {nbits : Nat} {dlen : Half} {P : V2State → Prop}
    (hP : ∀ d d', P d → v2Turn p x nbits dlen d = .ok d' → P d') {n : Nat} {d d' : V2State} (hd : P d)
    (h : v2Loop p x nbits dlen n d = .ok d') : P d' ∧ v2Continues dlen d' = false := by
  induction n generalizing d with
  | zero =>
    simp only [v2Loop] at h
    split at h
    · cases h
    · next hc => cases h; exact ⟨hd, by simpa using hc⟩
  | succ n ih =>
    simp only [v2Loop] at h
    split at h
    · split at h
      · cases h
      · next d1 h1 => exact ih (hP _ _ hd h1) h
    · next hc => cases h; exact ⟨hd, by simpa using hc⟩

/-- A turn fails with one of the four errors of R309. -/
theorem v2Turn_error {p : Params} {x : Arch} {nbits : Nat} {dlen : Half} {d : V2State} {e : Err}
    (h : v2Turn p x nbits dlen d = .error e) : e = .v2Grammar ∨ e = .v2Trunc ∨ e = .v2Token ∨ e = .v2Overrun := by
  unfold v2Turn at h
  split at h
  · cases h
    cases hg : p.v2Grammar <;> simp [v2NoToken, hg]
  · split at h
    · next e' he =>
      cases h
      unfold v2Exec at he
      split at he
      · cases he
        exact .inl rfl
      · split at he <;> cases he <;> simp
    · split at h <;> cases h
      simp

/-- The loop fails with one of the four errors of R309. -/
theorem v2Loop_error {p : Params} {x : Arch} {nbits : Nat} {dlen : Half} {n : Nat} {d : V2State} {e : Err}
    (h : v2Loop p x nbits dlen n d = .error e) : e = .v2Grammar ∨ e = .v2Trunc ∨ e = .v2Token ∨ e = .v2Overrun := by
  induction n generalizing d with
  | zero =>
    simp only [v2Loop] at h
    split at h <;> cases h
    cases hg : p.v2Grammar <;> simp [v2NoToken, hg]
  | succ n ih =>
    simp only [v2Loop] at h
    split at h
    · split at h
      · next e' he => cases h; exact v2Turn_error he
      · exact ih h
    · cases h

/-- A V2 loop that ends has emitted exactly decompressed_len bytes (R200). -/
theorem v2Loop_length {p : Params} {x : Arch} {nbits n : Nat} {dlen : Half} {d d' : V2State} (hd : d.out.length ≤ dlen.toNat)
    (h : v2Loop p x nbits dlen n d = .ok d') : d'.out.length = dlen.toNat := by
  have := v2Loop_ok (P := fun d => d.out.length ≤ dlen.toNat) (fun d d' _ h => by
    have := (v2Turn_ok h).choose_spec.choose_spec.2.2
    simpa [v2Overruns] using this) hd h
  have h2 := this.2
  simp only [v2Continues, decide_eq_false_iff_not] at h2
  omega

/-! ### A decode depends on CART's bytes alone -/

/-- Two states whose cartridges read alike, over the whole of CART. -/
def sameCart (x y : Arch) : Prop := ∀ a, a < cartSize → x.read .cart a = y.read .cart a

theorem sameCart_bytes {x y : Arch} (h : sameCart x y) {a n : Nat} (hn : a + n ≤ cartSize) :
    x.bytes .cart a n = y.bytes .cart a n :=
  bytes_congr fun i hi => h _ (by omega)

theorem sameCart_v1Window {x y : Arch} (h : sameCart x y) (c : Nat) : x.v1Window c = y.v1Window c :=
  bytes_congr fun i hi => h _ (by simp only [bodyBase, v1BodyLen, cartSize] at *; omega)

theorem sameCart_dlenField {x y : Arch} (h : sameCart x y) : x.dlenField = y.dlenField := by
  simp [Arch.dlenField, h dlenAddr (by decide), h (dlenAddr + 1) (by decide)]

theorem sameCart_hdr6Field {x y : Arch} (h : sameCart x y) : x.hdr6Field = y.hdr6Field := by
  simp [Arch.hdr6Field, h hdr6Addr (by decide), h (hdr6Addr + 1) (by decide)]

theorem sameCart_magicField {x y : Arch} (h : sameCart x y) : x.magicField = y.magicField := by
  simp [Arch.magicField, h codeBase (by decide), h (codeBase + 1) (by decide), h (codeBase + 2) (by decide),
    h (codeBase + 3) (by decide)]

theorem sameCart_v0Text {x y : Arch} (h : sameCart x y) : v0Text x = v0Text y := by
  simp only [v0Text, Arch.codeRegion]
  rw [sameCart_bytes h (by simp [codeBase, codeLen, cartSize])]

theorem sameCart_mtfField {x y : Arch} (h : sameCart x y) : x.mtfField = y.mtfField := by
  have : x.mtfBytes = y.mtfBytes := sameCart_bytes h (by simp [bodyBase, cartSize])
  simp only [Arch.mtfField, this]

theorem sameCart_v1Loop {x y : Arch} (h : sameCart x y) (p : Params) (dlen : Half) (n : Nat) (d : V1State) :
    v1Loop p x dlen n d = v1Loop p y dlen n d := by
  induction n generalizing d with
  | zero => rfl
  | succ n ih => simp only [v1Loop, v1Turn, sameCart_v1Window h, ih]

theorem sameCart_restBits {x y : Arch} (h : sameCart x y) {nbits : Nat} (hn : nbits ≤ 122816) (k : Nat) :
    x.restBits nbits k = y.restBits nbits k := by
  apply List.ext_getElem
  · simp [Arch.restBits]
  · intro i h1 h2
    simp only [Arch.restBits, streamBits_length] at h1
    simp only [Arch.restBits]
    rw [streamBits_getElem, streamBits_getElem]
    simp only [Arch.streamBit]
    rw [h]
    simp only [v2StreamBase, cartSize]
    omega

theorem sameCart_v2Loop {x y : Arch} (h : sameCart x y) (p : Params) {nbits : Nat} (hn : nbits ≤ 122816) (dlen : Half)
    (n : Nat) (d : V2State) : v2Loop p x nbits dlen n d = v2Loop p y nbits dlen n d := by
  induction n generalizing d with
  | zero => rfl
  | succ n ih => simp only [v2Loop, v2Turn, v2Exec, sameCart_restBits h hn, ih]

/-- A compressed_len that passes its check gives a stream inside CART (R193). -/
theorem v2NBits_le {clen : Half} (h : badClen clen = false) : v2NBits clen ≤ 122816 := by
  have h2 : ¬ codeLen < clen.toNat := by
    simp only [badClen, Bool.or_eq_false_iff, decide_eq_false_iff_not] at h
    exact h.2
  unfold v2NBits
  unfold v2HdrBytes
  unfold codeLen at h2
  omega

/-! ### What a decoder that succeeds leaves -/

/-- DECODE_V0 after its length check: the text, and nothing else (R142). -/
theorem v0Body_ok {x y : Arch} (h : v0Body x = .ok y) : validUtf8 (v0Text x) = true ∧ y = x.setText (v0Text x) := by
  unfold v0Body at h
  split at h
  · next hu => cases h; exact ⟨hu, rfl⟩
  · cases h

/-- DECODE_V1 after its length check: the loop's output as the text, DLEN, HDR6 and CURSOR (R161). -/
theorem v1Body_ok {p : Params} {x y : Arch} (h : v1Body p x = .ok y) :
    ∃ d, v1Loop p x x.dlenField v1BodyLen v1Start = .ok d ∧ validUtf8 d.out = true ∧
      y = { x.setText d.out with cursor := d.cursor, dlen := x.dlenField, hdr6 := x.hdr6Field } := by
  unfold v1Body at h
  split at h
  · cases h
  · next d hd =>
    unfold v1Finish at h
    split at h
    · next hu => cases h; exact ⟨d, hd, hu, rfl⟩
    · cases h

/-- DECODE_V2 after its length check: a sound header, and the loop's output as the text, DLEN, HDR6, BITPOS and MTF
(R199). -/
theorem v2Body_ok {p : Params} {x y : Arch} (h : v2Body p x = .ok y) :
    badClen x.hdr6Field = false ∧ isPermutation x.mtfField = true ∧
      ∃ d, v2Loop p x (v2NBits x.hdr6Field) x.dlenField (v2NBits x.hdr6Field) (v2Start x) = .ok d ∧
        validUtf8 d.out = true ∧
        y = { x.setText d.out with bitpos := d.bitpos, mtf := d.mtf, dlen := x.dlenField, hdr6 := x.hdr6Field } := by
  unfold v2Body at h
  split at h
  · cases h
  · next hc =>
    split at h
    · cases h
    · next hp =>
      split at h
      · cases h
      · next d hd =>
        unfold v2Finish at h
        split at h
        · next hu =>
          cases h
          exact ⟨by simpa using hc, by simpa using hp, d, hd, hu, rfl⟩
        · cases h

theorem v0Text_length_le (x : Arch) : (v0Text x).length ≤ codeLen := by
  have := (List.takeWhile_sublist (fun b : Byte => b != 0) (l := x.codeRegion)).length_le
  simpa [v0Text, Arch.codeRegion] using this

/-- Whichever decoder the magic selects, its text fits OUT, and the result differs from the start only in what decoders
write (R251). -/
theorem selectedBody_ok {p : Params} {x y : Arch} (h : selectedBody p x = .ok y) :
    ∃ t : List Byte, t.length ≤ outCap ∧ validUtf8 t = true ∧ y.outlen = BitVec.ofNat 32 t.length ∧
      y.out = x.out.writeRange 0 t ∧
      y = { x with
            outlen := y.outlen, out := y.out, cursor := y.cursor, bitpos := y.bitpos, mtf := y.mtf, dlen := y.dlen,
            hdr6 := y.hdr6 } := by
  unfold selectedBody at h
  split at h
  · obtain ⟨hu, rfl⟩ := v0Body_ok h
    refine ⟨v0Text x, ?_, hu, rfl, rfl, rfl⟩
    have := v0Text_length_le x
    simp only [codeLen, outCap] at *
    omega
  · obtain ⟨d, hd, hu, rfl⟩ := v1Body_ok h
    exact ⟨d.out, v1Bounded_length (v1Loop_bounded v1Start_bounded hd), hu, rfl, rfl, rfl⟩
  · obtain ⟨_, _, d, hd, hu, rfl⟩ := v2Body_ok h
    refine ⟨d.out, ?_, hu, rfl, rfl, rfl⟩
    have := v2Loop_length (by simp [v2Start]) hd
    have := x.dlenField.isLt
    simp only [outCap]
    omega

/-- A text that fits OUT, read back after a decoder has stored it. -/
theorem text_setText (x : Arch) {t : List Byte} (h : t.length ≤ outCap) : (x.setText t).text = t := by
  have h1 : (BitVec.ofNat 32 t.length).toNat = t.length := by
    simp only [BitVec.toNat_ofNat, outCap] at *
    omega
  simp only [Arch.text, setText_outlen, h1]
  have : (x.setText t).bytes .out 0 t.length = (x.write .out 0 t).bytes .out 0 t.length :=
    bytes_congr fun i _ => rfl
  rw [this, bytes_write]

/-! ### Header and table of V2 -/

theorem badClen_eq_false {c : Half} : badClen c = false ↔ 264 ≤ c.toNat ∧ c.toNat ≤ 15616 := by
  simp [badClen, v2HdrBytes, codeLen]

/-- A table that is a permutation: no two of its 256 bytes are equal (R192). -/
theorem isPermutation_mtfField (x : Arch) :
    isPermutation x.mtfField = true ↔
      ∀ i j, i < j → j < 256 → x.read .cart (bodyBase + i) ≠ x.read .cart (bodyBase + j) := by
  have hm : x.mtfField.toList = x.mtfBytes := by simp [Arch.mtfField]
  rw [isPermutation, decide_eq_true_iff, hm, List.Nodup, List.pairwise_iff_getElem]
  simp only [Arch.mtfBytes]
  constructor
  · intro h i j hij hj
    have := h i j (by simp; omega) (by simp; omega) hij
    rwa [bytes_getElem, bytes_getElem] at this
  · intro h i j hi hj hij
    rw [bytes_getElem, bytes_getElem]
    simp only [bytes_length] at hi hj
    exact h i j hij hj

/-! ### Text in V0 -/

/-- Where the V0 text ends: at the first zero byte of the region, or at the region's end (R142). -/
theorem v0Text_eq {x : Arch} {z : Nat} (h1 : z ≤ codeLen) (h2 : ∀ i, i < z → x.read .cart (codeBase + i) ≠ 0)
    (h3 : z = codeLen ∨ x.read .cart (codeBase + z) = 0) : v0Text x = x.bytes .cart codeBase z := by
  unfold v0Text Arch.codeRegion
  have hs : x.bytes .cart codeBase codeLen =
      x.bytes .cart codeBase z ++ x.bytes .cart (codeBase + z) (codeLen - z) := by
    apply List.ext_getElem
    · simp
      omega
    · intro i a b
      rw [bytes_getElem, List.getElem_append]
      split
      · rw [bytes_getElem]
      · rw [bytes_getElem]
        congr 1
        simp at *
        omega
  rw [hs, List.takeWhile_append_of_pos]
  · have : (x.bytes .cart (codeBase + z) (codeLen - z)).takeWhile (fun b => b != 0) = [] := by
      rcases h3 with h3 | h3
      · subst h3
        simp [Arch.bytes]
      · cases hn : codeLen - z with
        | zero => rfl
        | succ n => simp [Arch.bytes, h3]
    rw [this, List.append_nil]
  · intro b hb
    obtain ⟨i, hi, rfl⟩ := List.getElem_of_mem hb
    rw [bytes_getElem]
    simp only [bytes_length] at hi
    simpa using h2 i hi

/-- A byte of a text that a decoder has stored. -/
theorem read_setText (x : Arch) {t : List Byte} {i : Nat} (h : i < t.length) : (x.setText t).read .out i = t[i] := by
  have h1 : (x.setText t).read .out i = (x.write .out 0 t).read .out i := read_congr (sp := .out) rfl i
  rw [h1, read_write, dif_pos (by omega)]
  rfl

/-! ### Tokens inside a decode, and runs of steps -/

/-- What `exec` does with a V1 token inside a V1 decode. -/
theorem exec_v1Token (t : V1Token) {s : State} {r : Run} (h : s.phase = .v1 r) :
    exec t.toInstr s = .next (s.v1Put r (v1Exec Config.params t (s.v1View r))) := by
  cases t <;> simp [V1Token.toInstr, exec, execLit, execTab, execBref, h, v1Exec]

/-- What `exec` does with a V2 token inside a V2 decode. -/
theorem exec_v2Token (u : Nat) {s : State} {r : Run} {nbits : Nat} (h : s.phase = .v2 r nbits) :
    exec (.v2Token u) s = .next (s.v2Put r nbits (v2Exec Config.params s.toArch nbits u (s.v2View r))) := by
  simp [exec, execV2Token, h]

/-- The first of several steps. -/
theorem run_succ_next (M : Host.Core) {s s' : M.State} (h : M.step s = .next s') (n : Nat) :
    M.run (n + 1) s = M.run n s' := by
  rw [Host.Core.run.eq_def]
  simp only [h]

/-- The stream bits depend on CART alone. -/
theorem restBits_congr {x y : Arch} (h : x.cart = y.cart) (nbits k : Nat) : x.restBits nbits k = y.restBits nbits k := by
  apply List.ext_getElem
  · simp [Arch.restBits]
  · intro i a b
    simp only [Arch.restBits]
    rw [streamBits_getElem, streamBits_getElem, Arch.streamBit, Arch.streamBit,
      read_congr (sp := .cart) h]

end Sys2Proof.Machine
end

