-- ==== Sys2Proof/Laws/Matcher.lean ====
section
/-! SUPPORT. What FIND's search and ENCODE_REF's fields are. -/

namespace Sys2Proof.Machine

/-- No position holds the byte. -/
theorem findByte_eq_none {c : Byte} {S : List Byte} : findByte c S = none ↔ c ∉ S := by
  induction S with
  | nil => simp [findByte]
  | cons b S ih =>
    by_cases h : b = c
    · simp [findByte, h]
    · have h' : ¬ c = b := fun e => h e.symm
      cases hf : findByte c S with
      | none => simp [findByte, h, h', hf, ih.mp hf]
      | some i =>
        simp only [findByte, h, if_false, hf, List.mem_cons, h', false_or, reduceCtorEq, false_iff, not_not]
        by_contra hn
        rw [ih.mpr hn] at hf
        cases hf

/-- The least position that holds the byte (R222). -/
theorem findByte_eq_some {c : Byte} {S : List Byte} {p : Nat} :
    findByte c S = some p ↔ S[p]? = some c ∧ ∀ q, q < p → S[q]? ≠ some c := by
  induction S generalizing p with
  | nil => simp [findByte]
  | cons b S ih =>
    by_cases h : b = c
    · simp only [findByte, h, if_true, Option.some.injEq]
      constructor
      · rintro rfl
        simp
      · rintro ⟨_, h2⟩
        cases p with
        | zero => rfl
        | succ p => exact absurd (by simp) (h2 0 (by omega))
    · simp only [findByte, h, if_false]
      cases p with
      | zero => cases hf : findByte c S <;> simp [h]
      | succ p =>
        have e : findByte c S = some p ↔
            (match findByte c S with | none => none | some i => some (i + 1)) = some (p + 1) := by
          cases hf : findByte c S <;> simp
        refine e.symm.trans (ih.trans ?_)
        simp only [List.getElem?_cons_succ]
        constructor
        · rintro ⟨h1, h2⟩
          refine ⟨h1, fun q hq => ?_⟩
          cases q with
          | zero => simpa using h
          | succ q => simpa using h2 q (by omega)
        · rintro ⟨h1, h2⟩
          exact ⟨h1, fun q hq => by simpa using h2 (q + 1) (by omega)⟩

/-- The run of agreeing bytes: inside both lists, agreeing throughout, and ended by a difference or an end (R222,
R223). -/
theorem matchLen_spec (A C : List Byte) :
    matchLen A C ≤ A.length ∧ matchLen A C ≤ C.length ∧ (∀ j, j < matchLen A C → A[j]? = C[j]?) ∧
      (matchLen A C < A.length → matchLen A C < C.length → A[matchLen A C]? ≠ C[matchLen A C]?) := by
  induction A generalizing C with
  | nil => simp [matchLen]
  | cons a A ih =>
    cases C with
    | nil => simp [matchLen]
    | cons b C =>
      by_cases h : a = b
      · obtain ⟨i1, i2, i3, i4⟩ := ih C
        simp only [matchLen, h, if_true, List.length_cons]
        refine ⟨by omega, by omega, fun j hj => ?_, fun h1 h2 => by simpa using i4 (by omega) (by omega)⟩
        cases j with
        | zero => simp
        | succ j => simpa using i3 j (by omega)
      · simp [matchLen, h]

theorem beVar_length (v : Half) : (beVar v).length = if v.toNat ≤ 0xFF then 1 else 2 := by
  unfold beVar
  split <;> rfl

/-- Byte `j` of a variable-length field, most significant first (R88). -/
theorem beVar_getElem (v : Half) (j : Nat) (hj : j < (beVar v).length) :
    (beVar v)[j].toNat = v.toNat / 256 ^ ((beVar v).length - 1 - j) % 256 := by
  have hv := v.isLt
  by_cases h : v.toNat ≤ 0xFF
  · have e : beVar v = [v.extractLsb' 0 8] := by
      unfold beVar
      rw [if_pos h]
    simp only [e] at hj ⊢
    have : j = 0 := by simpa using hj
    subst this
    simp
  · have e : beVar v = [v.extractLsb' 8 8, v.extractLsb' 0 8] := by
      unfold beVar
      rw [if_neg h]
    simp only [e] at hj ⊢
    have : j = 0 ∨ j = 1 := by
      simp at hj
      omega
    rcases this with rfl | rfl
    · simp [BitVec.extractLsb'_toNat, Nat.shiftRight_eq_div_pow]
    · simp

end Sys2Proof.Machine
end

