-- ==== Sys2Proof/Laws/PerInstr.lean ====
section
/-! SUPPORT. What holds of every instruction as syntax, one lemma per constructor: the format its row of the opcode table
names (CMD8, V1_TOKEN_2BYTE, V1_TOKEN_1BYTE, V2_BITSTREAM) is the form its encoding has. -/

namespace Sys2Proof.Laws.Format

open Sys2Proof

/-- The format the opcode table names for an instruction: a command byte (R71), a V1 token of so many bytes (R79), or the
bits of a V2 prefix, one more than its value (R85). -/
inductive Form where
  | command
  | v1Token (bytes : Nat)
  | v2Prefix (bits : Nat)
  deriving DecidableEq, Repr

/-- The table's format of each row. -/
def tableForm : Instr → Form
  | .nop => .command
  | .extract => .command
  | .pack => .command
  | .classify => .command
  | .decodeV0 => .command
  | .decodeV1 => .command
  | .decodeV2 => .command
  | .decodeBytes => .command
  | .decodeImage => .command
  | .find => .command
  | .encodeRef => .command
  | .encode => .command
  | .softReset => .command
  | .illegalCmd _ => .command
  | .lit _ => .v1Token 2
  | .tab _ => .v1Token 1
  | .bref _ _ _ => .v1Token 2
  | .v2Token u => .v2Prefix (u + 1)

/-- The form of an encoding. -/
def codeForm : Code → Form
  | .command _ => .command
  | .v1 bytes => .v1Token bytes.length
  | .v2 bits => .v2Prefix bits.length

/-- An instruction's encoding has the form its row of the table names. -/
def Statement (i : Instr) : Prop := codeForm (Sys2Proof.encode i) = tableForm i

theorem nop : Statement .nop := rfl
theorem extract : Statement .extract := rfl
theorem pack : Statement .pack := rfl
theorem classify : Statement .classify := rfl
theorem decodeV0 : Statement .decodeV0 := rfl
theorem decodeV1 : Statement .decodeV1 := rfl
theorem decodeV2 : Statement .decodeV2 := rfl
theorem decodeBytes : Statement .decodeBytes := rfl
theorem decodeImage : Statement .decodeImage := rfl
theorem find : Statement .find := rfl
theorem encodeRef : Statement .encodeRef := rfl
theorem encode : Statement .encode := rfl
theorem softReset : Statement .softReset := rfl
theorem illegalCmd (op : Byte) : Statement (.illegalCmd op) := rfl
theorem lit (b : Byte) : Statement (.lit b) := rfl
theorem tab (k : Fin 59) : Statement (.tab k) := rfl
theorem bref (row : Fin 196) (h l : BitVec 4) : Statement (.bref row h l) := rfl
theorem v2Token (u : Nat) : Statement (.v2Token u) := by
  simp [Statement, Sys2Proof.encode, codeForm, tableForm, encodeUnary]

end Sys2Proof.Laws.Format
end

