-- ==== Sys2Proof/Tests/Slice0.lean ====
section
/-! SUPPORT. Tests: words written out from the encodings of spec/30_encoding.md, rows of spec/95_test_vectors.md (named by
their row), and for each statement with hypotheses a witness that meets them. -/

namespace Sys2Proof.Tests

open Sys2Proof Sys2Proof.Machine

/-! ### Well-formedness -/

/-- 0x05 is DECODE_V1, so no reserved value (R72, R73). -/
theorem test_wellFormed_refuses_command_as_illegal : (Instr.illegalCmd 0x05).wellFormed = false := by decide

theorem test_wellFormed_refuses_last_command_as_illegal : (Instr.illegalCmd 0x0C).wellFormed = false := by decide

theorem test_wellFormed_takes_reserved : (Instr.illegalCmd 0x0D).wellFormed = true := by decide

/-! ### Decoding, from words written out bit by bit (R72, R73, R80..R82, R85) -/

theorem test_decode_commands :
    [0b00000000, 0b00000001, 0b00000010, 0b00000011, 0b00000100, 0b00000101, 0b00000110, 0b00000111, 0b00001000,
      0b00001001, 0b00001010, 0b00001011, 0b00001100].map (decodeTableWord 8) =
    [some .nop, some .extract, some .pack, some .classify, some .decodeV0, some .decodeV1, some .decodeV2,
      some .decodeBytes, some .decodeImage, some .find, some .encodeRef, some .encode, some .softReset] := by decide

theorem test_decode_reserved :
    decodeTableWord 8 0b00001101 = some (.illegalCmd 0x0D) ∧ decodeTableWord 8 0b11111111 = some (.illegalCmd 0xFF) := by
  decide

/-- LIT 0x41: byte 0 is 00000000, byte 1 is 01000001. -/
theorem test_decode_lit : decode (.v1 [0b00000000, 0b01000001]) = .ok (.lit 0x41) ∧
    decodeTableWord 16 0b0000000001000001 = some (.lit 0x41) := by decide

/-- TAB 1 is 00000001, TAB 59 is 00111011. -/
theorem test_decode_tab : decode (.v1 [0b00000001]) = .ok (.tab 0) ∧ decode (.v1 [0b00111011]) = .ok (.tab 58) := by
  decide

/-- Byte 0 from 00111100, byte 1 the two nibbles (R82). -/
theorem test_decode_bref : decode (.v1 [0b00111100, 0b00110001]) = .ok (.bref 0 3 1) ∧
    decodeTableWord 16 0b1111111101011010 = some (.bref 195 5 10) := by decide

/-- `u` one-bits, then a zero, in stream order (R85). -/
theorem test_decode_v2Token : decode (.v2 [true, true, false]) = .ok (.v2Token 2) ∧
    decodeTableWord 3 0b011 = some (.v2Token 2) := by decide

theorem test_decode_rejects : decode (.v1 [0b00000000]) = .error .v1Truncated ∧
    decode (.v1 [0b00111100]) = .error .v1Truncated ∧ decode (.v1 []) = .error .v1Truncated ∧
    decode (.v2 [true, true]) = .error .v2Unterminated ∧ decode (.v1 [0b00000001, 0b00000001]) = .error .trailing := by
  decide

/-! ### Parameters and small states -/

/-- Table byte `i` is ASCII, 0x61 on (95_test_vectors.md asks for an ASCII table). -/
def asciiTable : Vector Byte 59 := Vector.ofFn fun i => BitVec.ofNat 8 (0x40 + i.val)

/-- The defaults of R9, with an ASCII table. -/
def testParams : Params := { oldLookup := asciiTable }

/-- The same with V1_LOOP_BOUND = OUTPUT. -/
def outputParams : Params := { oldLookup := asciiTable, v1LoopBound := .output }

/-- The same with V1_NIBBLES = SWAPPED. -/
def swappedParams : Params := { oldLookup := asciiTable, v1Nibbles := .swapped }

/-- A test grammar TG that accepts `u = 0` only: eight bits `i`, then `MTF[i]`, moved to the front (95_test_vectors.md,
2.5). -/
def tgRun (u : Nat) (rest : List Bool) (mtf : Mtf) (_ : List Byte) : GrammarResult :=
  if u ≠ 0 then .tokenErr
  else
    match rest with
    | b0 :: b1 :: b2 :: b3 :: b4 :: b5 :: b6 :: b7 :: _ =>
      let i := Fin.ofNat 256 (b0.toNat + 2 * b1.toNat + 4 * b2.toNat + 8 * b3.toNat + 16 * b4.toNat + 32 * b5.toNat +
        64 * b6.toNat + 128 * b7.toNat)
      .ok 8 [(mtfTake i mtf).1] (mtfTake i mtf).2
    | _ => .truncErr

theorem tgRun_ok {u : Nat} {rest : List Bool} {mtf : Mtf} {out : List Byte} {k : Nat} {e : List Byte} {m : Mtf}
    (h : tgRun u rest mtf out = .ok k e m) : k = 8 ∧ u = 0 ∧ ∃ b0 b1 b2 b3 b4 b5 b6 b7 t,
      rest = b0 :: b1 :: b2 :: b3 :: b4 :: b5 :: b6 :: b7 :: t := by
  unfold tgRun at h
  split at h
  · cases h
  · next hu =>
    split at h
    · cases h
      exact ⟨rfl, by simpa using hu, _, _, _, _, _, _, _, _, _, rfl⟩
    · cases h

/-- TG is a conforming grammar (R197). -/
def tg : Grammar where
  run := tgRun
  used_le := by
    intro u rest mtf out k e m h
    obtain ⟨rfl, _, b0, b1, b2, b3, b4, b5, b6, b7, t, rfl⟩ := tgRun_ok h
    simp
  determined := by
    intro u rest rest' mtf out k e m h hl ht
    obtain ⟨rfl, rfl, b0, b1, b2, b3, b4, b5, b6, b7, t, rfl⟩ := tgRun_ok h
    match rest', hl with
    | c0 :: c1 :: c2 :: c3 :: c4 :: c5 :: c6 :: c7 :: t', _ =>
      simp only [List.take_succ_cons, List.take_zero, List.cons.injEq, and_true] at ht
      obtain ⟨rfl, rfl, rfl, rfl, rfl, rfl, rfl, rfl⟩ := ht
      exact h
    | [], hl => simp at hl
    | [_], hl => simp at hl
    | [_, _], hl => simp at hl
    | [_, _, _], hl => simp at hl
    | [_, _, _, _], hl => simp at hl
    | [_, _, _, _, _], hl => simp at hl
    | [_, _, _, _, _, _], hl => simp at hl
    | [_, _, _, _, _, _, _], hl => simp at hl

def tgParams : Params := { oldLookup := asciiTable, v2Grammar := some tg }

/-- A whole cartridge whose bytes from 0x4300 are these. -/
def cartWith (bs : List Byte) : Arch := { Arch.reset.write .cart 0x4300 bs with cartlen := 32768 }

/-- A V1 body after a header with this decompressed_len. -/
def v1Cart (dlen : Half) (body : List Byte) : Arch :=
  cartWith ([0, 0, 0, 1, dlen.extractLsb' 8 8, dlen.extractLsb' 0 8, 0x12, 0x34] ++ body)

/-- A V2 cartridge with the identity table. -/
def v2Cart (dlen clen : Half) (stream : List Byte) : Arch :=
  cartWith ([0, 0, 0, 2, dlen.extractLsb' 8 8, dlen.extractLsb' 0 8, clen.extractLsb' 8 8, clen.extractLsb' 0 8] ++
    (List.range 256).map (BitVec.ofNat 8) ++ stream)

/-- The state with no pending host action. -/
def run (x : Arch) : State := { toArch := x, phase := .idle, host := [] }

/-- The state `exec` leads to. -/
def after (i : Instr) (s : State) : State :=
  match exec i s with
  | .next t => t
  | .fault _ => s
  | .refused _ => s

/-- The text a body of a command leaves, or the STATUS it fails with. -/
def textOf : Except Err Arch → Except Half (List Byte)
  | .ok y => .ok y.text
  | .error e => .error e.status

/-! ### Channel (X rows, S12) -/

theorem test_extract_X1 : (match extract testParams { (Arch.reset.write .pix 0 [0xFE, 0x7D, 0x80, 0xC3]) with
      bpp := 4, pixlen := 4 } with
    | .ok y => some (y.read .cart 0, y.cartlen)
    | .error _ => none) = some (0xE4, 1) := by decide +kernel

/-- X7: BPP is checked before PIXLEN. -/
theorem test_extract_X7 : textOf (extract testParams { Arch.reset with bpp := 3, pixlen := 5 }) = .error 0x0107 := by
  decide +kernel

/-- X2, X3: one lane each, and the high bits ignored. -/
theorem test_chanByte_X2 : chanByte 3 0 0 0 = 0x30 ∧ chanByte 0 3 0 0 = 0x0C ∧ chanByte 0 0 3 0 = 0x03 ∧
    chanByte 0 0 0 3 = 0xC0 ∧ chanByte 0xFF 0xFF 0xFF 0xFF = 0xFF ∧ chanByte 0x80 0x80 0x80 0x80 = 0 := by decide

/-- X11, X12. -/
theorem test_chanPut_X11 : chanPut 0x12 0x34 0x56 0x78 0xE4 = [0x12, 0x35, 0x54, 0x7B] ∧
    chanPut 0xFF 0xFF 0xFF 0xFF 0x00 = [0xFC, 0xFC, 0xFC, 0xFC] ∧
    chanPut 0x00 0x00 0x00 0x00 0xFF = [0x03, 0x03, 0x03, 0x03] := by decide

theorem test_pack_X13 : textOf (pack testParams { Arch.reset with bpp := 4, pixlen := 131068 }) = .error 0x0407 := by
  decide +kernel

/-! ### Classify (K rows) -/

theorem test_classify_K1 : ((cartWith [0, 0, 0, 0, 0x12, 0x34, 0, 0]).withHeader testParams).version = 0 ∧
    ((cartWith [0, 0, 0, 0, 0x12, 0x34, 0, 0]).withHeader testParams).dlen = 0x1234 := by decide +kernel

/-- K3, with MAGIC_V2 = 2. -/
theorem test_classify_K3 : ((cartWith [0, 0, 0, 2, 0x00, 0x10, 0x01, 0x08]).withHeader testParams).version = 2 ∧
    ((cartWith [0, 0, 0, 2, 0x00, 0x10, 0x01, 0x08]).withHeader testParams).hdr6 = 0x0108 := by decide +kernel

/-! ### V0 and UTF-8 (S3, T rows) -/

theorem test_decodeV0_S3 : (after .decodeV0 (run (cartWith [0x68, 0x65, 0x6C, 0x6C, 0x6F, 0]))).text =
    [0x68, 0x65, 0x6C, 0x6C, 0x6F] ∧
    (after .decodeV0 (run (cartWith [0x68, 0x65, 0x6C, 0x6C, 0x6F, 0]))).status = 0x0001 := by decide +kernel

/-- T6: a cut-off sequence. -/
theorem test_decodeV0_T6 : (after .decodeV0 (run (cartWith [0xC3, 0]))).status = 0x020B ∧
    (after .decodeV0 (run (cartWith [0xC3, 0]))).out = [] := by decide +kernel

/-- T3..T5. -/
theorem test_utf8_valid : validUtf8 [0xC3, 0xA9] = true ∧ validUtf8 [0xE2, 0x82, 0xAC] = true ∧
    validUtf8 [0xF0, 0x9F, 0x98, 0x80] = true ∧ validUtf8 [0x00, 0x7F] = true := by decide

/-- T7..T12. -/
theorem test_utf8_invalid : validUtf8 [0x80] = false ∧ validUtf8 [0xC0, 0x80] = false ∧
    validUtf8 [0xE0, 0x80, 0x80] = false ∧ validUtf8 [0xED, 0xA0, 0x80] = false ∧
    validUtf8 [0xF4, 0x90, 0x80, 0x80] = false ∧ validUtf8 [0xF5, 0x80, 0x80, 0x80] = false := by decide

/-! ### V1 (V rows) -/

theorem test_decodeV1_V1 : textOf (decodeV1 testParams (v1Cart 4 [0x00, 0x41, 0x00, 0x42])) = .ok [0x41, 0x42] := by
  decide +kernel

/-- V2 and S5: three TABs and a BREF of distance 3 and length 3. -/
theorem test_decodeV1_V2 : textOf (decodeV1 testParams (v1Cart 5 [0x01, 0x02, 0x03, 0x3C, 0x31])) =
    .ok [0x40, 0x41, 0x42, 0x40, 0x41, 0x42] := by decide +kernel

/-- V8..V11: out of range. -/
theorem test_bref_V8 : v1Bref testParams 0 0 2 { cursor := 0, out := [] } = .error .v1BrefRange ∧
    v1Bref testParams 0 1 0 { cursor := 2, out := [0x41] } = .error .v1BrefRange ∧
    v1Bref testParams 0 2 0 { cursor := 0, out := [] } = .error .v1BrefRange ∧
    v1Bref testParams 195 15 15 { cursor := 0, out := [] } = .error .v1BrefRange := by decide +kernel

/-- V6, and V20 with SWAPPED nibbles. -/
theorem test_bref_V6 : v1Bref testParams 0 2 0 { cursor := 4, out := [0x41, 0x42] } =
      .ok { cursor := 6, out := [0x41, 0x42, 0x41, 0x42] } ∧
    v1Bref swappedParams 0 0 3 { cursor := 3, out := [0x61, 0x62, 0x63] } =
      .ok { cursor := 5, out := [0x61, 0x62, 0x63, 0x61, 0x62] } := by decide +kernel

/-- V16's first token: the byte is emitted as it is, and takes two stream bytes. -/
theorem test_lit_V16 : v1Exec testParams (.lit 0xC3) { cursor := 0, out := [] } = .ok { cursor := 2, out := [0xC3] } := by
  decide +kernel

/-- V18: TAB 59 is the last table index. -/
theorem test_tab_V18 : v1Exec testParams (.tab 58) { cursor := 0, out := [] } = .ok { cursor := 1, out := [0x7A] } := by
  decide +kernel

/-- V21..V23: V1_LOOP_BOUND = OUTPUT. -/
theorem test_v1_output_mode :
    textOf (decodeV1 outputParams (v1Cart 5 [0x01, 0x02, 0x03, 0x3C, 0x31])) = .error 0x050B ∧
    textOf (decodeV1 outputParams (v1Cart 4 [0x00, 0x41, 0x00, 0x42, 0x00, 0x43, 0x00, 0x44])) =
      .ok [0x41, 0x42, 0x43, 0x44] := by decide +kernel

/-! ### V2 (W, B and G rows) -/

/-- W3, W4 and W8: a bad compressed_len, and a short cartridge before it. -/
theorem test_decodeV2_W3 :
    textOf (decodeV2 testParams (v2Cart 1 263 [])) = .error 0x0507 ∧
    textOf (decodeV2 testParams (v2Cart 1 15617 [])) = .error 0x0507 ∧
    textOf (decodeV2 testParams { v2Cart 1 264 [] with cartlen := 100 }) = .error 0x010B := by decide +kernel

/-- G4 with the test grammar: "hi", in the 18 bits read. -/
theorem test_decodeV2_G4 :
    (match v2Loop tgParams (v2Cart 2 267 [0xD0, 0xA4, 0x01]) 24 2 24
        { bitpos := 0, mtf := Vector.ofFn fun i => BitVec.ofNat 8 i.val, out := [] } with
      | .ok d => some (d.out, d.bitpos)
      | .error _ => none) = some ([0x68, 0x69], 18) := by decide +kernel

/-- G4b and G5: too few bits; a prefix the grammar rejects. -/
theorem test_v2Token_G5 :
    v2Exec tgParams (v2Cart 1 265 [0x01]) 8 1 { bitpos := 0, mtf := Vector.replicate 256 0, out := [] } =
      .error .v2Token ∧
    v2Exec tgParams (v2Cart 1 265 [0x82]) 8 0 { bitpos := 0, mtf := Vector.replicate 256 0, out := [] } =
      .error .v2Trunc := by decide +kernel

/-- B1..B4 and B5..B8. -/
theorem test_readUnary_B1 : readUnary [true, false, true, false] = some (1, [true, false]) ∧
    readUnary [true, true, true, false, false] = some (3, [false]) ∧ readUnary [true, true] = none := by decide

theorem test_readBits_B5 : (readBits 4 (wordBits 0xA5 8)).map (·.1) = some 0x5 ∧
    (readBits 8 (wordBits 0xA5 8)).map (·.1) = some 0xA5 ∧
    (readBits 12 (wordBits 0xA5 8 ++ wordBits 0x3C 8)).map (·.1) = some 0xCA5 ∧
    readBits 0 [true] = some (0, [true]) ∧ readBits 2 [true] = none := by decide

/-- B9. -/
theorem test_mtfTake_B9 : (mtfTake 3 (Vector.ofFn fun i => BitVec.ofNat 8 i.val)).1 = 3 ∧
    (mtfTake 3 (Vector.ofFn fun i => BitVec.ofNat 8 i.val)).2.toList.take 6 = [3, 0, 1, 2, 4, 5] := by decide +kernel

/-! ### The entry points -/

/-- Program P1, with MAGIC_V1 = 1 and a nonzero HDR6: the Cartridge's registers. -/
theorem test_decodeBytes_P1 :
    (match decodeBytes testParams (v1Cart 5 [0x01, 0x02, 0x03, 0x3C, 0x31]) with
      | .ok y => some (y.version, y.magic, y.dlen, y.hdr6, y.outlen, y.textlen, y.flags)
      | .error _ => none) = some (1, 1, 5, 0x1234, 6, 6, 0x01) := by decide +kernel

/-- S9: an image one pixel short. -/
theorem test_decodeImage_S9 : packCheck testParams { Arch.reset with bpp := 4, pixlen := 131068 } = some .packShort ∧
    textOf (decodeBytes testParams { Arch.reset with cartlen := 32767 }) = .error 0x010B := by decide +kernel

/-! ### The matcher (F and E rows) -/

/-- MBUF with these operands. -/
def mbufWith (split : Half) (bs : List Byte) : State :=
  run { Arch.reset.write .mbuf 0 bs with msplit := split, mbuflen := BitVec.ofNat 16 bs.length }

theorem test_find_F1 :
    (after .find (mbufWith 4 [0x0A, 0x14, 0x1E, 0x28, 0x0A, 0x14, 0x1E, 0x28, 0x32])).flags = 0x0C ∧
    (after .find (mbufWith 4 [0x0A, 0x14, 0x1E, 0x28, 0x0A, 0x14, 0x1E, 0x28, 0x32])).mlen = 4 ∧
    (after .find (mbufWith 4 [0x0A, 0x14, 0x1E, 0x28, 0x0A, 0x14, 0x1E, 0x28, 0x32])).mdist = 4 := by decide +kernel

/-- F2: the earliest position, not the longest match. -/
theorem test_find_F2 :
    (after .find (mbufWith 7 [5, 1, 2, 5, 1, 2, 3, 1, 2, 3])).flags = 0x04 ∧
    (after .find (mbufWith 7 [5, 1, 2, 5, 1, 2, 3, 1, 2, 3])).mlen = 2 ∧
    (after .find (mbufWith 7 [5, 1, 2, 5, 1, 2, 3, 1, 2, 3])).mdist = 6 := by decide +kernel

/-- E1, E5. -/
theorem test_encodeRef_E1 : refToken 256 20 = [0x01, 0x00, 0x3A, 0x14] ∧
    refToken 0xFFFF 0xFFFF = [0xFF, 0xFF, 0x3A, 0xFF, 0xFF] := by decide

/-- E4 as a command. -/
theorem test_encodeRef_E4 :
    (after .encodeRef (run { Arch.reset with elen := 0xFF, edist := 0x100 })).tok =
      [(0, 0xFF), (1, 0x3A), (2, 0x01), (3, 0x00)] ∧
    (after .encodeRef (run { Arch.reset with elen := 0xFF, edist := 0x100 })).toklen = 4 := by decide +kernel

/-! ### ENCODE (N rows) -/

/-- N5, N6: the order of the checks. -/
theorem test_encode_N5 :
    encodeCheck testParams { Arch.reset with bpp := 3, encSel := 1 } = some .encV1 ∧
    encodeCheck testParams { Arch.reset with bpp := 3, outlen := 20000 } = some .bpp := by decide +kernel

/-- N9, N11 and the first bytes N1 writes. -/
theorem test_encode_N9 :
    textCheck testParams { Arch.reset.write .out 0 [0x61, 0x00, 0x62] with outlen := 3 } = some .encTextNul ∧
    textCheck testParams { Arch.reset.write .out 0 [0xC3, 0x00] with outlen := 2 } = some .encTextUtf8 ∧
    (codeImage [0x68, 0x69]).take 4 = [0x68, 0x69, 0, 0] := by decide +kernel

/-! ### Housekeeping, host access, assembler (C rows, P1) -/

theorem test_nop_C2 : after .nop (run { Arch.reset with status := 0x0107 }) =
    run { Arch.reset with status := 0x0001 } := rfl

theorem test_illegalCmd_C3 : (after (.illegalCmd 0x0D) State.reset).status = 0x0113 ∧
    (after (.illegalCmd 0xFF) State.reset).status = 0x0113 := by decide +kernel

/-- C4: registers at their reset values, memory kept. -/
theorem test_softReset_C4 :
    after .softReset (run { Arch.reset with version := 0, outlen := 5, flags := 1, bpp := 4, cart := [(0, 7)] }) =
      run { Arch.reset with status := 0x0001, cart := [(0, 7)] } := rfl

/-- C8, C9. -/
theorem test_host_C8 : hostReadReg (hostWriteReg Arch.reset 0x02 0x1FF) 0x02 = 0xFF ∧
    hostReadReg Arch.reset 0x20 = 0 ∧ hostReadReg (hostWriteReg Arch.reset 0x05 1) 0x05 = 3 := by decide

/-- The BODY of program P1, and its CMD. -/
theorem test_assembler_P1 :
    asmV1 testParams [.tab 1, .tab 2, .tab 3, .bref 3 3] = some [0x01, 0x02, 0x03, 0x3C, 0x31] ∧
    command .decodeBytes = some (.set 0x00 0x07) := by decide

/-- Row G4's stream, assembled: prefix 0 and eight bits, twice. -/
theorem test_assembler_G4 : asmV2 [.pfx 0, .bits 8 0x68, .pfx 0, .bits 8 0x69] = [0xD0, 0xA4, 0x01] := by decide

/-! ### Witnesses: states and operands that meet a statement's hypotheses, at the ends of each clause's range -/

theorem witness_DecodeOfEncodeIsIdentity : (Instr.bref 195 15 15).wellFormed = true ∧
    (Instr.illegalCmd 0x0D).wellFormed = true ∧ (Instr.illegalCmd 0xFF).wellFormed = true := by decide

theorem witness_EncodingsAreUnique : decode (.v1 [0xFF, 0xFF]) = .ok (.bref 195 15 15) ∧
    decode (.command 0x0D) = .ok (.illegalCmd 0x0D) := by decide

theorem witness_CommandMapIsTheTable : 0x0D ≤ (0x0D : Byte).toNat ∧ 0x0D ≤ (0xFF : Byte).toNat := by decide

theorem witness_FirstByteDecidesV1Token : (0x00 : Byte).toNat = 0 ∧ 1 ≤ (0x01 : Byte).toNat ∧ (0x3B : Byte).toNat ≤ 0x3B ∧
    0x3C ≤ (0x3C : Byte).toNat ∧ 0x3C ≤ (0xFF : Byte).toNat := by decide

theorem witness_BrefOperandsHaveOneEncoding : (3135 ≤ 3135 ∧ 2 ≤ 17 ∧ 17 ≤ 17) ∧ 0 ≤ 3135 ∧ 2 ≤ 2 := by decide

theorem witness_ReadBitsIsLsbFirst : ([] : List Bool).length < 1 ∧ 1 ≤ [true].length ∧ 0 ≤ ([] : List Bool).length := by
  decide

theorem witness_StreamBitsAreLsbFirst : 0 < (Arch.reset.restBits 1 0).length ∧ 7 < (Arch.reset.restBits 8 0).length := by
  decide

/-- A state whose pixel operands pass: `n` bytes of PIX. -/
def imageState (n : Word) : State := run { Arch.reset with bpp := 4, pixlen := n }

theorem pixCap_le {n : Nat} (h : n ≤ 131072) : n ≤ Config.params.pixCap := le_trans h Config.params.pixCap_ge

theorem witness_ExtractCompletes : ∃ s : State, s.bpp = 4 ∧ s.pixlen.toNat ≤ Config.params.pixCap ∧
    s.pixlen.toNat % 4 = 0 ∧ 0 < min (s.pixlen.toNat / 4) 32768 :=
  ⟨imageState 131072, rfl, pixCap_le (by decide), by decide, by decide⟩

theorem witness_PixelChecksInOrder : (∃ s : State, s.bpp ≠ 4 ∧ s.encSel = 0) ∧
    ∃ s : State, s.bpp = 4 ∧ s.pixlen.toNat ≤ Config.params.pixCap ∧ s.pixlen.toNat % 4 ≠ 0 :=
  ⟨⟨State.reset, by decide, rfl⟩, imageState 5, rfl, pixCap_le (by decide), by decide⟩

theorem witness_PackCompletes : ∃ s : State, s.bpp = 4 ∧ s.pixlen.toNat ≤ Config.params.pixCap ∧
    s.pixlen.toNat % 4 = 0 ∧ 32768 ≤ s.pixlen.toNat / 4 :=
  ⟨imageState 131072, rfl, pixCap_le (by decide), by decide, by decide⟩

theorem witness_SmallImagesFail : ∃ s : State, s.bpp = 4 ∧ s.pixlen.toNat ≤ Config.params.pixCap ∧
    s.pixlen.toNat % 4 = 0 ∧ s.pixlen.toNat / 4 < 32768 ∧ s.encSel = 0 :=
  ⟨imageState 131068, rfl, pixCap_le (by decide), by decide, by decide, rfl⟩

/-- MAGIC_V1 = "ABCD". -/
def abcdParams : Params := { magicV1 := 0x41424344 }

theorem witness_ChecksOfEveryOpenParameter :
    (∃ (p : Params) (x : Arch), x.bpp = 4 ∧ p.pixCap < x.pixlen.toNat ∧ x.encSel = 0) ∧
    ∃ (p : Params) (x : Arch), x.bpp = 4 ∧ x.pixlen.toNat ≤ p.pixCap ∧ x.encSel = 0 ∧ x.pixlen.toNat % 4 = 0 ∧
      32768 ≤ x.pixlen.toNat / 4 ∧ x.outlen.toNat ≤ 15616 ∧ validUtf8 (x.bytes .out 0 x.outlen.toNat) = true ∧
      0 ∉ x.bytes .out 0 x.outlen.toNat ∧ leadingMagic (x.bytes .out 0 x.outlen.toNat) = p.magicV1 :=
  ⟨⟨testParams, { Arch.reset with bpp := 4, pixlen := 131076 }, rfl, by decide, rfl⟩,
    abcdParams,
    { Arch.reset with bpp := 4, pixlen := 131072, outlen := 4, out := [(0, 0x41), (1, 0x42), (2, 0x43), (3, 0x44)] },
    rfl, by decide, rfl, by decide, by decide, by decide, by decide, by decide, by decide⟩

theorem witness_ExtractPackRoundTrip : ∃ s : State, s.bpp = 4 ∧ s.pixlen.toNat ≤ Config.params.pixCap ∧
    s.pixlen.toNat % 4 = 0 ∧ 32768 ≤ s.pixlen.toNat / 4 := witness_PackCompletes

theorem witness_ClassifyIsTotal : (5 : Word) ≠ testParams.magicV1 ∧ (5 : Word) ≠ testParams.magicV2 := by decide

theorem witness_ShortCartFails : ∃ s : State, s.cartlen.toNat < 32768 ∧ 32767 ≤ s.cartlen.toNat :=
  ⟨run { Arch.reset with cartlen := 32767 }, by decide, by decide⟩

theorem cartWith_size (bs : List Byte) : (run (cartWith bs)).cartlen = 32768 := rfl

theorem cartWith_out (bs : List Byte) : (run (cartWith bs)).out = [] := rfl

theorem cartWith_cartlen (bs : List Byte) : 32768 ≤ (run (cartWith bs)).cartlen.toNat := by
  rw [cartWith_size]
  decide

/-- A code region of `n` bytes 0x41. -/
def filledRegion (n : Nat) : Arch := cartWith (List.replicate n 0x41)

theorem filledRegion_read {n i : Nat} (h : i < n) : (filledRegion n).read .cart (0x4300 + i) = 0x41 := by
  have e : (filledRegion n).read .cart (0x4300 + i) =
      (Arch.reset.write .cart 0x4300 (List.replicate n 0x41)).read .cart (0x4300 + i) := read_congr (sp := .cart) rfl _
  rw [e, read_write, dif_pos (by rw [List.length_replicate]; omega), List.getElem_replicate]

theorem filledRegion_end {n : Nat} (h : n = codeLen) : v0End (filledRegion n) n := by
  refine ⟨by omega, fun i hi => ?_, .inl h⟩
  rw [filledRegion_read hi]
  decide

theorem witness_DecodeV0Completes :
    (∃ (s : State) (z : Nat), 32768 ≤ s.cartlen.toNat ∧ v0End s.toArch z ∧ validUtf8 (s.bytes .cart 0x4300 z) = true) ∧
    (∃ (s : State) (z : Nat), 32768 ≤ s.cartlen.toNat ∧ v0End s.toArch z ∧
      validUtf8 (s.bytes .cart 0x4300 z) = false) ∧
    ∃ (s : State) (z : Nat), z = 15616 ∧ 32768 ≤ s.cartlen.toNat ∧ v0End s.toArch z := by
  refine ⟨⟨run (cartWith [0]), 0, by decide, ⟨by decide, by omega, .inr (by decide)⟩, by decide⟩,
    ⟨run (cartWith [0x80, 0]), 1, by decide, ⟨by decide, fun i hi => ?_, .inr (by decide)⟩, by decide⟩, ?_⟩
  · have : i = 0 := by omega
    subst this
    decide
  · obtain ⟨n, hn⟩ : ∃ n, n = codeLen := ⟨_, rfl⟩
    exact ⟨run (filledRegion n), n, hn, cartWith_cartlen _, filledRegion_end hn⟩

theorem witness_BytesAfterTerminatorDoNotMatter : ∃ (s s' : State) (z : Nat), z < 15616 ∧ s.read .cart (0x4300 + z) = 0 ∧
    (∀ a, a ≤ 0x4300 + z → s'.read .cart a = s.read .cart a) ∧ s'.cartlen = s.cartlen ∧ s'.out = s.out ∧
    s'.cart ≠ s.cart := by
  refine ⟨run (cartWith [0]), run (cartWith [0, 0xFF]), 0, by decide, by decide, fun a ha => ?_,
    (cartWith_size _).trans (cartWith_size _).symm, (cartWith_out _).trans (cartWith_out _).symm, by decide⟩
  have h : ∀ b : List Byte, (run (cartWith (0 :: b))).read .cart a = if 0x4300 ≤ a then 0 else Arch.reset.read .cart a := by
    intro b
    have e : (run (cartWith (0 :: b))).read .cart a = (Arch.reset.write .cart 0x4300 (0 :: b)).read .cart a :=
      read_congr (sp := .cart) rfl _
    rw [e, read_write]
    by_cases h : 0x4300 ≤ a
    · have : a - 0x4300 = 0 := by omega
      rw [dif_pos ⟨h, by simp; omega⟩, if_pos h]
      simp only [this, List.getElem_cons_zero]
    · rw [dif_neg (fun q => h q.1), if_neg h]
  rw [h, h]

/-- A V1 decode in progress, with this output so far. -/
def v1Run (out : List Byte) : Run := { start := Arch.reset, entry := .direct, dlen := 4, out := out }

/-- A state inside a V1 decode. -/
def inV1 (x : Arch) (out : List Byte) : State := { toArch := x, phase := .v1 (v1Run out), host := [] }

theorem witness_LitCompletes : ∃ (s : State) (r : Run), s.phase = .v1 r := ⟨inV1 Arch.reset [], _, rfl⟩

theorem witness_TabCompletes : ∃ (s : State) (r : Run), s.phase = .v1 r := ⟨inV1 Arch.reset [], _, rfl⟩

/-- Distance 16 and length 2, whichever way the nibbles go. -/
theorem witness_BrefCompletes : ∃ (s : State) (r : Run) (row : Fin 196) (h l : BitVec 4) (distance length : Nat),
    s.phase = .v1 r ∧ distance = row.val * 16 + (if Config.params.v1Nibbles = .doc then h.toNat else l.toNat) ∧
    length = (if Config.params.v1Nibbles = .doc then l.toNat else h.toNat) + 2 ∧ distance ≤ r.out.length ∧
    length ≤ distance :=
  ⟨inV1 Arch.reset (List.replicate 16 0x41), _, 1, 0, 0, 16, 2, rfl, by split <;> rfl, by split <;> rfl, by decide,
    by decide⟩

/-- Distance 0 and length 2; and distance 16 after 15 bytes. -/
theorem witness_BrefOutOfRangeFails :
    (∃ (s : State) (r : Run) (row : Fin 196) (h l : BitVec 4) (distance length : Nat), s.phase = .v1 r ∧
      distance = row.val * 16 + (if Config.params.v1Nibbles = .doc then h.toNat else l.toNat) ∧
      length = (if Config.params.v1Nibbles = .doc then l.toNat else h.toNat) + 2 ∧ distance < length) ∧
    ∃ (s : State) (r : Run) (row : Fin 196) (h l : BitVec 4) (distance length : Nat), s.phase = .v1 r ∧
      distance = row.val * 16 + (if Config.params.v1Nibbles = .doc then h.toNat else l.toNat) ∧
      length = (if Config.params.v1Nibbles = .doc then l.toNat else h.toNat) + 2 ∧ r.out.length < distance :=
  ⟨⟨inV1 Arch.reset [], _, 0, 0, 0, 0, 2, rfl, by split <;> rfl, by split <;> rfl, by decide⟩,
    ⟨inV1 Arch.reset (List.replicate 15 0x41), _, 1, 0, 0, 16, 2, rfl, by split <;> rfl, by split <;> rfl, by decide⟩⟩

theorem witness_TruncatedV1TokenFails :
    (∃ (s : State) (r : Run), s.phase = .v1 r ∧ 0x8000 ≤ 0x4308 + s.cursor) ∧
    (∃ (s : State) (r : Run), s.phase = .v1 r ∧ 0x4308 + s.cursor = 0x7FFF ∧ s.read .cart 0x7FFF = 0) ∧
    ∃ (s : State) (r : Run), s.phase = .v1 r ∧ 0x4308 + s.cursor = 0x7FFF ∧ 0x3C ≤ (s.read .cart 0x7FFF).toNat :=
  ⟨⟨inV1 { Arch.reset with cursor := 15608 } [], _, rfl, by decide⟩,
    ⟨inV1 { Arch.reset with cursor := 15607, cart := [(0x7FFF, 0)] } [], _, rfl, by decide, by decide⟩,
    ⟨inV1 { Arch.reset with cursor := 15607, cart := [(0x7FFF, 0x3C)] } [], _, rfl, by decide, by decide⟩⟩

/-- A V1 cartridge whose body is `LIT 0x41` and whose decompressed_len is 1. -/
def litCart : Arch := v1Cart 1 [0x00, 0x41]

/-- One LIT with decompressed_len 1 ends the loop under both values of V1_LOOP_BOUND. -/
theorem lit_loop (p : Params) {x : Arch} {b : Byte} (h : decodeV1Token (x.v1Window 0) = .ok (.lit b, []))
    (hd : x.dlenField = 1) : v1Loop p x x.dlenField 15608 { cursor := 0, out := [] } = .ok ⟨2, [b]⟩ := by
  have h1 : v1Continues p 1 { cursor := 0, out := [] } = true := by cases hb : p.v1LoopBound <;> simp [v1Continues, hb]
  have h2 : v1Continues p 1 ⟨2, [b]⟩ = false := by cases hb : p.v1LoopBound <;> simp [v1Continues, hb]
  have h3 : v1Overruns p 1 ⟨2, [b]⟩ = false := by simp [v1Overruns]
  have ht : v1Turn p x 1 { cursor := 0, out := [] } = .ok ⟨2, [b]⟩ := by
    rw [v1Turn, h]
    simp only [v1Exec, v1Lit, Nat.zero_add, List.nil_append, h3, Bool.false_eq_true, if_false]
  obtain ⟨n, hn⟩ : ∃ n, 15608 = n + 1 + 1 := ⟨15606, rfl⟩
  rw [hd, hn, v1Loop, if_pos h1, ht]
  simp only [v1Loop, h2, Bool.false_eq_true, if_false]

/-- It decodes to "A". -/
theorem litCart_loop (p : Params) : v1Loop p litCart litCart.dlenField 15608 { cursor := 0, out := [] } =
    .ok ⟨2, [0x41]⟩ := lit_loop p (by decide +kernel) (by decide +kernel)

/-- A first token BREF of distance 0, whichever way the nibbles go. -/
def brefCart : Arch := v1Cart 1 [0x3C, 0x00]

theorem brefCart_loop (p : Params) : v1Loop p brefCart brefCart.dlenField 15608 { cursor := 0, out := [] } =
    .error .v1BrefRange := by
  have hd : brefCart.dlenField = 1 := by decide +kernel
  have h1 : v1Continues p 1 { cursor := 0, out := [] } = true := by cases hb : p.v1LoopBound <;> simp [v1Continues, hb]
  have ht : decodeV1Token (brefCart.v1Window 0) = .ok (.bref 0 0 0, []) := by decide +kernel
  obtain ⟨n, hn⟩ : ∃ n, 15608 = n + 1 := ⟨15607, rfl⟩
  rw [hd, hn, v1Loop, if_pos h1, v1Turn, ht]
  cases hb : p.v1Nibbles <;> simp [v1Exec, v1Bref, v1Copy, brefDistance, brefLength, hb]

/-- The output is a text; it is no UTF-8; the loop fails. -/
theorem witness_DecodeV1Completes :
    (∃ (s : State) (d : V1State), 32768 ≤ s.cartlen.toNat ∧
      v1Loop Config.params s.toArch s.dlenField 15608 { cursor := 0, out := [] } = .ok d ∧ validUtf8 d.out = true) ∧
    (∃ s : State, 32768 ≤ s.cartlen.toNat ∧
      loopFailure V1State.out (v1Loop Config.params s.toArch s.dlenField 15608 { cursor := 0, out := [] }) 0x020B) ∧
    ∃ s : State, 32768 ≤ s.cartlen.toNat ∧
      loopFailure V1State.out (v1Loop Config.params s.toArch s.dlenField 15608 { cursor := 0, out := [] }) 0x040B :=
  ⟨⟨run litCart, _, by decide, litCart_loop Config.params, by decide⟩,
    ⟨run (v1Cart 1 [0x00, 0x80]), by decide,
      .inl ⟨_, lit_loop Config.params (x := v1Cart 1 [0x00, 0x80]) (b := 0x80) (by decide +kernel) (by decide +kernel),
        by decide, rfl⟩⟩,
    ⟨run brefCart, by decide, .inr ⟨_, brefCart_loop Config.params, rfl⟩⟩⟩

theorem witness_TokenStepsComposeDecodeV1 : ∃ s : State, s.phase = .idle ∧ 32768 ≤ s.cartlen.toNat ∧ s.dlenField ≠ 0 :=
  ⟨run litCart, rfl, by decide, by decide +kernel⟩

theorem litCart_decodes (p : Params) : ∃ y, decodeV1 p litCart = .ok y := by
  have hs : shortCart litCart = false := by decide
  have hl : v1Loop p litCart litCart.dlenField v1BodyLen v1Start = .ok ⟨2, [0x41]⟩ := litCart_loop p
  have hu : validUtf8 [0x41] = true := by decide
  refine ⟨{ litCart.setText [0x41] with cursor := 2, dlen := litCart.dlenField, hdr6 := litCart.hdr6Field }, ?_⟩
  rw [decodeV1, hs, if_neg Bool.false_ne_true, v1Body, hl]
  simp only [v1Finish, hu, if_true]

theorem witness_V1OutputIsBounded : ∃ (p : Params) (x y : Arch), decodeV1 p x = .ok y :=
  ⟨testParams, litCart, litCart_decodes _⟩

theorem witness_OutputModeIsExact : ∃ (p : Params) (x y : Arch), p.v1LoopBound = .output ∧ decodeV1 p x = .ok y :=
  have ⟨y, h⟩ := litCart_decodes outputParams
  ⟨outputParams, litCart, y, rfl, h⟩

theorem witness_CursorModeEndsAtDlen : ∃ (p : Params) (x y : Arch), p.v1LoopBound = .cursor ∧ decodeV1 p x = .ok y :=
  have ⟨y, h⟩ := litCart_decodes testParams
  ⟨testParams, litCart, y, rfl, h⟩

/-- Eight header bytes, the identity table, a stream. -/
theorem identity_table {hdr : List Byte} (hh : hdr.length = 8) (stream : List Byte) {i : Nat} (hi : i < 256) :
    (cartWith (hdr ++ (List.range 256).map (BitVec.ofNat 8) ++ stream)).read .cart (0x4308 + i) = BitVec.ofNat 8 i := by
  rw [cartWith]
  generalize hb : hdr ++ (List.range 256).map (BitVec.ofNat 8) ++ stream = bs
  have e : ({ Arch.reset.write .cart 0x4300 bs with cartlen := 32768 } : Arch).read .cart (0x4308 + i) =
      (Arch.reset.write .cart 0x4300 bs).read .cart (0x4308 + i) := read_congr (sp := .cart) rfl _
  have hl : 264 ≤ bs.length := by
    rw [← hb]
    simp [hh]
    omega
  have hg : bs[8 + i]? = some (BitVec.ofNat 8 i) := by
    rw [← hb, List.append_assoc, List.getElem?_append_right (by omega), List.getElem?_append_left (by simp; omega), hh]
    simp [hi]
  rw [e, read_write, dif_pos (by omega)]
  have : 0x4308 + i - 0x4300 = 8 + i := by omega
  simp only [this]
  rw [List.getElem?_eq_getElem (by omega)] at hg
  exact Option.some.inj hg

theorem identity_permutation {hdr : List Byte} (hh : hdr.length = 8) (stream : List Byte) :
    tableIsPermutation (cartWith (hdr ++ (List.range 256).map (BitVec.ofNat 8) ++ stream)) := by
  intro i j hij hj h
  rw [identity_table hh _ (by omega), identity_table hh _ hj] at h
  have := congrArg BitVec.toNat h
  simp only [BitVec.toNat_ofNat] at this
  omega

theorem v2Cart_permutation (dlen clen : Half) (stream : List Byte) : tableIsPermutation (v2Cart dlen clen stream) :=
  identity_permutation rfl stream

/-- A V2 cartridge whose table holds 0 throughout. -/
def zeroTable (clen : Half) : Arch :=
  cartWith ([0, 0, 0, 2, 0, 0, clen.extractLsb' 8 8, clen.extractLsb' 0 8, 0, 0])

theorem witness_V2HeaderChecksInOrder :
    (∃ s : State, 32768 ≤ s.cartlen.toNat ∧ s.hdr6Field.toNat = 263) ∧
    (∃ s : State, 32768 ≤ s.cartlen.toNat ∧ s.hdr6Field.toNat = 15617) ∧
    (∃ s : State, 32768 ≤ s.cartlen.toNat ∧ s.hdr6Field.toNat = 264 ∧ ¬ tableIsPermutation s.toArch) ∧
    ∃ s : State, 32768 ≤ s.cartlen.toNat ∧ s.hdr6Field.toNat = 15616 ∧ ¬ tableIsPermutation s.toArch :=
  have bad : ∀ clen : Half, (zeroTable clen).read .cart (0x4308 + 0) = (zeroTable clen).read .cart (0x4308 + 1) :=
    fun _ => rfl
  ⟨⟨run (zeroTable 263), by decide, by decide +kernel⟩, ⟨run (zeroTable 15617), by decide, by decide +kernel⟩,
    ⟨run (zeroTable 264), by decide, by decide +kernel, fun h => h 0 1 (by decide) (by decide) (bad 264)⟩,
    ⟨run (zeroTable 15616), by decide, by decide +kernel, fun h => h 0 1 (by decide) (by decide) (bad 15616)⟩⟩

theorem witness_NoGrammarIsUnsupported :
    (∃ (p : Params) (x : Arch), p.v2Grammar = none ∧ 32768 ≤ x.cartlen.toNat ∧ x.hdr6Field.toNat = 264 ∧
      tableIsPermutation x ∧ x.dlenField ≠ 0) ∧
    ∃ (p : Params) (x : Arch), p.v2Grammar = none ∧ 32768 ≤ x.cartlen.toNat ∧ x.hdr6Field.toNat = 15616 ∧
      tableIsPermutation x ∧ x.dlenField = 0 :=
  ⟨⟨testParams, v2Cart 1 264 [], rfl, by decide, by decide +kernel, v2Cart_permutation 1 264 [], by decide +kernel⟩,
    ⟨testParams, v2Cart 0 15616 [], rfl, by decide, by decide +kernel, v2Cart_permutation 0 15616 [], by decide +kernel⟩⟩

theorem witness_V2TokenCompletes : ∃ (s : State) (r : Run) (nbits : Nat), s.phase = .v2 r nbits :=
  ⟨{ State.reset with phase := .v2 (v1Run []) 8 }, _, _, rfl⟩

/-- A grammar in which every token emits the byte 0x80. -/
def badGrammar : Grammar where
  run _ _ m _ := .ok 0 [0x80] m
  used_le _ _ _ _ _ _ _ h := by
    cases h
    exact Nat.zero_le _
  determined _ _ _ _ _ _ _ _ h _ _ := h

/-- The output is a text; no token is there; a grammar makes an output that is no UTF-8. -/
theorem witness_DecodeV2Completes :
    (∃ (s : State) (d : V2State), 32768 ≤ s.cartlen.toNat ∧ s.hdr6Field.toNat = 264 ∧ tableIsPermutation s.toArch ∧
      v2Loop Config.params s.toArch (8 * (s.hdr6Field.toNat - 264)) s.dlenField (8 * (s.hdr6Field.toNat - 264))
        { bitpos := 0, mtf := s.mtfField, out := [] } = .ok d ∧ validUtf8 d.out = true) ∧
    (∃ (s : State) (st : Half), 32768 ≤ s.cartlen.toNat ∧ s.hdr6Field.toNat = 264 ∧ tableIsPermutation s.toArch ∧
      loopFailure V2State.out
        (v2Loop Config.params s.toArch (8 * (s.hdr6Field.toNat - 264)) s.dlenField (8 * (s.hdr6Field.toNat - 264))
          { bitpos := 0, mtf := s.mtfField, out := [] }) st) ∧
    ∃ (p : Params) (x : Arch) (d : V2State), 32768 ≤ x.cartlen.toNat ∧ x.hdr6Field.toNat = 265 ∧ tableIsPermutation x ∧
      v2Loop p x (8 * (x.hdr6Field.toNat - 264)) x.dlenField (8 * (x.hdr6Field.toNat - 264))
        { bitpos := 0, mtf := x.mtfField, out := [] } = .ok d ∧ validUtf8 d.out = false := by
  have h (dlen clen : Half) (stream : List Byte) (hh : (v2Cart dlen clen stream).hdr6Field.toNat = clen.toNat)
      (hd : (v2Cart dlen clen stream).dlenField = dlen) (p : Params) :
      v2Loop p (v2Cart dlen clen stream) (8 * ((v2Cart dlen clen stream).hdr6Field.toNat - 264))
        (v2Cart dlen clen stream).dlenField (8 * ((v2Cart dlen clen stream).hdr6Field.toNat - 264))
        { bitpos := 0, mtf := (v2Cart dlen clen stream).mtfField, out := [] } =
      v2Loop p (v2Cart dlen clen stream) (8 * (clen.toNat - 264)) dlen (8 * (clen.toNat - 264))
        { bitpos := 0, mtf := (v2Cart dlen clen stream).mtfField, out := [] } := by
    rw [hh, hd]
  have h0 := h 0 264 [] (by decide +kernel) (by decide +kernel) Config.params
  have h1 := h 1 264 [] (by decide +kernel) (by decide +kernel) Config.params
  have h2 := h 1 265 [0] (by decide +kernel) (by decide +kernel) { testParams with v2Grammar := some badGrammar }
  have hu : readUnary ((v2Cart 1 265 [0]).restBits 8 0) = some (0, List.replicate 7 false) := by decide +kernel
  refine ⟨⟨run (v2Cart 0 264 []), _, by decide, by decide +kernel, v2Cart_permutation 0 264 [], h0.trans rfl, by decide⟩,
    ⟨run (v2Cart 1 264 []), _, by decide, by decide +kernel, v2Cart_permutation 1 264 [],
      .inr ⟨v2NoToken Config.params, h1.trans rfl, rfl⟩⟩,
    { testParams with v2Grammar := some badGrammar }, v2Cart 1 265 [0],
    { bitpos := 1, mtf := (v2Cart 1 265 [0]).mtfField, out := [0x80] }, by decide, by decide +kernel,
    v2Cart_permutation 1 265 [0], h2.trans ?_, by decide⟩
  rw [show 8 * ((265 : Half).toNat - 264) = 7 + 1 from rfl, v2Loop, if_pos (by decide), v2Turn, hu]
  rfl

theorem witness_TokenStepsComposeDecodeV2 : ∃ s : State, s.phase = .idle ∧ 32768 ≤ s.cartlen.toNat ∧ s.dlenField ≠ 0 ∧
    s.hdr6Field.toNat = 265 ∧ tableIsPermutation s.toArch :=
  ⟨run (v2Cart 1 265 []), rfl, by decide, by decide +kernel, by decide +kernel, v2Cart_permutation 1 265 []⟩

theorem witness_MtfTakeMovesToFront : ∃ m : Mtf, m.toList.Nodup := by
  refine ⟨(v2Cart 0 264 []).mtfField, ?_⟩
  have := (isPermutation_mtfField (v2Cart 0 264 [])).mpr (v2Cart_permutation 0 264 [])
  simpa [isPermutation] using this

theorem witness_FindCompletes :
    (∃ (s : State) (S C : List Byte), s.msplit.toNat ≤ s.mbuflen.toNat ∧ s.mbuflen.toNat ≤ 32768 ∧
      S = s.bytes .mbuf 0 s.msplit.toNat ∧
      C = s.bytes .mbuf s.msplit.toNat (s.mbuflen.toNat - s.msplit.toNat) ∧ C = []) ∧
    (∃ (s : State) (S C C' : List Byte) (c : Byte), s.msplit.toNat ≤ s.mbuflen.toNat ∧ s.mbuflen.toNat ≤ 32768 ∧
      S = s.bytes .mbuf 0 s.msplit.toNat ∧
      C = s.bytes .mbuf s.msplit.toNat (s.mbuflen.toNat - s.msplit.toNat) ∧ C = c :: C' ∧ c ∉ S) ∧
    (∃ (s : State) (S C C' : List Byte) (c : Byte) (p : Nat), s.msplit.toNat ≤ s.mbuflen.toNat ∧
      s.mbuflen.toNat ≤ 32768 ∧ S = s.bytes .mbuf 0 s.msplit.toNat ∧
      C = s.bytes .mbuf s.msplit.toNat (s.mbuflen.toNat - s.msplit.toNat) ∧ C = c :: C' ∧ p < S.length ∧
      S[p]? = some c ∧ ∀ q, q < p → S[q]? ≠ some c) ∧
    ∃ s : State, s.msplit.toNat ≤ s.mbuflen.toNat ∧ s.mbuflen.toNat = 32768 :=
  ⟨⟨mbufWith 0 [], _, _, by decide, by decide, rfl, rfl, rfl⟩,
    ⟨mbufWith 1 [7, 8], _, _, [], 8, by decide, by decide, rfl, rfl, by decide, by decide⟩,
    ⟨mbufWith 2 [7, 8, 8], _, _, [], 8, 1, by decide, by decide, rfl, rfl, by decide, by decide, by decide, by
      intro q hq
      have : q = 0 := by omega
      subst this
      decide⟩,
    ⟨run { Arch.reset with mbuflen := 32768, msplit := 32768 }, by decide, by decide⟩⟩

theorem witness_FindRangeCheck : (∃ s : State, 32768 < s.mbuflen.toNat) ∧ ∃ s : State, s.mbuflen.toNat < s.msplit.toNat :=
  ⟨⟨run { Arch.reset with mbuflen := 32769 }, by decide⟩, ⟨run { Arch.reset with msplit := 1 }, by decide⟩⟩

theorem leadingMagic_nil : leadingMagic [] ≠ Config.params.magicV1 ∧ leadingMagic [] ≠ Config.params.magicV2 :=
  ⟨fun h => Config.params.magicV1_ne_zero (h.symm.trans (by decide)),
    fun h => Config.params.magicV2_ne_zero (h.symm.trans (by decide))⟩

theorem witness_EncodeCompletes : ∃ (s : State) (t : List Byte), t = s.bytes .out 0 s.outlen.toNat ∧ s.encSel = 0 ∧
    s.bpp = 4 ∧ s.pixlen.toNat ≤ Config.params.pixCap ∧ s.pixlen.toNat % 4 = 0 ∧ 32768 ≤ s.pixlen.toNat / 4 ∧
    s.outlen.toNat ≤ 15616 ∧ validUtf8 t = true ∧ 0 ∉ t ∧ leadingMagic t ≠ Config.params.magicV1 ∧
    leadingMagic t ≠ Config.params.magicV2 :=
  ⟨imageState 131072, [], rfl, rfl, rfl, pixCap_le (by decide), by decide, by decide, by decide, by decide, by decide,
    leadingMagic_nil⟩

theorem witness_EncodeChecksCompressionFirst : (∃ s : State, s.encSel = 3) ∧ (∃ s : State, s.encSel = 1) ∧
    ∃ s : State, s.encSel = 2 :=
  ⟨⟨run { Arch.reset with encSel := 3 }, rfl⟩, ⟨run { Arch.reset with encSel := 1 }, rfl⟩,
    ⟨run { Arch.reset with encSel := 2 }, rfl⟩⟩

/-- The four bytes of a magic, first byte first. -/
def magicBytes (m : Word) : List Byte := [m.extractLsb' 24 8, m.extractLsb' 16 8, m.extractLsb' 8 8, m.extractLsb' 0 8]

theorem be32_magicBytes (m : Word) :
    be32 (m.extractLsb' 24 8) (m.extractLsb' 16 8) (m.extractLsb' 8 8) (m.extractLsb' 0 8) = m := by
  apply BitVec.eq_of_toNat_eq
  rw [be32_toNat]
  have := m.isLt
  simp only [BitVec.extractLsb'_toNat, Nat.shiftRight_eq_div_pow]
  omega

/-- An image that holds a cartridge, with these bytes in OUT and this OUTLEN. -/
def textState (n : Word) (bs : List Byte) : State :=
  run { Arch.reset with bpp := 4, pixlen := 131072, outlen := n, out := cellsFrom 0 bs }

theorem witness_EncodeChecksTextInOrder :
    (∀ n bs, (textState n bs).encSel = 0 ∧ (textState n bs).bpp = 4 ∧
      (textState n bs).pixlen.toNat ≤ Config.params.pixCap ∧ (textState n bs).pixlen.toNat % 4 = 0 ∧
      32768 ≤ (textState n bs).pixlen.toNat / 4) ∧
    15616 < (textState 15617 []).outlen.toNat ∧
    validUtf8 ((textState 1 [0xC3]).bytes .out 0 1) = false ∧
    (0 ∈ (textState 1 [0x00]).bytes .out 0 1 ∧ validUtf8 ((textState 1 [0x00]).bytes .out 0 1) = true) ∧
    leadingMagic ((textState 4 (magicBytes Config.params.magicV1)).bytes .out 0 4) = Config.params.magicV1 ∧
    leadingMagic ((textState 4 (magicBytes Config.params.magicV2)).bytes .out 0 4) = Config.params.magicV2 := by
  have hm : ∀ m : Word, leadingMagic ((textState 4 (magicBytes m)).bytes .out 0 4) = m := fun m => be32_magicBytes m
  exact ⟨fun n bs => ⟨rfl, rfl, pixCap_le (n := 131072) (by decide), (by decide : 131072 % 4 = 0),
      (by decide : 32768 ≤ 131072 / 4)⟩,
    by decide, by decide, by decide, hm _, hm _⟩

theorem witness_EncodeDecodeRoundTrip : ∃ (s u : State) (t : List Byte), t = s.bytes .out 0 s.outlen.toNat ∧
    exec .encode s = .next u ∧ u.status = 0x0001 := by
  have hc : encodeCheck Config.params (imageState 131072).toArch = none :=
    encodeCheck_eq_none.mpr ⟨by decide, packCheck_eq_none.mpr ⟨⟨rfl, pixCap_le (by decide), by decide⟩, by decide⟩,
      textCheck_eq_none.mpr ⟨by decide, by decide, by decide, leadingMagic_nil⟩⟩
  have he : encodeText Config.params (imageState 131072).toArch = .ok (encodeBody (imageState 131072).toArch) := by
    rw [encodeText, hc]
  refine ⟨imageState 131072, (imageState 131072).complete (.ok (encodeBody (imageState 131072).toArch)), _, rfl, ?_, rfl⟩
  rw [exec, execEncode, he]

/-- A cartridge with a magic, the four header bytes after it, and the identity table. -/
def magicCart (m : Word) (fields : List Byte) : Arch :=
  cartWith (magicBytes m ++ fields ++ (List.range 256).map (BitVec.ofNat 8) ++ [])

theorem magicCart_magic (m : Word) (fields : List Byte) : (magicCart m fields).magicField = m := be32_magicBytes m

theorem classify_zero : classify Config.params 0 = .v0 := by
  rw [classify, if_neg (Ne.symm Config.params.magicV1_ne_zero), if_neg (Ne.symm Config.params.magicV2_ne_zero)]

theorem classify_magicV1 : classify Config.params Config.params.magicV1 = .v1 := by
  rw [classify, if_pos rfl]

theorem classify_magicV2 : classify Config.params Config.params.magicV2 = .v2 := by
  rw [classify, if_neg (Ne.symm Config.params.magic_ne), if_pos rfl]

theorem selected_v0 : selectedText (magicCart 0 [0, 0, 0, 0]) [] := by
  refine ⟨by decide, ?_⟩
  rw [magicCart_magic, classify_zero]
  exact ⟨⟨by decide, by simp, .inr rfl⟩, rfl⟩

theorem selected_v1 : selectedText (magicCart Config.params.magicV1 [0, 0, 0, 0]) [] := by
  refine ⟨by decide, ?_⟩
  rw [magicCart_magic, classify_magicV1]
  have hd : (magicCart Config.params.magicV1 [0, 0, 0, 0]).dlenField = 0 := rfl
  obtain ⟨n, hn⟩ : ∃ n, 15608 = n + 1 := ⟨15607, rfl⟩
  refine ⟨0, ?_⟩
  rw [hd, hn, v1Loop, if_neg (by cases hb : Config.params.v1LoopBound <;> simp [v1Continues, hb])]

theorem selected_v2 : selectedText (magicCart Config.params.magicV2 [0, 0, 1, 8]) [] := by
  refine ⟨by decide, ?_⟩
  rw [magicCart_magic, classify_magicV2]
  have hh : (magicCart Config.params.magicV2 [0, 0, 1, 8]).hdr6Field = 264 := rfl
  have hd : (magicCart Config.params.magicV2 [0, 0, 1, 8]).dlenField = 0 := rfl
  simp only [hh, hd]
  exact ⟨by decide, by decide, identity_permutation rfl [], 0, _, rfl⟩

/-- Of three magics one is that of neither V1 nor V2. -/
theorem some_v0_magic : ∃ j : Fin 3, classify Config.params (be32 (BitVec.ofNat 8 (0x80 + j.val)) 0 0 0) = .v0 := by
  have h : ∀ m, m ≠ Config.params.magicV1 → m ≠ Config.params.magicV2 → classify Config.params m = .v0 := fun m h1 h2 => by
    rw [classify, if_neg h1, if_neg h2]
  by_contra hn
  have hc : ∀ j : Fin 3, be32 (BitVec.ofNat 8 (0x80 + j.val)) 0 0 0 = Config.params.magicV1 ∨
      be32 (BitVec.ofNat 8 (0x80 + j.val)) 0 0 0 = Config.params.magicV2 := fun j => by
    by_contra hj
    rw [not_or] at hj
    exact hn ⟨j, h _ hj.1 hj.2⟩
  have d01 : be32 (BitVec.ofNat 8 (0x80 + (0 : Fin 3).val)) 0 0 0 ≠ be32 (BitVec.ofNat 8 (0x80 + (1 : Fin 3).val)) 0 0 0 := by
    decide
  have d02 : be32 (BitVec.ofNat 8 (0x80 + (0 : Fin 3).val)) 0 0 0 ≠ be32 (BitVec.ofNat 8 (0x80 + (2 : Fin 3).val)) 0 0 0 := by
    decide
  have d12 : be32 (BitVec.ofNat 8 (0x80 + (1 : Fin 3).val)) 0 0 0 ≠ be32 (BitVec.ofNat 8 (0x80 + (2 : Fin 3).val)) 0 0 0 := by
    decide
  rcases hc 0 with h0 | h0 <;> rcases hc 1 with h1 | h1 <;> rcases hc 2 with h2 | h2
  · exact d01 (h0.trans h1.symm)
  · exact d01 (h0.trans h1.symm)
  · exact d02 (h0.trans h2.symm)
  · exact d12 (h1.trans h2.symm)
  · exact d12 (h1.trans h2.symm)
  · exact d02 (h0.trans h2.symm)
  · exact d01 (h0.trans h1.symm)
  · exact d01 (h0.trans h1.symm)

/-- One byte, a UTF-8 continuation byte, then zeros: V0 fails with UTF8. -/
theorem selectedFailure_v0 {x : Arch} {j : Fin 3} (h0 : x.read .cart 0x4300 = BitVec.ofNat 8 (0x80 + j.val))
    (hz : ∀ i, i < 3 → x.read .cart (0x4301 + i) = 0)
    (hj : classify Config.params (be32 (BitVec.ofNat 8 (0x80 + j.val)) 0 0 0) = .v0) : selectedFailure x 0x020B := by
  have hm : x.magicField = be32 (BitVec.ofNat 8 (0x80 + j.val)) 0 0 0 := by
    have e : x.magicField = be32 (x.read .cart 0x4300) (x.read .cart (0x4301 + 0)) (x.read .cart (0x4301 + 1))
      (x.read .cart (0x4301 + 2)) := rfl
    rw [e, h0, hz 0 (by omega), hz 1 (by omega), hz 2 (by omega)]
  have hn : ∀ j : Fin 3, BitVec.ofNat 8 (0x80 + j.val) ≠ 0 := by decide
  have hu : ∀ j : Fin 3, validUtf8 [BitVec.ofNat 8 (0x80 + j.val)] = false := by decide
  rw [selectedFailure, hm, hj]
  refine ⟨1, ⟨by decide, fun i hi => ?_, .inr (hz 0 (by omega))⟩, ?_, rfl⟩
  · have : i = 0 := by omega
    subst this
    show x.read .cart 0x4300 ≠ 0
    rw [h0]
    exact hn j
  · show validUtf8 [x.read .cart 0x4300] = false
    rw [h0]
    exact hu j

/-- One cartridge for each version: an empty V0 text, an empty V1 and an empty V2 stream; and for each version one that
fails: V0 and V1 texts that are no UTF-8, and a V2 header of compressed_len 0. -/
theorem witness_DecodeBytesCompletes :
    (∃ (s : State) (text : List Byte), 32768 ≤ s.cartlen.toNat ∧ selectedText s.toArch text ∧
      classify Config.params s.magicField = .v0) ∧
    (∃ (s : State) (text : List Byte), 32768 ≤ s.cartlen.toNat ∧ selectedText s.toArch text ∧
      classify Config.params s.magicField = .v1) ∧
    (∃ (s : State) (text : List Byte), 32768 ≤ s.cartlen.toNat ∧ selectedText s.toArch text ∧
      classify Config.params s.magicField = .v2) ∧
    (∃ s : State, 32768 ≤ s.cartlen.toNat ∧ selectedFailure s.toArch 0x020B ∧ s.read .cart 0x4301 = 0) ∧
    (∃ s : State, 32768 ≤ s.cartlen.toNat ∧ selectedFailure s.toArch 0x020B ∧
      classify Config.params s.magicField = .v1) ∧
    ∃ s : State, 32768 ≤ s.cartlen.toNat ∧ selectedFailure s.toArch 0x0507 ∧
      classify Config.params s.magicField = .v2 := by
  refine ⟨⟨run (magicCart 0 [0, 0, 0, 0]), [], cartWith_cartlen _, selected_v0,
      (congrArg _ (magicCart_magic 0 _)).trans classify_zero⟩,
    ⟨run (magicCart Config.params.magicV1 [0, 0, 0, 0]), [], cartWith_cartlen _, selected_v1,
      (congrArg _ (magicCart_magic Config.params.magicV1 _)).trans classify_magicV1⟩,
    ⟨run (magicCart Config.params.magicV2 [0, 0, 1, 8]), [], cartWith_cartlen _, selected_v2,
      (congrArg _ (magicCart_magic Config.params.magicV2 _)).trans classify_magicV2⟩, ?_, ?_, ?_⟩
  · obtain ⟨j, hj⟩ := some_v0_magic
    refine ⟨run (cartWith [BitVec.ofNat 8 (0x80 + j.val), 0, 0, 0]), cartWith_cartlen _,
      selectedFailure_v0 (j := j) rfl (fun i hi => ?_) hj, rfl⟩
    have : i = 0 ∨ i = 1 ∨ i = 2 := by omega
    rcases this with rfl | rfl | rfl <;> rfl
  · have hm : (cartWith (magicBytes Config.params.magicV1 ++ [0, 1, 0, 0, 0x00, 0x80])).magicField =
        Config.params.magicV1 := be32_magicBytes _
    refine ⟨run (cartWith (magicBytes Config.params.magicV1 ++ [0, 1, 0, 0, 0x00, 0x80])), cartWith_cartlen _, ?_,
      (congrArg _ hm).trans classify_magicV1⟩
    rw [selectedFailure]
    simp only [run, hm, classify_magicV1]
    exact .inl ⟨_, lit_loop Config.params (b := 0x80) rfl rfl, by decide, rfl⟩
  · refine ⟨run (magicCart Config.params.magicV2 [0, 0, 0, 0]), cartWith_cartlen _, ?_,
      (congrArg _ (magicCart_magic Config.params.magicV2 _)).trans classify_magicV2⟩
    rw [selectedFailure]
    show match classify Config.params (magicCart Config.params.magicV2 [0, 0, 0, 0]).magicField with
      | .v0 => _
      | .v1 => _
      | .v2 => _
    rw [magicCart_magic, classify_magicV2]
    have hh : (magicCart Config.params.magicV2 [0, 0, 0, 0]).hdr6Field = 0 := rfl
    exact .inl ⟨.inl (by
      show (magicCart Config.params.magicV2 [0, 0, 0, 0]).hdr6Field.toNat < 264
      rw [hh]
      decide), rfl⟩

/-- An image whose pixels 0x4300 to 0x4303 carry zero bytes. -/
def zeroHeaderImage : State := run { Arch.reset.write .pix 0x10C00 (List.replicate 16 0x80) with bpp := 4, pixlen := 131072 }

theorem zeroHeaderImage_pixel {i : Nat} (h : i < 4) : pixelByte zeroHeaderImage.toArch (0x4300 + i) = 0 := by
  have : i = 0 ∨ i = 1 ∨ i = 2 ∨ i = 3 := by omega
  rcases this with rfl | rfl | rfl | rfl <;> decide +kernel

theorem imageCartridge_read (s : State) {k : Nat} (h : k < 32768) :
    (imageCartridge s).read .cart k = pixelByte s.toArch k := by
  have := read_extractBytes s.toArch 32768 k
  rw [if_pos h] at this
  exact this

theorem zeroHeaderImage_cart {i : Nat} (h : i < 4) : (imageCartridge zeroHeaderImage).read .cart (0x4300 + i) = 0 := by
  rw [imageCartridge_read _ (by omega), zeroHeaderImage_pixel h]

/-- An image whose pixel 0x4300 carries a UTF-8 continuation byte, and whose next three carry zero bytes. -/
def badTextImage (j : Fin 3) : State :=
  run { Arch.reset.write .pix 0x10C00 ([0x80, 0x80, BitVec.ofNat 8 (0x80 + j.val), 0x82] ++ List.replicate 12 0x80) with
    bpp := 4, pixlen := 131072 }

theorem badTextImage_pixlen (j : Fin 3) : (badTextImage j).pixlen = 131072 := rfl

theorem badTextImage_first (j : Fin 3) :
    (imageCartridge (badTextImage j)).read .cart 0x4300 = BitVec.ofNat 8 (0x80 + j.val) := by
  rw [imageCartridge_read _ (by omega)]
  revert j
  decide +kernel

theorem badTextImage_next (j : Fin 3) {i : Nat} (h : i < 3) :
    (imageCartridge (badTextImage j)).read .cart (0x4301 + i) = 0 := by
  rw [imageCartridge_read _ (by omega)]
  have : i = 0 ∨ i = 1 ∨ i = 2 := by omega
  revert j
  rcases this with rfl | rfl | rfl <;> decide +kernel

theorem witness_DecodeImageCompletes :
    (∃ (s : State) (text : List Byte), s.bpp = 4 ∧ s.pixlen.toNat ≤ Config.params.pixCap ∧ s.pixlen.toNat % 4 = 0 ∧
      32768 ≤ s.pixlen.toNat / 4 ∧ selectedText (imageCartridge s) text) ∧
    ∃ s : State, s.bpp = 4 ∧ s.pixlen.toNat ≤ Config.params.pixCap ∧ s.pixlen.toNat % 4 = 0 ∧
      32768 ≤ s.pixlen.toNat / 4 ∧ selectedFailure (imageCartridge s) 0x020B := by
  refine ⟨?_, ?_⟩
  · have hm : (imageCartridge zeroHeaderImage).magicField = 0 := by
      rw [Arch.magicField, show codeBase = 0x4300 + 0 from rfl, zeroHeaderImage_cart (by omega),
        show 0x4300 + 0 + 1 = 0x4300 + 1 from rfl, zeroHeaderImage_cart (by omega),
        show 0x4300 + 0 + 2 = 0x4300 + 2 from rfl, zeroHeaderImage_cart (by omega),
        show 0x4300 + 0 + 3 = 0x4300 + 3 from rfl, zeroHeaderImage_cart (by omega)]
      decide
    refine ⟨zeroHeaderImage, [], rfl, pixCap_le (by decide), by decide, by decide, by decide, ?_⟩
    rw [hm, classify_zero]
    exact ⟨⟨by decide, by simp, .inr (zeroHeaderImage_cart (i := 0) (by omega))⟩, rfl⟩
  · obtain ⟨j, hj⟩ := some_v0_magic
    exact ⟨badTextImage j, rfl, pixCap_le (by rw [badTextImage_pixlen]; decide), by rw [badTextImage_pixlen]; decide,
      by rw [badTextImage_pixlen]; decide,
      selectedFailure_v0 (badTextImage_first j) (fun _ hi => badTextImage_next j hi) hj⟩

theorem witness_DecodeBytesIsIdempotent : ∃ s t u : State, exec .decodeBytes s = .next t ∧ exec .decodeBytes t = .next u :=
  ⟨run (magicCart 0 [0, 0, 0, 0]), _, _, rfl, rfl⟩

theorem witness_DirectDecodersBuildNoCartridge : (∃ s t : State, exec .decodeV0 s = .next t) ∧
    (∃ s t : State, exec .decodeV1 s = .next t) ∧ ∃ s t : State, exec .decodeV2 s = .next t :=
  ⟨⟨run (cartWith [0]), _, rfl⟩, ⟨run litCart, _, rfl⟩, ⟨run (v2Cart 0 264 []), _, rfl⟩⟩

theorem witness_FailedCommandsChangeOnlyStatus : ∃ (s t : State) (i : Instr), isCommand i ∧ exec i s = .next t ∧
    statusErrBit t.status = true :=
  ⟨State.reset, State.reset.complete (.error .shortCart), .decodeV0, ⟨0x04, rfl⟩, rfl, by decide⟩

theorem witness_CommandsLeaveListedStatus : ∃ (s t : State) (i : Instr), isCommand i ∧ exec i s = .next t :=
  ⟨State.reset, _, .illegalCmd 0xFF, ⟨0xFF, rfl⟩, rfl⟩

theorem witness_CartHasFewWriters : ∃ (s t : State) (i : Instr), isCommand i ∧ i ≠ .extract ∧ i ≠ .encode ∧
    i ≠ .decodeImage ∧ exec i s = .next t :=
  ⟨imageState 131072, _, .pack, ⟨0x02, rfl⟩, by decide, by decide, by decide, rfl⟩

/-- The state after reset with one host action pending. -/
def pending (a : HostAction) : State := { State.reset with host := [a] }

/-- One pending action of each kind, the stores up to the end of their memory; and registers at the ends of the clauses. -/
theorem witness_HostRegisterAccess :
    (∀ a, (pending a).phase = .idle ∧ (pending a).host = a :: []) ∧
    (Space.cart ≠ .tok ∧ 32766 + [(0x12 : Byte), 0x34].length ≤ Space.cart.size Config.params) ∧
    (Space.mbuf ≠ .tok ∧ 0 + 32768 ≤ Space.mbuf.size Config.params) ∧
    (0x13, 2) ∈ [(0x02, 8), (0x03, 32), (0x04, 32), (0x09, 32), (0x0C, 16), (0x0D, 16), (0x10, 16), (0x11, 16), (0x13, 2)] ∧
    0x01 ∉ [0x02, 0x03, 0x04, 0x09, 0x0C, 0x0D, 0x10, 0x11, 0x13] ∧ (0x01 : Byte) ≠ 0x00 ∧ (0x03 : Byte) ≠ 0x02 ∧
    (0x00 : Byte).toNat = 0 ∧ 0x14 ≤ (0x14 : Byte).toNat ∧ 0x14 ≤ (0xFF : Byte).toNat :=
  ⟨fun _ => ⟨rfl, rfl⟩, ⟨by decide, by decide⟩, ⟨by decide, by decide⟩, by decide, by decide, by decide, by decide,
    by decide, by decide, by decide⟩

theorem witness_StepRunsDecodedInstruction :
    (∃ (s : State) (v : Nat) (rest : List HostAction), s.phase = .idle ∧ s.host = .set 0x00 v :: rest) ∧
    (∃ (s s' : State) (r : Run) (t : V1Token) (rest : List Byte), s.phase = .v1 r ∧
      decodeV1Token (s.v1Window s.cursor) = .ok (t, rest) ∧ exec t.toInstr s = .next s') ∧
    ∃ (s s' : State) (r : Run) (nbits u : Nat) (rest : List Bool), s.phase = .v2 r nbits ∧
      readUnary (s.restBits nbits s.bitpos) = some (u, rest) ∧ exec (.v2Token u) s = .next s' :=
  ⟨⟨{ State.reset with host := [.set 0 0xFF] }, 0xFF, [], rfl, rfl⟩,
    ⟨inV1 litCart [], _, _, .lit 0x41, [], rfl, by decide +kernel, rfl⟩,
    ⟨{ State.reset with cart := [(0x4408, 0x01)], phase := .v2 (v1Run []) 8 }, _, _, 8, 1, _, rfl, rfl, rfl⟩⟩

/-- The registers after reset, with bytes in CART. -/
theorem cart_arch_inv {m : Memory} (h : m.wf cartSize) : ({ Arch.reset with cart := m } : Arch).Inv where
  memories sp := by
    cases sp
    · exact h
    all_goals exact wf_nil _
  status := (by decide : (0 : Half) ∈ legalStatus)
  reserved := (by decide : (0 : Byte).extractLsb' 4 4 = 0)
  noMatch _ := ⟨rfl, rfl⟩
  match_le h := absurd h (by decide : flagMfound 0 ≠ true)
  emit := (by decide : flagMemit 0 = (flagMfound 0 && emitPolicy (0 : Half).toNat (0 : Half).toNat))
  empty h := absurd h (by decide : flagTextValid 0 ≠ true)
  version h := absurd h (by decide : flagTextValid 0 ≠ true)
  textlen := (by decide : (0 : Word).toNat ≤ outCap)
  toklen := .inl rfl

theorem reset_arch_inv : Arch.reset.Inv := cart_arch_inv (wf_nil _)

/-- Inside a V1 decode, about to read LIT 0x41. -/
def litNext : State := inV1 { Arch.reset with cart := [(0x4308, 0x00), (0x4309, 0x41)] } []

/-- Inside a V2 decode, about to read the prefix 1. -/
def prefixNext : State := { State.reset with cart := [(0x4408, 0x01)], phase := .v2 (v1Run []) 8 }

theorem litNext_steps : ∃ t, step litNext = .next t := by
  have hf : litNext.fetchV1 = some (.lit 0x41) := by decide +kernel
  show ∃ t, stepV1 litNext (v1Run []) = .next t
  rw [stepV1, hf]
  exact ⟨_, rfl⟩

theorem prefixNext_steps : ∃ t, step prefixNext = .next t := by
  have hf : prefixNext.fetchV2 8 = some 1 := by decide +kernel
  show ∃ t, stepV2 prefixNext (v1Run []) 8 = .next t
  rw [stepV2, hf]
  exact ⟨_, rfl⟩

/-- Between commands, inside a V1 decode and inside a V2 decode. -/
theorem witness_StepKeepsInvariant :
    (∃ s t : State, s.Inv ∧ step s = .next t ∧ s.phase = .idle) ∧
    (∃ (s t : State) (r : Run), s.Inv ∧ step s = .next t ∧ s.phase = .v1 r) ∧
    ∃ (s t : State) (r : Run) (nbits : Nat), s.Inv ∧ step s = .next t ∧ s.phase = .v2 r nbits :=
  have ⟨t1, h1⟩ := litNext_steps
  have ⟨t2, h2⟩ := prefixNext_steps
  ⟨⟨pending (.set 0x00 0x00), _, ⟨reset_arch_inv, trivial⟩, rfl, rfl⟩,
    ⟨litNext, t1, v1Run [], ⟨cart_arch_inv (by decide), reset_arch_inv, by decide, by decide⟩, h1, rfl⟩,
    ⟨prefixNext, t2, v1Run [], 8, ⟨cart_arch_inv (by decide), reset_arch_inv, by decide⟩, h2, rfl⟩⟩

end Sys2Proof.Tests
end

/-! PROOFS. What each command's result is and what it leaves of CART; the registers after reset; which instruction a step
runs. -/

namespace Sys2Proof.Machine

/-! ### The result of each command -/

/-- The result of a command that begins in `x`, one case per row of R72 and one for the reserved values (R73): what `exec`
completes it with. -/
inductive CommandResult (p : Params) (x : Arch) : Instr → Except Err Arch → Prop where
  | nop : CommandResult p x .nop (.ok x)
  | extract : CommandResult p x .extract (extract p x)
  | pack : CommandResult p x .pack (pack p x)
  | classify : CommandResult p x .classify (.ok (x.withHeader p))
  | decodeV0 : CommandResult p x .decodeV0 (decodeV0 x)
  | decodeV1 : CommandResult p x .decodeV1 (decodeV1 p x)
  | decodeV2 : CommandResult p x .decodeV2 (decodeV2 p x)
  | decodeBytes : CommandResult p x .decodeBytes (decodeBytes p x)
  | decodeImage : CommandResult p x .decodeImage (decodeImage p x)
  | find : CommandResult p x .find (find x)
  | encodeRef : CommandResult p x .encodeRef (.ok (encodeRefBody x))
  | encode : CommandResult p x .encode (encodeText p x)
  | softReset : CommandResult p x .softReset (.ok (softReset x))
  | illegalCmd (op : Byte) : CommandResult p x (.illegalCmd op) (.error .illegalCmd)

/-- Every byte written to CMD selects a command that has a result. -/
theorem commandResult_decodeCommand (p : Params) (x : Arch) (op : Byte) :
    ∃ res, CommandResult p x (decodeCommand op) res := by
  unfold decodeCommand
  split
  · exact ⟨_, .nop⟩
  · exact ⟨_, .extract⟩
  · exact ⟨_, .pack⟩
  · exact ⟨_, .classify⟩
  · exact ⟨_, .decodeV0⟩
  · exact ⟨_, .decodeV1⟩
  · exact ⟨_, .decodeV2⟩
  · exact ⟨_, .decodeBytes⟩
  · exact ⟨_, .decodeImage⟩
  · exact ⟨_, .find⟩
  · exact ⟨_, .encodeRef⟩
  · exact ⟨_, .encode⟩
  · exact ⟨_, .softReset⟩
  · exact ⟨_, .illegalCmd op⟩

/-- `exec` completes a command with its result. -/
theorem exec_of_commandResult {i : Instr} {s : State} {res : Except Err Arch}
    (h : CommandResult Config.params s.toArch i res) : exec i s = .next (s.complete res) := by
  cases h <;> rfl

/-- All that `exec` can do with a command: complete it with its result. -/
theorem exec_command {i : Instr} (hi : isCommand i) (s : State) :
    ∃ res, CommandResult Config.params s.toArch i res ∧ exec i s = .next (s.complete res) := by
  obtain ⟨op, rfl⟩ := hi
  obtain ⟨res, h⟩ := commandResult_decodeCommand Config.params s.toArch op
  exact ⟨res, h, exec_of_commandResult h⟩

/-! ### Commands that succeed, behind their first check -/

/-- The length check of the decoders passed (R251): no error is taken, and the result is what follows it. -/
theorem ok_of_shortCart {x y : Arch} {res : Except Err Arch}
    (h : (if shortCart x then .error .shortCart else res) = .ok y) : shortCart x = false ∧ res = .ok y := by
  split at h
  · cases h
  · next hs => exact ⟨by simpa using hs, h⟩

theorem decodeV0_ok {x y : Arch} (h : decodeV0 x = .ok y) : shortCart x = false ∧ v0Body x = .ok y :=
  ok_of_shortCart h

theorem decodeV1_ok {p : Params} {x y : Arch} (h : decodeV1 p x = .ok y) :
    shortCart x = false ∧ v1Body p x = .ok y :=
  ok_of_shortCart h

theorem decodeV2_ok {p : Params} {x y : Arch} (h : decodeV2 p x = .ok y) :
    shortCart x = false ∧ v2Body p x = .ok y :=
  ok_of_shortCart h

/-- DECODE_BYTES succeeds with the selected decoder's results, sealed as a Cartridge (R251). -/
theorem decodeBytes_ok {p : Params} {x y : Arch} (h : decodeBytes p x = .ok y) :
    shortCart x = false ∧ ∃ z, selectedBody p x = .ok z ∧ y = sealCartridge p z := by
  obtain ⟨hs, hres⟩ := ok_of_shortCart h
  split at hres
  · cases hres
  · next z hz => exact ⟨hs, z, hz, by cases hres; rfl⟩

/-- FIND succeeds with the match it found (R222). -/
theorem find_ok {x y : Arch} (h : find x = .ok y) :
    mbufBad x = false ∧ y = withMatch x (findMatch x.searchBuf x.currentBuf) := by
  unfold find at h
  split at h
  · cases h
  · next hb => exact ⟨by simpa using hb, by cases h; rfl⟩

/-! ### CART under the commands that do not write it -/

@[simp] theorem withHeader_cart (p : Params) (x : Arch) : (x.withHeader p).cart = x.cart := rfl
@[simp] theorem sealCartridge_cart (p : Params) (x : Arch) : (sealCartridge p x).cart = x.cart := rfl
@[simp] theorem packBody_cart (x : Arch) : (packBody x).cart = x.cart := rfl
@[simp] theorem encodeRefBody_cart (x : Arch) : (encodeRefBody x).cart = x.cart := rfl
@[simp] theorem softReset_cart (x : Arch) : (softReset x).cart = x.cart := rfl

@[simp] theorem withMatch_cart (x : Arch) (m : Option (Nat × Nat)) : (withMatch x m).cart = x.cart := by
  cases m <;> rfl

theorem v0Body_cart {x y : Arch} (h : v0Body x = .ok y) : y.cart = x.cart := by
  obtain ⟨-, rfl⟩ := v0Body_ok h
  rfl

theorem v1Body_cart {p : Params} {x y : Arch} (h : v1Body p x = .ok y) : y.cart = x.cart := by
  obtain ⟨d, -, -, rfl⟩ := v1Body_ok h
  rfl

theorem v2Body_cart {p : Params} {x y : Arch} (h : v2Body p x = .ok y) : y.cart = x.cart := by
  obtain ⟨-, -, d, -, -, rfl⟩ := v2Body_ok h
  rfl

theorem selectedBody_cart {p : Params} {x y : Arch} (h : selectedBody p x = .ok y) : y.cart = x.cart := by
  obtain ⟨t, -, -, -, -, hy⟩ := selectedBody_ok h
  rw [hy]

/-- A command that succeeds, and is not one of the three writers of CART, leaves CART as it was. -/
theorem CommandResult.cart_eq {p : Params} {x y : Arch} {i : Instr} {res : Except Err Arch}
    (h : CommandResult p x i res) (hok : res = .ok y)
    (hextract : i ≠ .extract) (hencode : i ≠ .encode) (himage : i ≠ .decodeImage) : y.cart = x.cart := by
  cases h with
  | nop => cases hok; rfl
  | extract => exact absurd rfl hextract
  | pack =>
    obtain ⟨-, rfl⟩ := pack_ok hok
    exact packBody_cart x
  | classify => cases hok; exact withHeader_cart p x
  | decodeV0 => exact v0Body_cart (decodeV0_ok hok).2
  | decodeV1 => exact v1Body_cart (decodeV1_ok hok).2
  | decodeV2 => exact v2Body_cart (decodeV2_ok hok).2
  | decodeBytes =>
    obtain ⟨-, z, hz, rfl⟩ := decodeBytes_ok hok
    rw [sealCartridge_cart, selectedBody_cart hz]
  | decodeImage => exact absurd rfl himage
  | find =>
    obtain ⟨-, rfl⟩ := find_ok hok
    exact withMatch_cart x _
  | encodeRef => cases hok; exact encodeRefBody_cart x
  | encode => exact absurd rfl hencode
  | softReset => cases hok; exact softReset_cart x
  | illegalCmd op => cases hok

/-- Settles O54: a command that fails restores CART (R305), and one that succeeds writes it only if it is one of the
three. -/
theorem cartHasFewWriters : Obligations.CartHasFewWriters := by
  intro s t i hi hextract hencode himage hexec
  obtain ⟨res, hres, hcomplete⟩ := exec_command hi s
  obtain rfl : s.complete res = t := by
    rw [hcomplete] at hexec
    cases hexec
    rfl
  have hcart : (s.complete res).cart = s.cart := by
    rw [complete_toArch]
    rcases completed_cases s.toArch res with ⟨y, hy, hc⟩ | ⟨e, -, hc⟩
    · rw [hc]
      show y.cart = s.cart
      exact hres.cart_eq hy hextract hencode himage
    · rw [hc]
  exact read_congr (sp := .cart) hcart

/-! ### The state after reset -/

/-- Every register reads 0 after reset but VERSION, register 0x05, which is NONE (R340). -/
theorem hostReadReg_reset (reg : Byte) : hostReadReg Arch.reset reg = if reg = 0x05 then 3 else 0 := by
  simp only [← BitVec.toNat_inj]
  unfold hostReadReg
  split <;> simp_all [Arch.reset]

/-- Settles O55. -/
theorem resetRegisters : Obligations.ResetRegisters := ⟨hostReadReg_reset, rfl, rfl⟩

@[simp] theorem softReset_mem (x : Arch) (sp : Space) : (softReset x).mem sp = x.mem sp := by
  cases sp <;> rfl

/-- Registers at their reset values meet the invariant, whatever canonical memories stand beside them. -/
theorem softReset_inv {x : Arch} (h : ∀ sp, (x.mem sp).wf (sp.size Config.params)) : (softReset x).Inv where
  memories sp := by
    rw [softReset_mem]
    exact h sp
  status := (by decide : (0 : Half) ∈ legalStatus)
  reserved := (by decide : (0 : Byte).extractLsb' 4 4 = 0)
  noMatch _ := ⟨rfl, rfl⟩
  match_le hfound := absurd hfound (by decide : ¬ flagMfound 0 = true)
  emit := (by decide : flagMemit 0 = (flagMfound 0 && emitPolicy (0 : Half).toNat (0 : Half).toNat))
  empty hvalid := absurd hvalid (by decide : ¬ flagTextValid 0 = true)
  version hvalid := absurd hvalid (by decide : ¬ flagTextValid 0 = true)
  textlen := Nat.zero_le _
  toklen := .inl rfl

/-- Settles O60: no memory byte has been written, and no decode is in progress. -/
theorem resetMeetsInvariant : Obligations.ResetMeetsInvariant where
  arch := softReset_inv (x := Arch.reset) fun sp => by cases sp <;> exact wf_nil _
  phase := trivial

/-! ### What a step runs -/

theorem step_of_idle {s : State} (h : s.phase = .idle) : step s = stepHost s := by
  simp only [step, h]

theorem step_of_v1 {s : State} {r : Run} (h : s.phase = .v1 r) : step s = stepV1 s r := by
  simp only [step, h]

theorem step_of_v2 {s : State} {r : Run} {nbits : Nat} (h : s.phase = .v2 r nbits) : step s = stepV2 s r nbits := by
  simp only [step, h]

/-- A write to CMD, as the host's next action, runs the command of its low eight bits (R21, R56). -/
theorem stepHost_cmd {s : State} {v : Nat} {rest : List HostAction} (h : s.host = .set 0x00 v :: rest) :
    stepHost s = exec (decodeCommand (BitVec.ofNat 8 v)) { s with host := rest } := by
  simp only [stepHost, h, if_true]

/-- The fetch gives the token that the bytes at CURSOR decode to (R162). -/
theorem fetchV1_eq_some {s : State} {t : V1Token} {rest : List Byte}
    (h : decodeV1Token (s.v1Window s.cursor) = .ok (t, rest)) : s.fetchV1 = some t := by
  simp only [State.fetchV1, h]

/-- The fetch gives the unary value that the stream bits at BITPOS begin with (R196). -/
theorem fetchV2_eq_some {s : State} {nbits u : Nat} {rest : List Bool}
    (h : readUnary (s.restBits nbits s.bitpos) = some (u, rest)) : s.fetchV2 nbits = some u := by
  simp only [State.fetchV2, h]

/-- A turn of the V1 loop: the token, then the overrun check and the loop's test (R161). -/
theorem stepV1_next {s s' : State} {r : Run} {t : V1Token} (hf : s.fetchV1 = some t)
    (he : exec t.toInstr s = .next s') : stepV1 s r = .next (s'.v1After Config.params) := by
  simp only [stepV1, hf, he]

/-- A turn of the V2 loop: the token, then the overrun check and the loop's test (R199). -/
theorem stepV2_next {s s' : State} {r : Run} {nbits u : Nat} (hf : s.fetchV2 nbits = some u)
    (he : exec (.v2Token u) s = .next s') : stepV2 s r nbits = .next (s'.v2After Config.params) := by
  simp only [stepV2, hf, he]

/-- Settles O57, one conjunct per phase: dispatch on the phase, fetch, then run what was fetched. -/
theorem stepRunsDecodedInstruction : Obligations.StepRunsDecodedInstruction := by
  intro s
  refine ⟨fun v rest hidle hhost => ?_, fun r t rest s' hv1 hdec hexec => ?_,
    fun r nbits u rest s' hv2 hdec hexec => ?_⟩
  · rw [step_of_idle hidle, stepHost_cmd hhost]
  · rw [step_of_v1 hv1, stepV1_next (fetchV1_eq_some hdec) hexec]
  · rw [step_of_v2 hv2, stepV2_next (fetchV2_eq_some hdec) hexec]

end Sys2Proof.Machine

/-! PROOFS. The V2 stream's bits; what a step can do, and that none is refused; what each host access does; that every
step keeps the invariant. -/

namespace Sys2Proof.Machine

/-! ### The V2 bit stream -/

/-- Settles O9: `rest()` lists the stream bits from the position on, and each is read as R54 has it. -/
theorem streamBitsAreLsbFirst : Obligations.StreamBitsAreLsbFirst := fun x nbits pos =>
  ⟨streamBits_length x pos (nbits - pos), fun k h => streamBits_getElem x pos (nbits - pos) k h⟩

/-! ### What a step can do -/

/-- A host action that stores bytes: LOAD stores those it names, FILL copies of one byte (R90). -/
inductive StoresBytes : HostAction → Space → Nat → List Byte → Prop where
  | load (sp : Space) (a : Nat) (bs : List Byte) : StoresBytes (.load sp a bs) sp a bs
  | fill (sp : Space) (a n : Nat) (b : Byte) : StoresBytes (.fill sp a n b) sp a (List.replicate n b)

theorem stepHost_nil {s : State} (h : s.host = []) : stepHost s = .next s := by
  simp only [stepHost, h]

/-- SET of a register other than CMD (R56, R74). -/
theorem stepHost_set {s : State} {reg : Byte} {v : Nat} {rest : List HostAction} (hreg : reg ≠ 0x00)
    (h : s.host = .set reg v :: rest) :
    stepHost s = .next { s with toArch := hostWriteReg s.toArch reg v, host := rest } := by
  simp only [stepHost, h, if_neg hreg, hostAct]

/-- LOAD and FILL write to a memory (R56, R90). -/
theorem stepHost_stores {s : State} {act : HostAction} {rest : List HostAction} {sp : Space} {a : Nat} {bs : List Byte}
    (hact : StoresBytes act sp a bs) (h : s.host = act :: rest) :
    stepHost s = hostWriteMem Config.params { s with host := rest } sp a bs := by
  cases hact <;> simp only [stepHost, h, hostAct]

theorem stepHost_expect {s : State} {reg : Byte} {v : Nat} {rest : List HostAction}
    (h : s.host = .expect reg v :: rest) : stepHost s = .next { s with host := rest } := by
  simp only [stepHost, h, hostAct]

/-- TOK is read-only (R56). -/
theorem hostWriteMem_tok (p : Params) (s : State) (a : Nat) (bs : List Byte) :
    hostWriteMem p s .tok a bs = .next s := rfl

/-- A host write inside a memory that the host may write. -/
theorem hostWriteMem_of_le {p : Params} {sp : Space} {a : Nat} {bs : List Byte} (s : State) (hsp : sp ≠ .tok)
    (hfit : a + bs.length ≤ sp.size p) :
    hostWriteMem p s sp a bs = .next { s with toArch := s.toArch.write sp a bs } := by
  cases sp with
  | tok => exact absurd rfl hsp
  | cart | pix | out | mbuf => exact if_pos hfit

/-- A host write past the end of a memory that the host may write. -/
theorem hostWriteMem_of_gt {p : Params} {sp : Space} {a : Nat} {bs : List Byte} (s : State) (hsp : sp ≠ .tok)
    (hpast : sp.size p < a + bs.length) : hostWriteMem p s sp a bs = .fault (.noSuchAddress sp a) := by
  cases sp with
  | tok => exact absurd rfl hsp
  | cart | pix | out | mbuf => exact if_neg (Nat.not_le.mpr hpast)

/-- All that a step between commands can do: nothing when no action is pending or an EXPECT is, a command, a register
write, a store that fits, or the fault of one that does not. -/
inductive HostStep (s : State) : Host.Outcome State Fault Refusal → Prop where
  | nothing (rest : List HostAction) : HostStep s (.next { s with host := rest })
  | command (rest : List HostAction) (res : Except Err Arch) (i : Instr)
      (h : CommandResult Config.params s.toArch i res) :
      HostStep s (.next ({ s with host := rest }.complete res))
  | register (rest : List HostAction) (reg : Byte) (v : Nat) :
      HostStep s (.next { s with toArch := hostWriteReg s.toArch reg v, host := rest })
  | store (rest : List HostAction) (sp : Space) (a : Nat) (bs : List Byte) (h : a + bs.length ≤ sp.size Config.params) :
      HostStep s (.next { s with toArch := s.toArch.write sp a bs, host := rest })
  | past (act : HostAction) (rest : List HostAction) (sp : Space) (a : Nat) (bs : List Byte)
      (hhost : s.host = act :: rest) (hact : StoresBytes act sp a bs) (hpast : sp.size Config.params < a + bs.length) :
      HostStep s (.fault (.noSuchAddress sp a))

/-- LOAD and FILL: on TOK nothing, elsewhere a store or the fault (R50, R56). -/
theorem hostStep_of_stores {s : State} {act : HostAction} {rest : List HostAction} {sp : Space} {a : Nat}
    {bs : List Byte} (hact : StoresBytes act sp a bs) (hhost : s.host = act :: rest) : HostStep s (stepHost s) := by
  rw [stepHost_stores hact hhost]
  by_cases hsp : sp = .tok
  · subst hsp
    exact .nothing rest
  · by_cases hfit : a + bs.length ≤ sp.size Config.params
    · rw [hostWriteMem_of_le _ hsp hfit]
      exact .store rest sp a bs hfit
    · have hpast := Nat.not_le.mp hfit
      rw [hostWriteMem_of_gt _ hsp hpast]
      exact .past act rest sp a bs hhost hact hpast

theorem stepHost_cases (s : State) : HostStep s (stepHost s) := by
  cases hhost : s.host with
  | nil =>
    rw [stepHost_nil hhost]
    exact .nothing s.host
  | cons act rest =>
    cases act with
    | set reg v =>
      by_cases hreg : reg = 0x00
      · subst hreg
        obtain ⟨res, hres, hexec⟩ := exec_command ⟨BitVec.ofNat 8 v, rfl⟩ { s with host := rest }
        rw [stepHost_cmd hhost, hexec]
        exact .command rest res _ hres
      · rw [stepHost_set hreg hhost]
        exact .register rest reg v
    | load sp a bs => exact hostStep_of_stores (.load sp a bs) hhost
    | fill sp a n b => exact hostStep_of_stores (.fill sp a n b) hhost
    | expect reg v =>
      rw [stepHost_expect hhost]
      exact .nothing rest

/-- A token that is fetched was decoded from the bytes at CURSOR (R162). -/
theorem decodeV1Token_of_fetchV1 {s : State} {t : V1Token} (h : s.fetchV1 = some t) :
    ∃ rest, decodeV1Token (s.v1Window s.cursor) = .ok (t, rest) := by
  unfold State.fetchV1 at h
  split at h
  · next t' rest hdec => cases h; exact ⟨rest, hdec⟩
  · cases h

/-- All that a step inside a V1 decode can do: fail for want of a token, or run the token that is there (R161, R162). -/
theorem stepV1_cases {s : State} {r : Run} (hphase : s.phase = .v1 r) :
    stepV1 s r = .next (s.abort r .v1Trunc) ∨
      ∃ t rest, decodeV1Token (s.v1Window s.cursor) = .ok (t, rest) ∧
        stepV1 s r = .next ((s.v1Put r (v1Exec Config.params t (s.v1View r))).v1After Config.params) := by
  cases hf : s.fetchV1 with
  | none => exact .inl (by simp only [stepV1, hf])
  | some t =>
    obtain ⟨rest, hdec⟩ := decodeV1Token_of_fetchV1 hf
    exact .inr ⟨t, rest, hdec, stepV1_next hf (exec_v1Token t hphase)⟩

/-- All that a step inside a V2 decode can do: fail for want of a token, or run one (R199). -/
theorem stepV2_cases {s : State} {r : Run} {nbits : Nat} (hphase : s.phase = .v2 r nbits) :
    stepV2 s r nbits = .next (s.abort r (v2NoToken Config.params)) ∨
      ∃ u, stepV2 s r nbits =
        .next ((s.v2Put r nbits (v2Exec Config.params s.toArch nbits u (s.v2View r))).v2After Config.params) := by
  cases hf : s.fetchV2 nbits with
  | none => exact .inl (by simp only [stepV2, hf])
  | some u => exact .inr ⟨u, stepV2_next hf (exec_v2Token u hphase)⟩

/-! ### No step is refused -/

/-- Settles O58: a decode in progress always has a next state, and between commands only a store can lack one. -/
theorem stepsNeverRefuse : Obligations.StepsNeverRefuse := by
  intro s
  cases hphase : s.phase with
  | idle =>
    rw [step_of_idle hphase]
    have hcases := stepHost_cases s
    generalize stepHost s = out at hcases
    cases hcases with
    | nothing | command | register | store => exact .inl ⟨_, rfl⟩
    | past act rest sp a bs hhost hact hpast =>
      refine .inr ⟨sp, a, rfl, rfl, act, rest, hhost, ?_⟩
      cases hact with
      | load => exact .inl ⟨bs, rfl, hpast⟩
      | fill _ _ n b => exact .inr ⟨n, b, rfl, by simpa using hpast⟩
  | v1 r =>
    rw [step_of_v1 hphase]
    rcases stepV1_cases hphase with hstep | ⟨t, rest, -, hstep⟩ <;> exact .inl ⟨_, hstep⟩
  | v2 r nbits =>
    rw [step_of_v2 hphase]
    rcases stepV2_cases hphase with hstep | ⟨u, hstep⟩ <;> exact .inl ⟨_, hstep⟩

/-! ### Host accesses -/

/-- A LOAD or FILL that fits stores its bytes and nothing else (R56, R61). -/
theorem step_stepStores {s : State} {act : HostAction} {rest : List HostAction} {sp : Space} {a : Nat} {bs : List Byte}
    (hidle : s.phase = .idle) (hact : StoresBytes act sp a bs) (hhost : s.host = act :: rest) (hsp : sp ≠ .tok)
    (hfit : a + bs.length ≤ sp.size Config.params) : stepStores s sp a bs rest := by
  refine ⟨{ s with toArch := s.toArch.write sp a bs, host := rest }, ?_, fun i hi => ?_, fun sp' a' hout => ?_, ?_,
    hidle, rfl⟩
  · rw [step_of_idle hidle, stepHost_stores hact hhost, hostWriteMem_of_le _ hsp hfit]
  · simp [read_write, hi]
  · by_cases hsp' : sp' = sp
    · subst hsp'
      have hoff : ¬ (a ≤ a' ∧ a' < a + bs.length) := fun h => hout ⟨rfl, h⟩
      exact read_write_out _ _ _ _ _ (by omega)
    · exact read_write_ne _ hsp' ..
  · cases sp <;> rfl

/-- A LOAD or FILL of TOK has no effect (R56). -/
theorem step_stores_tok {s : State} {act : HostAction} {rest : List HostAction} {a : Nat} {bs : List Byte}
    (hidle : s.phase = .idle) (hact : StoresBytes act .tok a bs) (hhost : s.host = act :: rest) :
    step s = .next { s with host := rest } := by
  rw [step_of_idle hidle, stepHost_stores hact hhost, hostWriteMem_tok]

/-- A writable register holds what is written, mod 2^width (R56, R74). -/
theorem hostReadReg_hostWriteReg_same {x : Arch} {v width : Nat} {reg : Byte}
    (h : (reg.toNat, width) ∈
      [(0x02, 8), (0x03, 32), (0x04, 32), (0x09, 32), (0x0C, 16), (0x0D, 16), (0x10, 16), (0x11, 16), (0x13, 2)]) :
    hostReadReg (hostWriteReg x reg v) reg = v % 2 ^ width := by
  simp only [List.mem_cons, Prod.mk.injEq, List.not_mem_nil, or_false] at h
  rcases h with ⟨hreg, rfl⟩ | ⟨hreg, rfl⟩ | ⟨hreg, rfl⟩ | ⟨hreg, rfl⟩ | ⟨hreg, rfl⟩ | ⟨hreg, rfl⟩ | ⟨hreg, rfl⟩ |
    ⟨hreg, rfl⟩ | ⟨hreg, rfl⟩ <;> simp only [hostReadReg, hostWriteReg, hreg, BitVec.toNat_ofNat]

/-- A write to a read-only or unassigned number has no effect (R56, R74). -/
theorem hostWriteReg_of_readOnly {x : Arch} {v : Nat} {reg : Byte}
    (h : reg.toNat ∉ [0x02, 0x03, 0x04, 0x09, 0x0C, 0x0D, 0x10, 0x11, 0x13]) : hostWriteReg x reg v = x := by
  unfold hostWriteReg
  split <;> simp_all

/-- No other register reads differently: what is written is the field of one number, and a read of another number sees
another field. -/
theorem hostReadReg_hostWriteReg_ne {x : Arch} {v : Nat} {reg reg' : Byte} (h : reg' ≠ reg) :
    hostReadReg (hostWriteReg x reg v) reg' = hostReadReg x reg' := by
  have hne : reg'.toNat ≠ reg.toNat := fun he => h (BitVec.eq_of_toNat_eq he)
  unfold hostWriteReg
  split <;> unfold hostReadReg <;> split <;> try rfl
  all_goals
    next hreg _ hreg' => exact absurd (hreg'.trans hreg.symm) hne

/-- CMD and the unassigned numbers read 0 (R21, R74). -/
theorem hostReadReg_of_unassigned {x : Arch} {reg : Byte} (h : reg.toNat = 0 ∨ 0x14 ≤ reg.toNat) :
    hostReadReg x reg = 0 := by
  unfold hostReadReg
  split <;> omega

/-- Every register and memory but the nine writable ones stays (R56, R74). -/
theorem hostWriteReg_frame (x : Arch) (reg : Byte) (v : Nat) :
    { hostWriteReg x reg v with
      bpp := x.bpp, pixlen := x.pixlen, cartlen := x.cartlen, outlen := x.outlen, msplit := x.msplit,
      mbuflen := x.mbuflen, elen := x.elen, edist := x.edist, encSel := x.encSel } = x := by
  unfold hostWriteReg
  split <;> rfl

/-- Settles O56: the step of each host action, then what a register write does, then the registers that read 0. -/
theorem hostRegisterAccess : Obligations.HostRegisterAccess := by
  refine ⟨fun s rest hidle => ⟨fun reg v hreg hhost => ?_, fun sp a bs hsp hfit hhost => ?_,
    fun sp a n b hsp hfit hhost => ?_, fun a bs hhost => ?_, fun a n b hhost => ?_, fun reg v hhost => ?_⟩,
    fun x v reg _ => ⟨fun width hw => ?_, fun hro => ?_, fun reg' hne => ?_, ?_⟩, fun x reg hun => ?_⟩
  · rw [step_of_idle hidle, stepHost_set hreg hhost]
  · exact step_stepStores hidle (.load sp a bs) hhost hsp hfit
  · exact step_stepStores hidle (.fill sp a n b) hhost hsp (by simpa using hfit)
  · exact step_stores_tok hidle (.load .tok a bs) hhost
  · exact step_stores_tok hidle (.fill .tok a n b) hhost
  · rw [step_of_idle hidle, stepHost_expect hhost]
  · exact hostReadReg_hostWriteReg_same hw
  · exact hostWriteReg_of_readOnly hro
  · exact hostReadReg_hostWriteReg_ne hne
  · exact hostWriteReg_frame x reg v
  · exact hostReadReg_of_unassigned hun

/-! ### What the invariant speaks of -/

/-- The registers and memories that the invariant speaks of; an update of any other register leaves them alone. -/
def Arch.checked (x : Arch) : (Space → Memory) × Half × BitVec 2 × Word × Byte × Half × Half × Byte :=
  (x.mem, x.status, x.version, x.textlen, x.flags, x.mlen, x.mdist, x.toklen)

/-- The invariant depends on `checked` alone. -/
theorem Arch.Inv.congr {x y : Arch} (hx : x.Inv) (h : y.checked = x.checked) : y.Inv := by
  simp only [Arch.checked, Prod.mk.injEq] at h
  obtain ⟨hmem, hstatus, hversion, htextlen, hflags, hmlen, hmdist, htoklen⟩ := h
  exact {
    memories := by simpa only [hmem] using hx.memories
    status := by simpa only [hstatus] using hx.status
    reserved := by simpa only [hflags] using hx.reserved
    noMatch := by simpa only [hflags, hmlen, hmdist] using hx.noMatch
    match_le := by simpa only [hflags, hmlen, hmdist] using hx.match_le
    emit := by simpa only [hflags, hmlen, hmdist] using hx.emit
    empty := by simpa only [hflags, htextlen] using hx.empty
    version := by simpa only [hflags, hversion] using hx.version
    textlen := by simpa only [htextlen] using hx.textlen
    toklen := by simpa only [htoklen] using hx.toklen }

/-! ### Registers and memories, one update at a time -/

theorem Err.status_mem_legalStatus (e : Err) : e.status ∈ legalStatus := by
  cases e <;> decide

theorem statusDone_mem_legalStatus : statusDone ∈ legalStatus := by decide

theorem Arch.Inv.setStatus {x : Arch} (hx : x.Inv) {st : Half} (hst : st ∈ legalStatus) :
    ({ x with status := st } : Arch).Inv :=
  { hx with status := hst }

/-- A write inside a memory keeps its canonical form and every register. -/
theorem Arch.Inv.write {x : Arch} (hx : x.Inv) {sp : Space} {a : Nat} {bs : List Byte}
    (h : a + bs.length ≤ sp.size Config.params) : (x.write sp a bs).Inv := by
  have hmem := write_mems_wf hx.memories h
  cases sp <;> exact { hx with memories := hmem }

/-- No host write to a register reaches one that the invariant speaks of: those are read-only (R74). -/
theorem hostWriteReg_checked (x : Arch) (reg : Byte) (v : Nat) : (hostWriteReg x reg v).checked = x.checked := by
  unfold hostWriteReg
  split <;> rfl

/-- The end of a command: the starting state, or results that meet the invariant, with a STATUS of the table (R305,
R307). -/
theorem completed_inv {x : Arch} {res : Except Err Arch} (hx : x.Inv) (hres : ∀ y, res = .ok y → y.Inv) :
    (x.completed res).Inv := by
  cases res with
  | ok y => exact (hres y rfl).setStatus statusDone_mem_legalStatus
  | error e => exact hx.setStatus e.status_mem_legalStatus

/-! ### Texts and Cartridges -/

/-- What a decoder that succeeds leaves: the invariant, and an OUTLEN that fits OUT. -/
structure Arch.Decoded (y : Arch) : Prop where
  inv : y.Inv
  outlen_le : y.outlen.toNat ≤ outCap

/-- A text that fits OUT, stored with its length, and whatever registers the invariant does not speak of. -/
theorem decoded_of_setText {x y : Arch} {t : List Byte} (hx : x.Inv) (ht : t.length ≤ outCap)
    (hchecked : y.checked = (x.setText t).checked) (houtlen : y.outlen = BitVec.ofNat 32 t.length) : y.Decoded where
  inv := by
    have hfit : 0 + t.length ≤ Space.out.size Config.params := by simpa [Space.size] using ht
    exact (hx.write hfit).congr hchecked
  outlen_le := by
    rw [houtlen]
    exact (Nat.mod_le _ _).trans ht

theorem v0Body_decoded {x y : Arch} (hx : x.Inv) (h : v0Body x = .ok y) : y.Decoded := by
  obtain ⟨-, rfl⟩ := v0Body_ok h
  have hlen : (v0Text x).length ≤ outCap := (v0Text_length_le x).trans (by decide)
  exact decoded_of_setText hx hlen rfl rfl

/-- After the V1 loop: the text is bounded as R172 has it. -/
theorem v1Finish_decoded {x y : Arch} {dlen : Half} {d : V1State} (hx : x.Inv) (hd : v1Bounded d)
    (h : v1Finish x dlen d = .ok y) : y.Decoded := by
  unfold v1Finish at h
  split at h
  · cases h
    exact decoded_of_setText hx (v1Bounded_length hd) rfl rfl
  · cases h

/-- A text no longer than a 16-bit decompressed_len fits OUT. -/
theorem le_outCap_of_le_dlen {n : Nat} {dlen : Half} (h : n ≤ dlen.toNat) : n ≤ outCap := by
  have := dlen.isLt
  simp only [outCap]
  omega

/-- After the V2 loop: the text is at most decompressed_len long (R200), a 16-bit number. -/
theorem v2Finish_decoded {x y : Arch} {dlen : Half} {d : V2State} (hx : x.Inv) (hd : d.out.length ≤ dlen.toNat)
    (h : v2Finish x dlen d = .ok y) : y.Decoded := by
  unfold v2Finish at h
  split at h
  · cases h
    exact decoded_of_setText hx (le_outCap_of_le_dlen hd) rfl rfl
  · cases h

theorem v1Body_decoded {p : Params} {x y : Arch} (hx : x.Inv) (h : v1Body p x = .ok y) : y.Decoded := by
  unfold v1Body at h
  split at h
  · cases h
  · next d hd => exact v1Finish_decoded hx (v1Loop_bounded v1Start_bounded hd) h

theorem v2Body_decoded {p : Params} {x y : Arch} (hx : x.Inv) (h : v2Body p x = .ok y) : y.Decoded := by
  obtain ⟨-, -, d, hd, -, rfl⟩ := v2Body_ok h
  have hlen : d.out.length = x.dlenField.toNat := v2Loop_length (Nat.zero_le _) hd
  exact decoded_of_setText hx (le_outCap_of_le_dlen hlen.le) rfl rfl

theorem selectedBody_decoded {p : Params} {x y : Arch} (hx : x.Inv) (h : selectedBody p x = .ok y) : y.Decoded := by
  unfold selectedBody at h
  split at h
  · exact v0Body_decoded hx h
  · exact v1Body_decoded hx h
  · exact v2Body_decoded hx h

theorem Version.code_ne_none (v : Version) : v.code ≠ 3 := by cases v <;> decide

/-- The header registers: VERSION becomes one of the three tags (R124). -/
theorem Arch.Inv.withHeader {x : Arch} (hx : x.Inv) (p : Params) : (x.withHeader p).Inv :=
  { hx with version := fun _ => Version.code_ne_none _ }

/-- A Cartridge is built: TEXTLEN is the decoded text's length, and EMPTY says whether it is 0 (R251, R253). -/
theorem sealCartridge_inv {y : Arch} (hy : y.Decoded) (p : Params) : (sealCartridge p y).Inv where
  memories := hy.inv.memories
  status := hy.inv.status
  reserved := (withCartridge_reserved ..).trans hy.inv.reserved
  noMatch hfound := hy.inv.noMatch ((flagMfound_withCartridge ..).symm.trans hfound)
  match_le hfound := hy.inv.match_le ((flagMfound_withCartridge ..).symm.trans hfound)
  emit := by simpa [sealCartridge, Arch.withHeader] using hy.inv.emit
  empty _ := flagEmpty_withCartridge ..
  version _ := Version.code_ne_none _
  textlen := hy.outlen_le
  toklen := hy.inv.toklen

/-! ### The image commands and the matcher -/

theorem extract_inv {x y : Arch} (hx : x.Inv) (h : extract Config.params x = .ok y) : y.Inv := by
  obtain ⟨-, rfl⟩ := extract_ok h
  have hfit : 0 + ((List.range (min x.npix cartSize)).map (pixelByte x)).length ≤ Space.cart.size Config.params := by
    simp [Space.size]
  exact (hx.write hfit).congr rfl

/-- The loop of PACK writes 131072 bytes, which every PIX_CAP holds (R9). -/
theorem packBody_inv {x : Arch} (hx : x.Inv) : (packBody x).Inv := by
  refine hx.write ?_
  rw [packBytes_length, Nat.zero_add]
  exact Config.params.pixCap_ge

/-- ENCODE's text fits the code region, so the zeros after it end where CART ends (R151). -/
theorem encodeBody_inv {x : Arch} (hx : x.Inv) (h : x.outlen.toNat ≤ codeLen) : (encodeBody x).Inv := by
  have hlen : (codeImage x.text).length = codeLen := codeImage_length (by simpa [Arch.text] using h)
  have hfit : codeBase + (codeImage x.text).length ≤ Space.cart.size Config.params := by
    rw [hlen]
    exact Nat.le_refl 32768
  exact packBody_inv (hx.write hfit)

/-- A reference token: a field of one or two bytes, the separator, another such field (R87, R88). -/
theorem refToken_length (len dist : Half) :
    (refToken len dist).length = 3 ∨ (refToken len dist).length = 4 ∨ (refToken len dist).length = 5 := by
  simp only [refToken, List.length_append, List.length_singleton, beVar_length]
  split <;> split <;> simp

theorem encodeRefBody_inv {x : Arch} (hx : x.Inv) : (encodeRefBody x).Inv := by
  have hlen := refToken_length x.elen x.edist
  have hfit : 0 + (refToken x.elen x.edist).length ≤ Space.tok.size Config.params := by
    simp only [Space.size]
    omega
  have htok : (encodeRefBody x).toklen = BitVec.ofNat 8 (refToken x.elen x.edist).length := rfl
  refine { hx.write hfit with toklen := .inr ?_ }
  rw [htok]
  rcases hlen with hlen | hlen | hlen <;> rw [hlen] <;> decide

/-- A match found has a length from 1 to its distance, and the distance is at most the search buffer's length (R222,
R223). -/
theorem findMatch_bounds {S C : List Byte} {len dist : Nat} (h : findMatch S C = some (len, dist)) :
    1 ≤ len ∧ len ≤ dist ∧ dist ≤ S.length := by
  cases C with
  | nil => simp [findMatch] at h
  | cons c C =>
    simp only [findMatch] at h
    split at h
    · cases h
    · next p hp =>
      cases h
      obtain ⟨hget, -⟩ := findByte_eq_some.mp hp
      obtain ⟨hlt, hc⟩ := List.getElem?_eq_some_iff.mp hget
      refine ⟨?_, ?_, Nat.sub_le ..⟩
      · rw [List.drop_eq_getElem_cons hlt, hc]
        simp [matchLen]
      · simpa using (matchLen_spec (S.drop p) (c :: C)).1

/-- FIND's results, of a match whose numbers fit their registers: MLEN, MDIST and the two flags agree (R36, R223,
R225). -/
theorem withMatch_inv {x : Arch} (hx : x.Inv) {m : Option (Nat × Nat)}
    (hm : ∀ len dist, m = some (len, dist) → 1 ≤ len ∧ len ≤ dist ∧ dist < 2 ^ 16) : (withMatch x m).Inv := by
  cases m with
  | none =>
    exact { hx with
      reserved := (withMatch_reserved ..).trans hx.reserved
      noMatch := fun _ => ⟨rfl, rfl⟩
      match_le := by simp [withMatch]
      emit := by simp [withMatch]
      empty := by simpa [withMatch] using hx.empty
      version := by simpa [withMatch] using hx.version }
  | some q =>
    obtain ⟨len, dist⟩ := q
    obtain ⟨hpos, hle, hlt⟩ := hm len dist rfl
    have hlen : (BitVec.ofNat 16 len).toNat = len := Nat.mod_eq_of_lt (by omega)
    have hdist : (BitVec.ofNat 16 dist).toNat = dist := Nat.mod_eq_of_lt hlt
    exact { hx with
      reserved := (withMatch_reserved ..).trans hx.reserved
      noMatch := by simp [withMatch]
      match_le := by simp only [withMatch, hlen, hdist]; exact fun _ => ⟨hpos, hle⟩
      emit := by simp only [withMatch, flagMemit_withMatch, flagMfound_withMatch, hlen, hdist, Bool.true_and]
      empty := by simpa [withMatch] using hx.empty
      version := by simpa [withMatch] using hx.version }

theorem find_inv {x y : Arch} (hx : x.Inv) (h : find x = .ok y) : y.Inv := by
  obtain ⟨-, rfl⟩ := find_ok h
  refine withMatch_inv hx fun len dist hm => ?_
  obtain ⟨hpos, hle, hdist⟩ := findMatch_bounds hm
  have hsplit : x.searchBuf.length = x.msplit.toNat := by simp [Arch.searchBuf]
  have := x.msplit.isLt
  exact ⟨hpos, hle, by omega⟩

/-! ### Commands -/

theorem decodeBytes_inv {x y : Arch} {p : Params} (hx : x.Inv) (h : decodeBytes p x = .ok y) : y.Inv := by
  obtain ⟨-, z, hz, rfl⟩ := decodeBytes_ok h
  exact sealCartridge_inv (selectedBody_decoded hx hz) p

theorem decodeImage_inv {x y : Arch} (hx : x.Inv) (h : decodeImage Config.params x = .ok y) : y.Inv := by
  unfold decodeImage at h
  split at h
  · cases h
  · next z hz => exact decodeBytes_inv (extract_inv hx hz) h

/-- A command that succeeds keeps the invariant. -/
theorem CommandResult.inv {x y : Arch} {i : Instr} {res : Except Err Arch} (h : CommandResult Config.params x i res)
    (hx : x.Inv) (hok : res = .ok y) : y.Inv := by
  cases h with
  | nop => cases hok; exact hx
  | extract => exact extract_inv hx hok
  | pack =>
    obtain ⟨-, rfl⟩ := pack_ok hok
    exact packBody_inv hx
  | classify => cases hok; exact hx.withHeader Config.params
  | decodeV0 => exact (v0Body_decoded hx (decodeV0_ok hok).2).inv
  | decodeV1 => exact (v1Body_decoded hx (decodeV1_ok hok).2).inv
  | decodeV2 => exact (v2Body_decoded hx (decodeV2_ok hok).2).inv
  | decodeBytes => exact decodeBytes_inv hx hok
  | decodeImage => exact decodeImage_inv hx hok
  | find => exact find_inv hx hok
  | encodeRef => cases hok; exact encodeRefBody_inv hx
  | encode =>
    obtain ⟨hcheck, rfl⟩ := encodeText_ok hok
    obtain ⟨-, -, htext⟩ := encodeCheck_eq_none.mp hcheck
    exact encodeBody_inv hx (textCheck_eq_none.mp htext).1
  | softReset => cases hok; exact softReset_inv hx.memories
  | illegalCmd op => cases hok

/-! ### The invariant inside a decode -/

/-- With no decode in progress, the registers and memories are all that the invariant speaks of. -/
theorem State.inv_of_idle {s : State} (hphase : s.phase = .idle) (h : s.toArch.Inv) : s.Inv where
  arch := h
  phase := by
    rw [hphase]
    trivial

theorem abort_inv {r : Run} (hstart : r.start.Inv) (s : State) (e : Err) : (s.abort r e).Inv :=
  State.inv_of_idle rfl (hstart.setStatus e.status_mem_legalStatus)

/-- The command a decode belongs to takes the decoder's results as they are, or makes a Cartridge of them (R251,
R260). -/
theorem entry_result_inv {entry : Entry} {p : Params} {res : Except Err Arch} {y : Arch}
    (hres : ∀ z, res = .ok z → z.Decoded) (h : entry.result p res = .ok y) : y.Inv := by
  cases entry with
  | direct => exact (hres y h).inv
  | cartridge =>
    cases res with
    | ok z =>
      cases h
      exact sealCartridge_inv (hres z rfl) p
    | error e => cases h

theorem finish_inv {r : Run} {res : Except Err Arch} (hstart : r.start.Inv) (hres : ∀ z, res = .ok z → z.Decoded)
    (s : State) (p : Params) : (s.finish r (r.entry.result p res)).Inv :=
  State.inv_of_idle rfl (completed_inv hstart fun _ hy => entry_result_inv hres hy)

theorem State.Inv.of_v1 {s : State} {r : Run} (hs : s.Inv) (hphase : s.phase = .v1 r) :
    r.start.Inv ∧ v1Bounded (s.v1View r) := by
  have h := hs.phase
  rw [hphase] at h
  exact h

theorem State.Inv.of_v2 {s : State} {r : Run} {nbits : Nat} (hs : s.Inv) (hphase : s.phase = .v2 r nbits) :
    r.start.Inv ∧ r.out.length ≤ r.dlen.toNat := by
  have h := hs.phase
  rw [hphase] at h
  exact h

/-- A token that was wholly there keeps the bound of R172. -/
theorem v1Exec_bounded {p : Params} {x : Arch} {t : V1Token} {rest : List Byte} {d d' : V1State} (hd : v1Bounded d)
    (hdec : decodeV1Token (x.v1Window d.cursor) = .ok (t, rest)) (h : v1Exec p t d = .ok d') : v1Bounded d' := by
  obtain ⟨-, hout⟩ := hd
  obtain ⟨hcursor, e, hout', -, hlen⟩ := v1Exec_ok h
  have hwindow := decodeV1Token_length hdec
  rw [v1Window_length] at hwindow
  have hsize : 1 ≤ v1Size t := by cases t <;> simp [v1Size]
  constructor
  · omega
  · rw [hout', List.length_append]
    omega

theorem v1Put_inv {s : State} {r : Run} {res : Except Err V1State} (hs : s.toArch.Inv) (hstart : r.start.Inv)
    (hres : ∀ d, res = .ok d → v1Bounded d) : (s.v1Put r res).Inv := by
  cases res with
  | ok d => exact ⟨hs.congr rfl, hstart, hres d rfl⟩
  | error e => exact abort_inv hstart s e

theorem v1After_inv {s : State} (hs : s.Inv) (p : Params) : (s.v1After p).Inv := by
  unfold State.v1After
  split
  · next r hphase =>
    obtain ⟨hstart, hbound⟩ := hs.of_v1 hphase
    split
    · exact abort_inv hstart s _
    · split
      · exact hs
      · exact finish_inv hstart (fun y hy => v1Finish_decoded hs.arch hbound hy) s p
  · exact hs
  · exact hs

/-- After a V2 token the output may be too long: the overrun check is what bounds it (R200). -/
theorem v2After_inv {s : State} {r : Run} {nbits : Nat} (hphase : s.phase = .v2 r nbits) (hs : s.toArch.Inv)
    (hstart : r.start.Inv) (p : Params) : (s.v2After p).Inv := by
  simp only [State.v2After, hphase]
  split
  · exact abort_inv hstart s _
  · next hover =>
    have hbound : (s.v2View r).out.length ≤ r.dlen.toNat := by simpa [v2Overruns] using hover
    split
    · exact ⟨hs, by rw [hphase]; exact ⟨hstart, hbound⟩⟩
    · exact finish_inv hstart (fun y hy => v2Finish_decoded hs hbound hy) s p

theorem v2Put_ok_phase (s : State) (r : Run) (nbits : Nat) (d : V2State) :
    (s.v2Put r nbits (.ok d)).phase = .v2 { r with out := d.out } nbits := rfl

theorem v2Put_v2After_inv {s : State} {r : Run} {nbits : Nat} {res : Except Err V2State} (hs : s.toArch.Inv)
    (hstart : r.start.Inv) (p : Params) : ((s.v2Put r nbits res).v2After p).Inv := by
  cases res with
  | ok d => exact v2After_inv (v2Put_ok_phase s r nbits d) (hs.congr rfl) hstart p
  | error e => exact abort_inv hstart s e

/-! ### Every step -/

theorem stepHost_inv {s t : State} (hidle : s.phase = .idle) (hs : s.toArch.Inv) (h : stepHost s = .next t) :
    t.Inv := by
  have hcases := stepHost_cases s
  rw [h] at hcases
  cases hcases with
  | nothing rest => exact State.inv_of_idle hidle hs
  | command rest res i hres => exact State.inv_of_idle rfl (completed_inv hs fun y hy => hres.inv hs hy)
  | register rest reg v => exact State.inv_of_idle hidle (hs.congr (hostWriteReg_checked ..))
  | store rest sp a bs hfit => exact State.inv_of_idle hidle (hs.write hfit)

theorem stepV1_inv {s t : State} {r : Run} (hphase : s.phase = .v1 r) (hs : s.Inv) (h : stepV1 s r = .next t) :
    t.Inv := by
  obtain ⟨hstart, hbound⟩ := hs.of_v1 hphase
  rcases stepV1_cases hphase with hstep | ⟨tok, rest, hdec, hstep⟩ <;> rw [hstep] at h <;> cases h
  · exact abort_inv hstart s _
  · exact v1After_inv (v1Put_inv hs.arch hstart fun d hd => v1Exec_bounded hbound hdec hd) _

theorem stepV2_inv {s t : State} {r : Run} {nbits : Nat} (hphase : s.phase = .v2 r nbits) (hs : s.Inv)
    (h : stepV2 s r nbits = .next t) : t.Inv := by
  obtain ⟨hstart, -⟩ := hs.of_v2 hphase
  rcases stepV2_cases hphase with hstep | ⟨u, hstep⟩ <;> rw [hstep] at h <;> cases h
  · exact abort_inv hstart s _
  · exact v2Put_v2After_inv hs.arch hstart _

/-- Settles O59, one case per phase: the host's action, a V1 token, a V2 token. -/
theorem stepKeepsInvariant : Obligations.StepKeepsInvariant := by
  intro s t hs h
  cases hphase : s.phase with
  | idle =>
    rw [step_of_idle hphase] at h
    exact stepHost_inv hphase hs.arch h
  | v1 r =>
    rw [step_of_v1 hphase] at h
    exact stepV1_inv hphase hs h
  | v2 r nbits =>
    rw [step_of_v2 hphase] at h
    exact stepV2_inv hphase hs h

end Sys2Proof.Machine

/-! PROOFS. The command values, the V1 tokens and the unary V2 values decode to what was encoded and to nothing else; BREF's
operand ranges; ENCODE_REF. -/

namespace Sys2Proof

/-! ### Command values -/

/-- The values past the thirteen commands are reserved (R73). -/
theorem decodeCommand_of_ge {op : Byte} (h : 0x0D ≤ op.toNat) : decodeCommand op = .illegalCmd op := by
  unfold decodeCommand
  split
  case h_14 => rfl
  all_goals omega

/-- Each value is the encoding of the command it selects, by the rows of R72. -/
theorem encode_decodeCommand (op : Byte) : encode (decodeCommand op) = .command op := by
  unfold decodeCommand
  split
  case h_14 => rfl
  all_goals
    next hop => exact congrArg Code.command (BitVec.eq_of_toNat_eq hop.symm)

theorem wellFormed_decodeCommand (op : Byte) : (decodeCommand op).wellFormed = true := by
  unfold decodeCommand
  split
  case h_14 =>
    simp only [Instr.wellFormed, decide_eq_true_eq, imp_false] at *
    omega
  all_goals rfl

/-! ### V1 tokens, by the first byte -/

theorem decodeV1Token_zero (b : Byte) (rest : List Byte) : decodeV1Token (0 :: b :: rest) = .ok (.lit b, rest) := rfl

theorem decodeV1Token_of_le {n : Byte} (hpos : 1 ≤ n.toNat) (hle : n.toNat ≤ 0x3B) (rest : List Byte) :
    decodeV1Token (n :: rest) = .ok (.tab ⟨n.toNat - 1, by omega⟩, rest) := by
  have hne : n ≠ 0 := by bv_omega
  have hindex : n.toNat - 1 < 59 := by omega
  simp only [decodeV1Token, if_neg hne, dif_pos hindex]

theorem decodeV1Token_of_ge {n : Byte} (h : 0x3C ≤ n.toNat) (m : Byte) (rest : List Byte) :
    decodeV1Token (n :: m :: rest) =
      .ok (.bref ⟨n.toNat - 0x3C, by omega⟩ (m.extractLsb' 4 4) (m.extractLsb' 0 4), rest) := by
  have hne : n ≠ 0 := by bv_omega
  have hrow : Fin.ofNat 196 (n.toNat - 0x3C) = ⟨n.toNat - 0x3C, by omega⟩ := Fin.ext (Nat.mod_eq_of_lt (by omega))
  rw [decodeV1Token, if_neg hne, dif_neg (by omega)]
  simp only [hrow]

/-- A token of two bytes is cut off after its first (R162). -/
theorem decodeV1Token_singleton {n : Byte} (h : n.toNat = 0 ∨ 0x3C ≤ n.toNat) :
    decodeV1Token [n] = .error .v1Truncated := by
  rcases h with h | h
  · have hzero : n = 0 := BitVec.eq_of_toNat_eq h
    rw [hzero]
    rfl
  · have hne : n ≠ 0 := by bv_omega
    rw [decodeV1Token, if_neg hne, dif_neg (by omega)]

/-- Settles O4: one conjunct per range of the first byte. -/
theorem firstByteDecidesV1Token : Obligations.FirstByteDecidesV1Token := by
  intro n rest
  refine ⟨fun hzero b => ?_, fun hpos hle => ?_, fun hge m => ?_, decodeV1Token_singleton⟩
  · have hn : n = 0 := BitVec.eq_of_toNat_eq hzero
    rw [hn, decodeV1Token_zero]
  · exact ⟨_, rfl, decodeV1Token_of_le hpos hle rest⟩
  · refine ⟨_, _, _, rfl, ?_, ?_, decodeV1Token_of_ge hge m rest⟩
    · have := m.isLt
      simp only [BitVec.extractLsb'_toNat, Nat.shiftRight_eq_div_pow]
      omega
    · simp

/-! ### V1 tokens, encoded and decoded -/

/-- The first byte of a TAB is its index plus one (R81). -/
theorem toNat_tabByte (i : Fin 59) : (BitVec.ofNat 8 (i.val + 1)).toNat = i.val + 1 :=
  Nat.mod_eq_of_lt (by omega)

/-- The first byte of a BREF is 0x3C plus its row (R82). -/
theorem toNat_brefByte (row : Fin 196) : (BitVec.ofNat 8 (0x3C + row.val)).toNat = 0x3C + row.val :=
  Nat.mod_eq_of_lt (by omega)

/-- A byte is its two nibbles. -/
theorem append_nibbles (m : Byte) : m.extractLsb' 4 4 ++ m.extractLsb' 0 4 = m :=
  BitVec.extractLsb'_append_extractLsb'_eq_extractLsb' (by rfl) |>.trans BitVec.extractLsb'_eq_self

/-- The bytes of a token decode to it and leave what follows. -/
theorem decodeV1Token_encode (t : V1Token) (rest : List Byte) : decodeV1Token (t.encode ++ rest) = .ok (t, rest) := by
  cases t with
  | lit b => rfl
  | tab i =>
    have hbyte := toNat_tabByte i
    refine (decodeV1Token_of_le (by omega) (by omega) rest).trans ?_
    simp only [hbyte, Nat.add_sub_cancel]
  | bref row h l =>
    have hbyte := toNat_brefByte row
    refine (decodeV1Token_of_ge (by omega) (h ++ l) rest).trans ?_
    simp only [hbyte, Nat.add_sub_cancel_left, BitVec.extractLsb'_append_eq_left,
      BitVec.extractLsb'_append_eq_right]

/-- A token that decodes was there as the bytes that encode it. -/
theorem eq_encode_of_decodeV1Token {bs rest : List Byte} {t : V1Token} (hdec : decodeV1Token bs = .ok (t, rest)) :
    bs = t.encode ++ rest := by
  match bs with
  | [] => cases hdec
  | n :: tail =>
    obtain hzero | ⟨hpos, hle⟩ | hge : n.toNat = 0 ∨ (1 ≤ n.toNat ∧ n.toNat ≤ 0x3B) ∨ 0x3C ≤ n.toNat := by omega
    · have hn : n = 0 := BitVec.eq_of_toNat_eq hzero
      subst hn
      match tail with
      | [] => cases hdec
      | b :: tail => cases hdec; rfl
    · rw [decodeV1Token_of_le hpos hle] at hdec
      cases hdec
      have hn : BitVec.ofNat 8 (n.toNat - 1 + 1) = n := by
        rw [Nat.sub_add_cancel hpos, BitVec.ofNat_toNat, BitVec.setWidth_eq]
      simp only [V1Token.encode, hn, List.singleton_append]
    · match tail with
      | [] => rw [decodeV1Token_singleton (.inr hge)] at hdec; cases hdec
      | m :: tail =>
        rw [decodeV1Token_of_ge hge] at hdec
        cases hdec
        have hn : BitVec.ofNat 8 (0x3C + (n.toNat - 0x3C)) = n := by
          rw [Nat.add_sub_cancel' hge, BitVec.ofNat_toNat, BitVec.setWidth_eq]
        simp only [V1Token.encode, hn, append_nibbles, List.cons_append, List.nil_append]

/-! ### Encoded forms -/

theorem encode_toInstr (t : V1Token) : encode t.toInstr = .v1 t.encode := by
  cases t <;> rfl

theorem wellFormed_toInstr (t : V1Token) : t.toInstr.wellFormed = true := by
  cases t <;> rfl

theorem decode_v1_eq_ok {bytes : List Byte} {i : Instr} :
    decode (.v1 bytes) = .ok i ↔ ∃ t : V1Token, bytes = t.encode ∧ i = t.toInstr := by
  constructor
  · intro h
    simp only [decode] at h
    split at h
    · cases h
    · next t hdec =>
      cases h
      exact ⟨t, by simpa using eq_encode_of_decodeV1Token hdec, rfl⟩
    · cases h
  · rintro ⟨t, rfl, rfl⟩
    have hdec : decodeV1Token t.encode = .ok (t, []) := by simpa using decodeV1Token_encode t []
    simp only [decode, hdec]

theorem decode_v2_eq_ok {bits : List Bool} {i : Instr} :
    decode (.v2 bits) = .ok i ↔ ∃ u, bits = encodeUnary u ∧ i = .v2Token u := by
  constructor
  · intro h
    simp only [decode] at h
    split at h
    · cases h
    · next u hread =>
      cases h
      exact ⟨u, Machine.readUnary_eq_some.mp hread, rfl⟩
    · cases h
  · rintro ⟨u, rfl, rfl⟩
    have hread : readUnary (encodeUnary u) = some (u, []) := Machine.readUnary_eq_some.mpr rfl
    simp only [decode, hread]

/-- Settles O1: the commands by the rows of R72 and R73, the tokens and the unary value by their own decoders. -/
theorem decodeOfEncodeIsIdentity : Obligations.DecodeOfEncodeIsIdentity := by
  intro i hwf
  cases i with
  | nop | extract | pack | classify | decodeV0 | decodeV1 | decodeV2 | decodeBytes | decodeImage | find | encodeRef
  | encode | softReset => rfl
  | illegalCmd op => exact congrArg Except.ok (decodeCommand_of_ge (of_decide_eq_true hwf))
  | lit b => exact decode_v1_eq_ok.mpr ⟨.lit b, rfl, rfl⟩
  | tab k => exact decode_v1_eq_ok.mpr ⟨.tab k, rfl, rfl⟩
  | bref row h l => exact decode_v1_eq_ok.mpr ⟨.bref row h l, rfl, rfl⟩
  | v2Token u => exact decode_v2_eq_ok.mpr ⟨u, rfl, rfl⟩

/-- Settles O2, one case per kind of encoded form. -/
theorem encodingsAreUnique : Obligations.EncodingsAreUnique := by
  intro c i hdec
  cases c with
  | command op =>
    cases hdec
    exact ⟨encode_decodeCommand op, wellFormed_decodeCommand op⟩
  | v1 bytes =>
    obtain ⟨t, rfl, rfl⟩ := decode_v1_eq_ok.mp hdec
    exact ⟨encode_toInstr t, wellFormed_toInstr t⟩
  | v2 bits =>
    obtain ⟨u, rfl, rfl⟩ := decode_v2_eq_ok.mp hdec
    exact ⟨rfl, rfl⟩

/-- Settles O3. -/
theorem commandMapIsTheTable : Obligations.CommandMapIsTheTable := ⟨rfl, fun _ => decodeCommand_of_ge⟩

/-- Settles O6: each word is the encoding of its instruction, so O1 decodes it. -/
theorem spelledWordsDecode : Obligations.SpelledWordsDecode :=
  ⟨decodeOfEncodeIsIdentity .decodeBytes rfl, decodeOfEncodeIsIdentity .encode rfl,
    decodeOfEncodeIsIdentity (.illegalCmd 0x7F) rfl, decodeOfEncodeIsIdentity (.lit 0x41) rfl,
    decodeOfEncodeIsIdentity (.tab 58) rfl, decodeOfEncodeIsIdentity (.bref 1 0 5) rfl,
    decodeOfEncodeIsIdentity (.v2Token 3) rfl⟩

end Sys2Proof

namespace Sys2Proof.Machine

/-! ### BREF's operands -/

theorem brefDistance_doc (row : Fin 196) (h l : BitVec 4) : brefDistance .doc row h l = row.val * 16 + h.toNat := rfl

theorem brefLength_doc (h l : BitVec 4) : brefLength .doc h l = l.toNat + 2 := rfl

/-- Settles O5: a distance is its row and a nibble as quotient and remainder by 16, a length a nibble plus 2 (R83). -/
theorem brefOperandsHaveOneEncoding : Obligations.BrefOperandsHaveOneEncoding := by
  refine ⟨fun row h l => ?_, fun distance length _ _ _ row h l => ?_⟩
  · have hh := h.isLt
    have hl := l.isLt
    rw [brefDistance_doc, brefLength_doc]
    omega
  · have hh := h.isLt
    rw [brefDistance_doc, brefLength_doc]
    omega

/-! ### What a command that succeeds stores -/

/-- STATUS and the phase are no memory: the results are read as they stand. -/
theorem read_complete_ok (s : State) (y : Arch) (sp : Space) (a : Nat) :
    (s.complete (.ok y)).read sp a = y.read sp a :=
  read_congr (by cases sp <;> rfl) a

/-- A state that reads as `s` after one write differs from `s` in the bytes written alone. -/
theorem storesOnly_of_read_eq {s t : State} {sp : Space} {a : Nat} {bs : List Byte}
    (h : ∀ sp' i, t.read sp' i = (s.toArch.write sp a bs).read sp' i) : storesOnly s t sp a bs.length := by
  intro sp' i hout
  rw [h]
  by_cases hsp : sp' = sp
  · subst hsp
    have hoff : ¬ (a ≤ i ∧ i < a + bs.length) := fun hin => hout ⟨rfl, hin⟩
    exact read_write_out _ _ _ _ _ (by omega)
  · exact read_write_ne _ hsp ..

/-! ### ENCODE_REF -/

/-- The fewest bytes that hold a 16-bit field, at least one (R88). -/
def fieldWidth (v : Nat) : Nat := if v ≤ 0xFF then 1 else 2

theorem beVar_length_eq_fieldWidth (v : Half) : (beVar v).length = fieldWidth v.toNat := beVar_length v

theorem refToken_length_eq (len dist : Half) :
    (refToken len dist).length = fieldWidth len.toNat + 1 + fieldWidth dist.toNat := by
  simp only [refToken, List.length_append, List.length_singleton, beVar_length_eq_fieldWidth]

/-- A byte of a field, by its place in the field. -/
theorem toNat_of_beVar_getElem? {v : Half} {j : Nat} {b : Byte} (h : (beVar v)[j]? = some b) :
    b.toNat = v.toNat / 256 ^ (fieldWidth v.toNat - 1 - j) % 256 := by
  obtain ⟨hj, rfl⟩ := List.getElem?_eq_some_iff.mp h
  rw [beVar_getElem v j hj, beVar_length_eq_fieldWidth]

theorem encodeRefBody_toklen (x : Arch) :
    (encodeRefBody x).toklen.toNat = (refToken x.elen x.edist).length := by
  have hlen := refToken_length x.elen x.edist
  exact Nat.mod_eq_of_lt (by omega)

theorem read_encodeRefBody (x : Arch) (sp : Space) (a : Nat) :
    (encodeRefBody x).read sp a = (x.write .tok 0 (refToken x.elen x.edist)).read sp a :=
  read_congr (by cases sp <;> rfl) a

/-- TOK after ENCODE_REF: the reference token (R228). -/
theorem read_encodeRefBody_tok (x : Arch) {j : Nat} (hj : j < (refToken x.elen x.edist).length) :
    (refToken x.elen x.edist)[j]? = some ((encodeRefBody x).read .tok j) := by
  rw [read_encodeRefBody, read_write, dif_pos (by omega)]
  exact List.getElem?_eq_getElem hj

theorem refToken_getElem?_length {len dist : Half} {j : Nat} (hj : j < fieldWidth len.toNat) :
    (refToken len dist)[j]? = (beVar len)[j]? := by
  have hlen := beVar_length_eq_fieldWidth len
  rw [refToken, List.append_assoc, List.getElem?_append_left (by omega)]

theorem refToken_getElem?_sep (len dist : Half) : (refToken len dist)[fieldWidth len.toNat]? = some refSep := by
  rw [refToken, ← beVar_length_eq_fieldWidth, List.append_assoc, List.getElem?_append_right (Nat.le_refl _)]
  simp

theorem refToken_getElem?_distance (len dist : Half) (j : Nat) :
    (refToken len dist)[fieldWidth len.toNat + 1 + j]? = (beVar dist)[j]? := by
  have hlen : (beVar len ++ [refSep]).length = fieldWidth len.toNat + 1 := by
    rw [List.length_append, beVar_length_eq_fieldWidth, List.length_singleton]
  rw [refToken, List.getElem?_append_right (by omega), hlen, Nat.add_sub_cancel_left]

/-- Settles O41: the token's three parts read back from TOK, and the frame. -/
theorem encodeRefCompletes : Obligations.EncodeRefCompletes := by
  intro s
  have hlen := refToken_length_eq s.elen s.edist
  have htoklen := encodeRefBody_toklen s.toArch
  refine ⟨s.complete (.ok (encodeRefBody s.toArch)), fieldWidth, exec_of_commandResult .encodeRef, rfl, fun _ => rfl,
    htoklen.trans hlen, fun j hj => ?_, ?_, fun j hj => ?_, ?_, rfl, rfl, rfl⟩
  · rw [read_complete_ok]
    exact toNat_of_beVar_getElem? ((refToken_getElem?_length hj).symm.trans (read_encodeRefBody_tok _ (by omega)))
  · rw [read_complete_ok]
    have hsep := read_encodeRefBody_tok s.toArch (j := fieldWidth s.elen.toNat) (by omega)
    rw [refToken_getElem?_sep] at hsep
    exact (Option.some.inj hsep).symm
  · rw [read_complete_ok]
    exact toNat_of_beVar_getElem?
      ((refToken_getElem?_distance ..).symm.trans (read_encodeRefBody_tok _ (by omega)))
  · have hstores : storesOnly s (s.complete (.ok (encodeRefBody s.toArch))) .tok 0 (refToken s.elen s.edist).length :=
      storesOnly_of_read_eq fun sp a => by rw [read_complete_ok, read_encodeRefBody]
    rwa [← htoklen] at hstores

end Sys2Proof.Machine

/-! PROOFS. The channel extractor (40_channel.md): the lanes of a pixel, the checks of the pixel operands in each command
that makes them, what EXTRACT and PACK leave, and that each undoes the other. -/

namespace Sys2Proof.Machine

/-! ### Lanes -/

/-- Each lane of the cartridge byte is the low two bits of one channel (R100, R111). -/
theorem chanByte_lanes (r g b a : Byte) :
    (chanByte r g b a).extractLsb' 4 2 = r.extractLsb' 0 2 ∧ (chanByte r g b a).extractLsb' 2 2 = g.extractLsb' 0 2 ∧
      (chanByte r g b a).extractLsb' 0 2 = b.extractLsb' 0 2 ∧ (chanByte r g b a).extractLsb' 6 2 = a.extractLsb' 0 2 := by
  refine ⟨?_, ?_, ?_, ?_⟩
  all_goals
    ext i hi
    obtain rfl | rfl : i = 0 ∨ i = 1 := by omega
    all_goals simp [chanByte]

/-- A channel keeps its bits 7:2 when a lane is stored in it (R101). -/
theorem putLane_high (c lane : Byte) : (putLane c lane).extractLsb' 2 6 = c.extractLsb' 2 6 := by
  ext i hi
  obtain rfl | rfl | rfl | rfl | rfl | rfl : i = 0 ∨ i = 1 ∨ i = 2 ∨ i = 3 ∨ i = 4 ∨ i = 5 := by omega
  all_goals simp [putLane]

/-- A pixel that a byte was stored in carries that byte. -/
theorem chanByte_of_eq_chanPut {r g b a v r' g' b' a' : Byte} (h : [r', g', b', a'] = chanPut r g b a v) :
    chanByte r' g' b' a' = v := by
  obtain ⟨rfl, rfl, rfl, rfl⟩ : r' = putLane r (v >>> 4) ∧ g' = putLane g (v >>> 2) ∧ b' = putLane b v ∧
      a' = putLane a (v >>> 6) := by simpa [chanPut] using h
  exact chanByte_chanPut r g b a v

/-- Settles O11: each lane by its two bits, the stored byte by the round trip of the lanes. -/
theorem pixelLanesAreIndependent : Obligations.PixelLanesAreIndependent := by
  intro r g b a v
  obtain ⟨hr, hg, hb, ha⟩ := chanByte_lanes r g b a
  exact ⟨hr, hg, hb, ha, _, _, _, _, rfl, chanByte_chanPut r g b a v, putLane_high .., putLane_high ..,
    putLane_high .., putLane_high ..⟩

/-! ### Checks that fail -/

/-- A command whose result is an error completes with its STATUS and changes nothing else. -/
theorem failsWith_of_commandResult {i : Instr} {s : State} {res : Except Err Arch} {e : Err}
    (h : CommandResult Config.params s.toArch i res) (herr : res = .error e) : failsWith i s e.status := by
  subst herr
  exact exec_of_commandResult h

/-- The first failing check of the pixel operands: BPP, then capacity, then whole pixels (R104, R106, R105). -/
theorem imageCheck_eq_some {p : Params} {x : Arch}
    (h : x.bpp ≠ 4 ∨ p.pixCap < x.pixlen.toNat ∨ x.pixlen.toNat % 4 ≠ 0) :
    imageCheck p x =
      some (if x.bpp ≠ 4 then .bpp else if p.pixCap < x.pixlen.toNat then .pixlenCap else .pixlenPartial) := by
  unfold imageCheck
  by_cases hbpp : x.bpp ≠ 4
  · rw [if_pos hbpp, if_pos hbpp]
  · by_cases hcap : p.pixCap < x.pixlen.toNat
    · simp only [if_neg hbpp, if_pos hcap]
    · have hpartial : x.pixlen.toNat % 4 ≠ 0 := (h.resolve_left hbpp).resolve_left hcap
      simp only [if_neg hbpp, if_neg hcap, if_pos hpartial]

theorem packCheck_of_imageCheck_error {p : Params} {x : Arch} {e : Err} (h : imageCheck p x = some e) :
    packCheck p x = some e := by
  simp only [packCheck, h]

theorem packCheck_of_small {p : Params} {x : Arch} (h : imageCheck p x = none) (hsmall : x.pixlen.toNat / 4 < 32768) :
    packCheck p x = some .packShort := by
  simp only [packCheck, h]
  exact if_pos hsmall

theorem extract_of_imageCheck_error {p : Params} {x : Arch} {e : Err} (h : imageCheck p x = some e) :
    extract p x = .error e := by
  simp only [extract, h]

theorem decodeImage_of_imageCheck_error {p : Params} {x : Arch} {e : Err} (h : imageCheck p x = some e) :
    decodeImage p x = .error e := by
  simp only [decodeImage, extract_of_imageCheck_error h]

theorem pack_of_packCheck_error {p : Params} {x : Arch} {e : Err} (h : packCheck p x = some e) :
    pack p x = .error e := by
  simp only [pack, h]

theorem encodeText_of_encodeCheck_error {p : Params} {x : Arch} {e : Err} (h : encodeCheck p x = some e) :
    encodeText p x = .error e := by
  simp only [encodeText, h]

/-- Asked for V0, ENCODE makes PACK's checks first (R151). -/
theorem encodeText_of_packCheck_error {p : Params} {x : Arch} {e : Err} (hsel : x.encSel = 0)
    (h : packCheck p x = some e) : encodeText p x = .error e :=
  encodeText_of_encodeCheck_error (by simp only [encodeCheck, encSelCheck_eq_none.mpr hsel, h])

/-- The four commands that make the checks of the pixel operands fail alike where these fail. -/
theorem commandResult_of_imageCheck_error {p : Params} {x : Arch} {i : Instr} {e : Err}
    (hi : i = .extract ∨ i = .pack ∨ i = .decodeImage ∨ (i = .encode ∧ x.encSel = 0)) (h : imageCheck p x = some e) :
    CommandResult p x i (.error e) := by
  have hpack := packCheck_of_imageCheck_error h
  obtain rfl | rfl | rfl | ⟨rfl, hsel⟩ := hi
  · exact extract_of_imageCheck_error h ▸ .extract
  · exact pack_of_packCheck_error hpack ▸ .pack
  · exact decodeImage_of_imageCheck_error h ▸ .decodeImage
  · exact encodeText_of_packCheck_error hsel hpack ▸ .encode

/-- Settles O13: the first failing check is the same in the four commands, and each case has its STATUS. -/
theorem pixelChecksInOrder : Obligations.PixelChecksInOrder := by
  intro s i hi hbad
  have hfails := failsWith_of_commandResult (commandResult_of_imageCheck_error hi (imageCheck_eq_some hbad)) rfl
  rw [apply_ite Err.status, apply_ite Err.status] at hfails
  exact hfails

/-- A sound text that would be read back as V1 or V2 is refused (R153). -/
theorem textCheck_of_magic {p : Params} {x : Arch} (hlen : x.outlen.toNat ≤ codeLen) (hutf8 : validUtf8 x.text = true)
    (hnul : (0 : Byte) ∉ x.text) (hmagic : textMagic x.text = p.magicV1 ∨ textMagic x.text = p.magicV2) :
    textCheck p x = some .encMagic := by
  simp only [textCheck, if_neg (Nat.not_lt.mpr hlen), hutf8, if_neg hnul, if_pos hmagic, Bool.not_true,
    Bool.false_eq_true, if_false]

/-- Settles O16: the capacity check is the first to fail where BPP is 4; the text's magic is the last check of ENCODE. -/
theorem checksOfEveryOpenParameter : Obligations.ChecksOfEveryOpenParameter := by
  refine fun p x hbpp => ⟨fun hcap => ?_, fun hcap hsel hpartial hsize hlen hutf8 hnul hmagic => ?_⟩
  · have himage : imageCheck p x = some .pixlenCap := by
      rw [imageCheck_eq_some (.inr (.inl hcap)), if_neg (not_not.mpr hbpp), if_pos hcap]
    have hpack := packCheck_of_imageCheck_error himage
    exact ⟨extract_of_imageCheck_error himage, pack_of_packCheck_error hpack, decodeImage_of_imageCheck_error himage,
      fun hsel => encodeText_of_packCheck_error hsel hpack⟩
  · have hpack : packCheck p x = none := packCheck_eq_none.mpr ⟨⟨hbpp, hcap, hpartial⟩, hsize⟩
    have htext : textCheck p x = some .encMagic := textCheck_of_magic hlen hutf8 hnul hmagic
    exact encodeText_of_encodeCheck_error (by simp only [encodeCheck, encSelCheck_eq_none.mpr hsel, hpack, htext])

/-! ### EXTRACT -/

/-- EXTRACT's results (R102). -/
def extractBody (x : Arch) : Arch :=
  { x.write .cart 0 ((List.range (min x.npix cartSize)).map (pixelByte x)) with cartlen := BitVec.ofNat 32 x.npix }

/-- EXTRACT succeeds with its results where the checks of the pixel operands pass. -/
theorem extract_of_imageCheck_none {p : Params} {x : Arch} (h : imageCheck p x = none) :
    extract p x = .ok (extractBody x) := by
  simp only [extract, h, extractBody]

theorem extractBody_cartlen_toNat (x : Arch) : (extractBody x).cartlen.toNat = x.pixlen.toNat / 4 :=
  Nat.mod_eq_of_lt (by have := x.pixlen.isLt; simp only [Arch.npix]; omega)

theorem read_extractBody (x : Arch) (sp : Space) (a : Nat) :
    (extractBody x).read sp a =
      (x.write .cart 0 ((List.range (min x.npix cartSize)).map (pixelByte x))).read sp a :=
  read_congr (by cases sp <;> rfl) a

/-- CART after EXTRACT: what the pixels carry (R102). -/
theorem read_extractBody_cart (x : Arch) {k : Nat} (hk : k < min x.npix cartSize) :
    (extractBody x).read .cart k = pixelByte x k := by
  rw [read_extractBody, read_extractBytes, if_pos hk]

/-- EXTRACT stores as many cartridge bytes as there are pixels, and no more than 32768 (R103). -/
theorem storesOnly_extractBody (s : State) :
    storesOnly s (s.complete (.ok (extractBody s.toArch))) .cart 0 (min s.npix cartSize) := by
  have hstores : storesOnly s (s.complete (.ok (extractBody s.toArch))) .cart 0
      ((List.range (min s.npix cartSize)).map (pixelByte s.toArch)).length :=
    storesOnly_of_read_eq fun sp a => by rw [read_complete_ok, read_extractBody]
  rwa [List.length_map, List.length_range] at hstores

/-- Settles O12: the results of EXTRACT, read back, and the frame. -/
theorem extractCompletes : Obligations.ExtractCompletes := by
  intro s hbpp hcap hpartial
  have hres := extract_of_imageCheck_none (imageCheck_eq_none.mpr ⟨hbpp, hcap, hpartial⟩)
  refine ⟨s.complete (.ok (extractBody s.toArch)), exec_of_commandResult (hres ▸ .extract), rfl,
    extractBody_cartlen_toNat s.toArch, fun k hk => ?_, storesOnly_extractBody s, rfl, rfl, rfl⟩
  rw [read_complete_ok]
  exact read_extractBody_cart s.toArch hk

/-- Settles O15: PACK's check of the image's size fails, and the cartridge that DECODE_IMAGE extracts is too short. -/
theorem smallImagesFail : Obligations.SmallImagesFail := by
  intro s hbpp hcap hpartial hsmall
  have himage : imageCheck Config.params s.toArch = none := imageCheck_eq_none.mpr ⟨hbpp, hcap, hpartial⟩
  have hpack := packCheck_of_small himage hsmall
  have hshort : shortCart (extractBody s.toArch) = true :=
    shortCart_eq_true.mpr (by rwa [extractBody_cartlen_toNat])
  have hdecode : decodeImage Config.params s.toArch = .error .shortCart := by
    simp only [decodeImage, extract_of_imageCheck_none himage, decodeBytes, hshort, if_true]
  exact ⟨failsWith_of_commandResult .pack (pack_of_packCheck_error hpack),
    fun hsel => failsWith_of_commandResult .encode (encodeText_of_packCheck_error hsel hpack),
    failsWith_of_commandResult .decodeImage hdecode⟩

/-! ### PACK -/

theorem pack_of_packCheck_none {p : Params} {x : Arch} (h : packCheck p x = none) : pack p x = .ok (packBody x) := by
  simp only [pack, h]

/-- Pixel `k` after PACK (R107). -/
theorem read_packBody_pixel (x : Arch) {k : Nat} (hk : k < 32768) :
    [(packBody x).read .pix (4 * k), (packBody x).read .pix (4 * k + 1), (packBody x).read .pix (4 * k + 2),
      (packBody x).read .pix (4 * k + 3)] = pixelWith x k (x.read .cart k) := by
  have hbyte : ∀ j, j < 4 → some ((packBody x).read .pix (4 * k + j)) = (pixelWith x k (x.read .cart k))[j]? :=
    fun j => read_packBody x k j hk
  simpa [pixelWith, chanPut] using And.intro (hbyte 0 (by omega))
    (And.intro (hbyte 1 (by omega)) (And.intro (hbyte 2 (by omega)) (hbyte 3 (by omega))))

/-- PACK stores the bytes of the first 32768 pixels (R108). -/
theorem storesOnly_packBody (s : State) :
    storesOnly s (s.complete (.ok (packBody s.toArch))) .pix 0 131072 := by
  rw [← packBytes_length s.toArch]
  exact storesOnly_of_read_eq fun sp a => read_complete_ok s (packBody s.toArch) sp a

/-- Settles O14: the results of PACK, read back pixel by pixel, and the frame. -/
theorem packCompletes : Obligations.PackCompletes := by
  intro s hbpp hcap hpartial hsize
  have hres := pack_of_packCheck_none (packCheck_eq_none.mpr ⟨⟨hbpp, hcap, hpartial⟩, hsize⟩)
  refine ⟨s.complete (.ok (packBody s.toArch)), exec_of_commandResult (hres ▸ .pack), rfl, fun k hk => ?_,
    storesOnly_packBody s, rfl, rfl, rfl⟩
  simp only [read_complete_ok]
  exact read_packBody_pixel s.toArch hk

/-! ### Round trip -/

/-- A byte of an image lies in the pixel of its address divided by 4. -/
theorem read_pix_eq_of_pixels {x y : Arch} {n : Nat}
    (h : ∀ k, k < n → [y.read .pix (4 * k), y.read .pix (4 * k + 1), y.read .pix (4 * k + 2), y.read .pix (4 * k + 3)] =
      [x.read .pix (4 * k), x.read .pix (4 * k + 1), x.read .pix (4 * k + 2), x.read .pix (4 * k + 3)])
    {a : Nat} (ha : a < 4 * n) : y.read .pix a = x.read .pix a := by
  obtain ⟨k, j, hk, hj, rfl⟩ : ∃ k j, k < n ∧ j < 4 ∧ a = 4 * k + j := ⟨a / 4, a % 4, by omega, by omega, by omega⟩
  obtain ⟨h0, h1, h2, h3⟩ : y.read .pix (4 * k) = x.read .pix (4 * k) ∧
      y.read .pix (4 * k + 1) = x.read .pix (4 * k + 1) ∧ y.read .pix (4 * k + 2) = x.read .pix (4 * k + 2) ∧
      y.read .pix (4 * k + 3) = x.read .pix (4 * k + 3) := by simpa using h k hk
  obtain rfl | rfl | rfl | rfl : j = 0 ∨ j = 1 ∨ j = 2 ∨ j = 3 := by omega
  · exact h0
  · exact h1
  · exact h2
  · exact h3

/-- EXTRACT, then PACK: every pixel gets back the byte it carried (R110 (a)). -/
theorem exec_extract_pack {s : State} (hbpp : s.bpp = 4) (hcap : s.pixlen.toNat ≤ Config.params.pixCap)
    (hpartial : s.pixlen.toNat % 4 = 0) (hsize : 32768 ≤ s.pixlen.toNat / 4) :
    ∃ t u, exec .extract s = .next t ∧ exec .pack t = .next u ∧ u.status = 0x0001 ∧
      ∀ a, u.read .pix a = s.read .pix a := by
  obtain ⟨t, hexec, -, -, hcart, hstores, hframe, -, -⟩ := extractCompletes s hbpp hcap hpartial
  have htbpp : t.bpp = s.bpp := (congrArg Arch.bpp hframe :)
  have htpixlen : t.pixlen = s.pixlen := (congrArg Arch.pixlen hframe :)
  have htpix : ∀ a, t.read .pix a = s.read .pix a := fun a => hstores .pix a (by simp)
  rw [← htbpp] at hbpp
  rw [← htpixlen] at hcap hpartial hsize
  obtain ⟨u, hexec', hstatus, hpixel, hstores', -⟩ := packCompletes t hbpp hcap hpartial hsize
  refine ⟨t, u, hexec, hexec', hstatus, fun a => ?_⟩
  by_cases ha : a < 131072
  · refine read_pix_eq_of_pixels (n := 32768) (fun k hk => ?_) ha
    have hcarried := hcart k (by rw [← htpixlen]; omega)
    rw [hpixel k hk, hcarried, htpix, htpix, htpix, htpix]
    exact chanPut_chanByte ..
  · rw [hstores' .pix a (by omega), htpix]

/-- PACK, then EXTRACT: every cartridge byte is read back from its pixel (R110 (b)). -/
theorem exec_pack_extract {s : State} (hbpp : s.bpp = 4) (hcap : s.pixlen.toNat ≤ Config.params.pixCap)
    (hpartial : s.pixlen.toNat % 4 = 0) (hsize : 32768 ≤ s.pixlen.toNat / 4) :
    ∃ t u, exec .pack s = .next t ∧ exec .extract t = .next u ∧ u.status = 0x0001 ∧
      ∀ a, a < 32768 → u.read .cart a = s.read .cart a := by
  obtain ⟨t, hexec, -, hpixel, -, hframe, -, -⟩ := packCompletes s hbpp hcap hpartial hsize
  have htbpp : t.bpp = s.bpp := (congrArg Arch.bpp hframe :)
  have htpixlen : t.pixlen = s.pixlen := (congrArg Arch.pixlen hframe :)
  rw [← htbpp] at hbpp
  rw [← htpixlen] at hcap hpartial hsize
  obtain ⟨u, hexec', hstatus, -, hcart, -⟩ := extractCompletes t hbpp hcap hpartial
  refine ⟨t, u, hexec, hexec', hstatus, fun a ha => ?_⟩
  rw [hcart a (by omega)]
  exact chanByte_of_eq_chanPut (hpixel a ha)

/-- Settles O17: the two round trips. -/
theorem extractPackRoundTrip : Obligations.ExtractPackRoundTrip := fun _ hbpp hcap hpartial hsize =>
  ⟨exec_extract_pack hbpp hcap hpartial hsize, exec_pack_extract hbpp hcap hpartial hsize⟩

end Sys2Proof.Machine

/-! PROOFS. The version-tag classifier (41_classify.md): the tag of every magic value, and what CLASSIFY leaves. -/

namespace Sys2Proof.Machine

/-! ### The tag of a magic value -/

theorem classify_eq_v1_iff (p : Params) (m : Word) : classify p m = .v1 ↔ m = p.magicV1 := by
  unfold classify
  split
  · next h1 => simp [h1]
  · next h1 => split <;> simp [h1]

/-- The second test decides, since the two magics differ (R9). -/
theorem classify_eq_v2_iff (p : Params) (m : Word) : classify p m = .v2 ↔ m = p.magicV2 := by
  unfold classify
  split
  · next h1 => simp [h1, p.magic_ne]
  · split
    · next h2 => simp [h2]
    · next h2 => simp [h2]

theorem classify_of_unknown {p : Params} {m : Word} (h1 : m ≠ p.magicV1) (h2 : m ≠ p.magicV2) :
    classify p m = .v0 := by
  rw [classify, if_neg h1, if_neg h2]

/-- Settles O18: 0 is an unknown magic, since R9 has both magics differ from it. -/
theorem classifyIsTotal : Obligations.ClassifyIsTotal := fun p m =>
  ⟨classify_eq_v1_iff p m, classify_eq_v2_iff p m, classify_of_unknown,
    classify_of_unknown p.magicV1_ne_zero.symm p.magicV2_ne_zero.symm⟩

/-! ### CLASSIFY -/

theorem classify_code (p : Params) (m : Word) :
    (classify p m).code = if m = p.magicV1 then 1 else if m = p.magicV2 then 2 else 0 := by
  unfold classify
  split
  · rfl
  · split <;> rfl

@[simp] theorem read_withHeader (p : Params) (x : Arch) (sp : Space) (a : Nat) :
    (x.withHeader p).read sp a = x.read sp a :=
  read_congr (by cases sp <;> rfl) a

/-- Settles O19: the four header registers as numbers, and the frame. -/
theorem classifyCompletes : Obligations.ClassifyCompletes := by
  intro s
  have hstores : storesNothing s (s.complete (.ok (s.toArch.withHeader Config.params))) := fun sp a => by
    rw [read_complete_ok, read_withHeader]
  exact ⟨s.complete (.ok (s.toArch.withHeader Config.params)), exec_of_commandResult .classify, rfl, be32_toNat ..,
    classify_code .., be16_toNat .., be16_toNat .., hstores, rfl, rfl, rfl⟩

end Sys2Proof.Machine

/-! PROOFS. Valid text (42_v0_literal.md, section 1): what `validUtf8` accepts is a concatenation of sequences of R140's
table. -/

namespace Sys2Proof.Machine

/-! ### Sequences of the table -/

/-- One sequence of R140's table: each byte in its range of some row. -/
def isUtf8Sequence (q : List Byte) : Prop := ∃ row ∈ utf8Table, matchesRow row q

theorem inRange_iff {lo hi : Nat} {b : Byte} : inRange lo hi b = true ↔ lo ≤ b.toNat ∧ b.toNat ≤ hi := by
  simp [inRange]

theorem isUtf8Sequence_one {b1 : Byte} : isUtf8Sequence [b1] ↔ inRange 0x00 0x7F b1 = true := by
  simp [isUtf8Sequence, utf8Table, matchesRow, inRange_iff]

theorem isUtf8Sequence_two {b1 b2 : Byte} : isUtf8Sequence [b1, b2] ↔ utf8Pair b1 b2 = true := by
  simp [isUtf8Sequence, utf8Table, matchesRow, utf8Pair, utf8Cont, inRange_iff]

theorem isUtf8Sequence_three {b1 b2 b3 : Byte} : isUtf8Sequence [b1, b2, b3] ↔ utf8Triple b1 b2 b3 = true := by
  simp [isUtf8Sequence, utf8Table, matchesRow, utf8Triple, utf8Cont, inRange_iff]
  omega

theorem isUtf8Sequence_four {b1 b2 b3 b4 : Byte} :
    isUtf8Sequence [b1, b2, b3, b4] ↔ utf8Quad b1 b2 b3 b4 = true := by
  simp [isUtf8Sequence, utf8Table, matchesRow, utf8Quad, utf8Cont, inRange_iff]
  omega

/-- A sequence has from one to four bytes. -/
theorem isUtf8Sequence_cases {q : List Byte} (h : isUtf8Sequence q) :
    (∃ b1, q = [b1]) ∨ (∃ b1 b2, q = [b1, b2]) ∨ (∃ b1 b2 b3, q = [b1, b2, b3]) ∨
      ∃ b1 b2 b3 b4, q = [b1, b2, b3, b4] := by
  obtain ⟨row, hrow, hq⟩ := h
  have hrows : ∀ row ∈ utf8Table, 1 ≤ row.length ∧ row.length ≤ 4 := by decide
  have hlength := hrows row hrow
  rw [hq.length_eq] at hlength
  rcases q with _ | ⟨b1, _ | ⟨b2, _ | ⟨b3, _ | ⟨b4, _ | ⟨b5, q⟩⟩⟩⟩⟩
  · simp at hlength
  · exact .inl ⟨_, rfl⟩
  · exact .inr (.inl ⟨_, _, rfl⟩)
  · exact .inr (.inr (.inl ⟨_, _, _, rfl⟩))
  · exact .inr (.inr (.inr ⟨_, _, _, _, rfl⟩))
  · simp only [List.length_cons] at hlength
    omega

/-! ### The first byte decides the length of a sequence -/

theorem utf8Pair_lead {b1 b2 : Byte} (h : utf8Pair b1 b2 = true) : 0xC2 ≤ b1.toNat ∧ b1.toNat ≤ 0xDF := by
  simp only [utf8Pair, Bool.and_eq_true, inRange_iff] at h
  exact h.1

theorem utf8Triple_lead {b1 b2 b3 : Byte} (h : utf8Triple b1 b2 b3 = true) : 0xE0 ≤ b1.toNat ∧ b1.toNat ≤ 0xEF := by
  simp only [utf8Triple, Bool.and_eq_true, Bool.or_eq_true, inRange_iff] at h
  omega

theorem utf8Quad_lead {b1 b2 b3 b4 : Byte} (h : utf8Quad b1 b2 b3 b4 = true) :
    0xF0 ≤ b1.toNat ∧ b1.toNat ≤ 0xF4 := by
  simp only [utf8Quad, Bool.and_eq_true, Bool.or_eq_true, inRange_iff] at h
  omega

theorem not_ascii_of_lead {b1 : Byte} (h : 0x80 ≤ b1.toNat) : ¬ inRange 0x00 0x7F b1 = true := fun hascii =>
  absurd (inRange_iff.mp hascii).2 (by omega)

theorem not_utf8Pair_of_lead {b1 b2 : Byte} (h : 0xE0 ≤ b1.toNat) : ¬ utf8Pair b1 b2 = true := fun hpair =>
  absurd (utf8Pair_lead hpair).2 (by omega)

theorem not_utf8Triple_of_lead {b1 b2 b3 : Byte} (h : 0xF0 ≤ b1.toNat) : ¬ utf8Triple b1 b2 b3 = true :=
  fun htriple => absurd (utf8Triple_lead htriple).2 (by omega)

/-- A sequence in front of a text does not change whether it is valid. -/
theorem validUtf8_append {q : List Byte} (hq : isUtf8Sequence q) (s : List Byte) :
    validUtf8 (q ++ s) = validUtf8 s := by
  rw [validUtf8.eq_def]
  obtain ⟨b1, rfl⟩ | ⟨b1, b2, rfl⟩ | ⟨b1, b2, b3, rfl⟩ | ⟨b1, b2, b3, b4, rfl⟩ := isUtf8Sequence_cases hq
  · simp [isUtf8Sequence_one.mp hq]
  · have hpair := isUtf8Sequence_two.mp hq
    have := utf8Pair_lead hpair
    simp [hpair, not_ascii_of_lead (b1 := b1) (by omega)]
  · have htriple := isUtf8Sequence_three.mp hq
    have := utf8Triple_lead htriple
    simp [htriple, not_ascii_of_lead (b1 := b1) (by omega), not_utf8Pair_of_lead (b1 := b1) (by omega)]
  · have hquad := isUtf8Sequence_four.mp hq
    have := utf8Quad_lead hquad
    simp [hquad, not_ascii_of_lead (b1 := b1) (by omega), not_utf8Pair_of_lead (b1 := b1) (by omega),
      not_utf8Triple_of_lead (b1 := b1) (by omega)]

/-! ### Concatenations -/

/-- A concatenation of sequences of the table. -/
def isUtf8Text (s : List Byte) : Prop := ∃ qs : List (List Byte), s = qs.flatten ∧ ∀ q ∈ qs, isUtf8Sequence q

theorem isUtf8Text_nil : isUtf8Text [] := ⟨[], rfl, by simp⟩

theorem isUtf8Text_append {q s : List Byte} (hq : isUtf8Sequence q) (hs : isUtf8Text s) : isUtf8Text (q ++ s) := by
  obtain ⟨qs, rfl, hqs⟩ := hs
  exact ⟨q :: qs, rfl, List.forall_mem_cons.mpr ⟨hq, hqs⟩⟩

theorem validUtf8_of_isUtf8Text {s : List Byte} (h : isUtf8Text s) : validUtf8 s = true := by
  obtain ⟨qs, rfl, hqs⟩ := h
  induction qs with
  | nil => rfl
  | cons q qs ih =>
    obtain ⟨hq, hqs⟩ := List.forall_mem_cons.mp hqs
    rw [List.flatten_cons, validUtf8_append hq, ih hqs]

/-- Each accepting branch of `validUtf8` takes one sequence off the front. -/
theorem isUtf8Text_of_validUtf8 {s : List Byte} (h : validUtf8 s = true) : isUtf8Text s := by
  fun_induction validUtf8 s with
  | case1 => exact isUtf8Text_nil
  | case2 b1 r1 hone ih => exact isUtf8Text_append (isUtf8Sequence_one.mpr hone) (ih h)
  | case3 => cases h
  | case4 b1 _ b2 r2 hpair ih => exact isUtf8Text_append (isUtf8Sequence_two.mpr hpair) (ih h)
  | case5 => cases h
  | case6 b1 _ b2 _ b3 r3 htriple ih => exact isUtf8Text_append (isUtf8Sequence_three.mpr htriple) (ih h)
  | case7 => cases h
  | case8 b1 _ b2 _ b3 _ b4 r4 ih =>
    obtain ⟨hquad, hrest⟩ := Bool.and_eq_true_iff.mp h
    exact isUtf8Text_append (isUtf8Sequence_four.mpr hquad) (ih hrest)

/-- Settles O10: by recursion along `validUtf8` one way, by induction on the list of sequences the other. -/
theorem validUtf8IsTheTable : Obligations.ValidUtf8IsTheTable := fun _ =>
  ⟨isUtf8Text_of_validUtf8, validUtf8_of_isUtf8Text⟩

end Sys2Proof.Machine

/-! PROOFS. The literal-text decoder V0 and its encoder (42_v0_literal.md): what DECODE_V0 leaves, that nothing after the
terminator matters, the checks of ENCODE, what it leaves, and that EXTRACT and DECODE_BYTES read the text back. -/

namespace Sys2Proof.Machine

/-! ### DECODE_V0 -/

theorem v0Text_of_v0End {x : Arch} {z : Nat} (h : v0End x z) : v0Text x = x.bytes .cart codeBase z := by
  obtain ⟨hle, hnonzero, hend⟩ := h
  exact v0Text_eq hle hnonzero hend

theorem v0Body_of_valid {x : Arch} (h : validUtf8 (v0Text x) = true) : v0Body x = .ok (x.setText (v0Text x)) :=
  if_pos h

theorem v0Body_of_invalid {x : Arch} (h : validUtf8 (v0Text x) = false) : v0Body x = .error .utf8 := by
  simp only [v0Body, h, Bool.false_eq_true, if_false]

theorem decodeV0_of_wholeCart {x : Arch} (h : shortCart x = false) : decodeV0 x = v0Body x := by
  simp only [decodeV0, h, Bool.false_eq_true, if_false]

theorem decodeV0_of_shortCart {x : Arch} (h : shortCart x = true) : decodeV0 x = .error .shortCart := if_pos h

/-- A state whose OUT and OUTLEN are as a decoder that stores the text leaves them holds the text. -/
theorem holdsText_of_out_eq {t : State} {x : Arch} {bs : List Byte} (hlen : bs.length ≤ outCap)
    (houtlen : t.outlen = BitVec.ofNat 32 bs.length) (hout : t.out = x.out.writeRange 0 bs) : holdsText t bs := by
  refine ⟨?_, fun i hi => ?_⟩
  · rw [houtlen]
    exact Nat.mod_eq_of_lt (hlen.trans_lt (by decide))
  · have hmem : t.mem .out = (x.setText bs).mem .out := hout
    rw [read_congr hmem, read_setText]

theorem storesOnly_setText (s : State) (bs : List Byte) :
    storesOnly s (s.complete (.ok (s.toArch.setText bs))) .out 0 bs.length :=
  storesOnly_of_read_eq fun sp a => by
    rw [read_complete_ok]
    exact read_congr (by cases sp <;> rfl) a

/-- Settles O21: the text ends where `v0End` says, and its UTF-8 check decides between the two ends of the command. -/
theorem decodeV0Completes : Obligations.DecodeV0Completes := by
  intro s z hcart hz
  have hres := decodeV0_of_wholeCart (shortCart_eq_false.mpr hcart)
  have htext := v0Text_of_v0End hz
  have hlen : (s.bytes .cart codeBase z).length ≤ outCap := by
    rw [bytes_length]
    exact hz.1.trans (by decide)
  refine ⟨fun hvalid => ?_, fun hinvalid => ?_⟩
  · rw [v0Body_of_valid (htext ▸ hvalid), htext] at hres
    have hstores := storesOnly_setText s (s.bytes .cart codeBase z)
    rw [bytes_length] at hstores
    exact ⟨s.complete (.ok (s.toArch.setText (s.bytes .cart codeBase z))), exec_of_commandResult (hres ▸ .decodeV0),
      rfl, holdsText_of_out_eq (x := s.toArch) hlen rfl rfl, hstores, rfl, rfl, rfl⟩
  · rw [v0Body_of_invalid (htext ▸ hinvalid)] at hres
    exact failsWith_of_commandResult .decodeV0 hres

/-! ### Bytes after the terminator -/

/-- A zero byte in the code region: the text ends there or before. -/
theorem exists_v0End_le {x : Arch} {z : Nat} (hz : z < codeLen) (hzero : x.read .cart (codeBase + z) = 0) :
    ∃ n, n ≤ z ∧ v0End x n := by
  have hex : ∃ n, x.read .cart (codeBase + n) = 0 := ⟨z, hzero⟩
  have hle : Nat.find hex ≤ z := Nat.find_min' hex hzero
  exact ⟨Nat.find hex, hle, hle.trans hz.le, fun _ hi => Nat.find_min hex hi, .inr (Nat.find_spec hex)⟩

theorem v0End_congr {x y : Arch} {n : Nat} (h : ∀ i, i ≤ n → y.read .cart (codeBase + i) = x.read .cart (codeBase + i))
    (hn : v0End x n) : v0End y n := by
  obtain ⟨hle, hnonzero, hend⟩ := hn
  exact ⟨hle, fun i hi => by rw [h i hi.le]; exact hnonzero i hi, by rwa [h n (Nat.le_refl n)]⟩

/-- Two cartridges that read alike up to a zero byte of the code region have one V0 text (R145). -/
theorem v0Text_congr {x y : Arch} {z : Nat} (hz : z < codeLen) (hzero : x.read .cart (codeBase + z) = 0)
    (h : ∀ i, i ≤ z → y.read .cart (codeBase + i) = x.read .cart (codeBase + i)) : v0Text y = v0Text x := by
  obtain ⟨n, hnz, hn⟩ := exists_v0End_le hz hzero
  have hsame : ∀ i, i ≤ n → y.read .cart (codeBase + i) = x.read .cart (codeBase + i) :=
    fun i hi => h i (hi.trans hnz)
  rw [v0Text_of_v0End hn, v0Text_of_v0End (v0End_congr hsame hn)]
  exact bytes_congr fun i hi => hsame i hi.le

/-- DECODE_V0 depends on CARTLEN and on the V0 text alone: it fails alike, or stores the same text. -/
theorem decodeV0_alike {x y : Arch} (htext : v0Text y = v0Text x) (hcartlen : y.cartlen = x.cartlen) :
    (∃ e, decodeV0 x = .error e ∧ decodeV0 y = .error e) ∨
      decodeV0 x = .ok (x.setText (v0Text x)) ∧ decodeV0 y = .ok (y.setText (v0Text x)) := by
  have hshort : shortCart y = shortCart x := by rw [shortCart, hcartlen, shortCart]
  cases hs : shortCart x with
  | true => exact .inl ⟨_, decodeV0_of_shortCart hs, decodeV0_of_shortCart (hshort.trans hs)⟩
  | false =>
    rw [decodeV0_of_wholeCart hs, decodeV0_of_wholeCart (hshort.trans hs)]
    cases hv : validUtf8 (v0Text x) with
    | false => exact .inl ⟨_, v0Body_of_invalid hv, v0Body_of_invalid (by rwa [htext])⟩
    | true => exact .inr ⟨v0Body_of_valid hv, by rw [v0Body_of_valid (by rwa [htext]), htext]⟩

theorem Err.status_ne_done (e : Err) : e.status ≠ statusDone := by
  cases e <;> decide

/-- Settles O22: the two states have one text, so DECODE_V0 ends alike in them. -/
theorem bytesAfterTerminatorDoNotMatter : Obligations.BytesAfterTerminatorDoNotMatter := by
  intro s s' z hz hzero hsame hcartlen hout
  have htext : v0Text s'.toArch = v0Text s.toArch :=
    v0Text_congr hz hzero fun i hi => hsame _ (Nat.add_le_add_left hi _)
  refine ⟨_, _, exec_of_commandResult .decodeV0, exec_of_commandResult .decodeV0, ?_⟩
  obtain ⟨e, hs, hs'⟩ | ⟨hs, hs'⟩ := decodeV0_alike htext hcartlen
  · rw [hs, hs']
    exact ⟨rfl, fun hdone => absurd hdone e.status_ne_done⟩
  · rw [hs, hs']
    refine ⟨rfl, fun _ => ⟨rfl, ?_⟩⟩
    simp [hout]

/-! ### ENCODE's checks that fail -/

/-- The compression asked for is checked first (R151). -/
theorem encodeText_of_encSelCheck_error {p : Params} {x : Arch} {e : Err} (h : encSelCheck x = some e) :
    encodeText p x = .error e :=
  encodeText_of_encodeCheck_error (by simp only [encodeCheck, h])

/-- Settles O43: each value of ENC_SEL but 0 fails the first check. -/
theorem encodeChecksCompressionFirst : Obligations.EncodeChecksCompressionFirst := by
  intro s
  have hfails : ∀ e, encSelCheck s.toArch = some e → failsWith .encode s e.status := fun e he =>
    failsWith_of_commandResult .encode (encodeText_of_encSelCheck_error he)
  refine ⟨fun hsel => hfails .encSel ?_, fun hsel => hfails .encV1 ?_, fun hsel => hfails .encV2 ?_⟩
  all_goals simp [encSelCheck, hsel]

/-- The first failing check of the text: its length, its UTF-8, its zero bytes, its magic (R309). -/
theorem textCheck_eq_some {p : Params} {x : Arch}
    (h : codeLen < x.outlen.toNat ∨ validUtf8 x.text = false ∨ 0 ∈ x.text ∨ textMagic x.text = p.magicV1 ∨
      textMagic x.text = p.magicV2) :
    textCheck p x =
      some (if codeLen < x.outlen.toNat then .encTextLong else if validUtf8 x.text = false then .encTextUtf8
        else if 0 ∈ x.text then .encTextNul else .encMagic) := by
  by_cases hlong : codeLen < x.outlen.toNat
  · simp only [textCheck, if_pos hlong]
  · simp only [if_neg hlong]
    have h := h.resolve_left hlong
    cases hutf8 : validUtf8 x.text with
    | false => simp only [textCheck, if_neg hlong, hutf8, Bool.not_false, if_true]
    | true =>
      simp only [Bool.true_eq_false, if_false]
      by_cases hnul : (0 : Byte) ∈ x.text
      · simp only [textCheck, if_neg hlong, hutf8, Bool.not_true, Bool.false_eq_true, if_false, if_pos hnul]
      · have hmagic := (h.resolve_left (by simp [hutf8])).resolve_left hnul
        rw [if_neg hnul, textCheck_of_magic (Nat.not_lt.mp hlong) hutf8 hnul hmagic]

/-- Asked for V0 with an image that holds a cartridge, ENCODE checks the text (R151). -/
theorem encodeText_of_textCheck_error {p : Params} {x : Arch} {e : Err} (hsel : x.encSel = 0)
    (hpack : packCheck p x = none) (h : textCheck p x = some e) : encodeText p x = .error e :=
  encodeText_of_encodeCheck_error (by simp only [encodeCheck, encSelCheck_eq_none.mpr hsel, hpack, h])

/-- Settles O44: the first failing check of the text, each with its STATUS. -/
theorem encodeChecksTextInOrder : Obligations.EncodeChecksTextInOrder := by
  rintro s t hsel hbpp hcap hpartial hsize rfl hbad
  have hpack := packCheck_eq_none.mpr ⟨⟨hbpp, hcap, hpartial⟩, hsize⟩
  have hfails := failsWith_of_commandResult .encode
    (encodeText_of_textCheck_error hsel hpack (textCheck_eq_some hbad))
  rw [apply_ite Err.status, apply_ite Err.status, apply_ite Err.status] at hfails
  exact hfails

/-! ### ENCODE -/

theorem encodeText_of_encodeCheck_none {p : Params} {x : Arch} (h : encodeCheck p x = none) :
    encodeText p x = .ok (encodeBody x) := by
  simp only [encodeText, h]

/-- Pixel `k` after ENCODE: the pixel that was there, with the cartridge byte just written stored in it (R154). -/
theorem read_encodeBody_pixel (x : Arch) {k : Nat} (hk : k < 32768) :
    [(encodeBody x).read .pix (4 * k), (encodeBody x).read .pix (4 * k + 1), (encodeBody x).read .pix (4 * k + 2),
      (encodeBody x).read .pix (4 * k + 3)] = pixelWith x k ((encodeBody x).read .cart k) := by
  have hcart : (encodeBody x).read .cart k = (x.write .cart codeBase (codeImage x.text)).read .cart k :=
    read_packBody_ne _ (by simp) k
  rw [hcart]
  refine (read_packBody_pixel _ hk).trans ?_
  simp only [pixelWith, read_write_ne x (show Space.pix ≠ .cart by simp)]

/-- The image past its first 32768 pixels after ENCODE. -/
theorem read_encodeBody_pix_out (x : Arch) {a : Nat} (ha : 131072 ≤ a) :
    (encodeBody x).read .pix a = x.read .pix a :=
  (read_packBody_out _ a ha).trans (read_write_ne x (by simp) ..)

/-- Settles O42: the results of ENCODE, read back from CART and from PIX, and the frame. -/
theorem encodeCompletes : Obligations.EncodeCompletes := by
  rintro s t rfl hsel hbpp hcap hpartial hsize hlen hutf8 hnul hmagic1 hmagic2
  have hcheck : encodeCheck Config.params s.toArch = none := encodeCheck_eq_none.mpr
    ⟨encSelCheck_eq_none.mpr hsel, packCheck_eq_none.mpr ⟨⟨hbpp, hcap, hpartial⟩, hsize⟩,
      textCheck_eq_none.mpr ⟨hlen, hutf8, hnul, hmagic1, hmagic2⟩⟩
  have hres := encodeText_of_encodeCheck_none hcheck
  refine ⟨s.complete (.ok (encodeBody s.toArch)), exec_of_commandResult (hres ▸ .encode), rfl, fun i hi => ?_,
    fun a ha => ?_, fun k hk => ?_, fun a ha => ?_, rfl, rfl, rfl⟩
  all_goals simp only [read_complete_ok]
  · exact read_encodeBody hlen hi
  · exact read_encodeBody_out hlen ha
  · exact read_encodeBody_pixel s.toArch hk
  · exact read_encodeBody_pix_out s.toArch ha

/-! ### ENCODE, then EXTRACT, then DECODE_BYTES -/

/-- A command that left STATUS = done succeeded (R307). -/
theorem ok_of_status_done {i : Instr} {s u : State} {res : Except Err Arch}
    (hres : CommandResult Config.params s.toArch i res) (hexec : exec i s = .next u) (hdone : u.status = statusDone) :
    ∃ y, res = .ok y := by
  obtain rfl : s.complete res = u := Host.Outcome.next.inj ((exec_of_commandResult hres).symm.trans hexec)
  cases res with
  | ok y => exact ⟨y, rfl⟩
  | error e => exact absurd hdone e.status_ne_done

/-- A code region that holds a text and zeros after it: the text ends where it should. -/
theorem v0End_of_codeImage {x : Arch} {t : List Byte} (hlen : t.length ≤ 15616) (hnul : 0 ∉ t)
    (h : ∀ i, i < 15616 → x.read .cart (codeBase + i) = t.getD i 0) : v0End x t.length := by
  refine ⟨hlen, fun i hi hzero => hnul ?_, ?_⟩
  · rw [h i (by omega), List.getD_eq_getElem _ _ hi] at hzero
    exact hzero ▸ List.getElem_mem hi
  · by_cases hfull : t.length < 15616
    · exact .inr (by rw [h _ hfull]; simp)
    · exact .inl (Nat.le_antisymm hlen (Nat.not_lt.mp hfull))

theorem v0Text_of_codeImage {x : Arch} {t : List Byte} (hlen : t.length ≤ 15616) (hnul : 0 ∉ t)
    (h : ∀ i, i < 15616 → x.read .cart (codeBase + i) = t.getD i 0) : v0Text x = t := by
  rw [v0Text_of_v0End (v0End_of_codeImage hlen hnul h)]
  refine List.ext_getElem (bytes_length ..) fun i hi hi' => ?_
  rw [bytes_getElem, h i (by omega), List.getD_eq_getElem]

/-- The magic of a cartridge is read where its text starts (R153). -/
theorem magicField_of_codeImage {x : Arch} {t : List Byte}
    (h : ∀ i, i < 15616 → x.read .cart (codeBase + i) = t.getD i 0) : x.magicField = leadingMagic t := by
  simp only [Arch.magicField, leadingMagic, ← h 0 (by decide), ← h 1 (by decide), ← h 2 (by decide),
    ← h 3 (by decide), Nat.add_zero]

/-- DECODE_BYTES of a cartridge with an unknown magic: the V0 text, sealed as a Cartridge (R251, R122). -/
theorem decodeBytes_of_v0 {p : Params} {x : Arch} (hcart : shortCart x = false)
    (hclass : classify p x.magicField = .v0) (hvalid : validUtf8 (v0Text x) = true) :
    decodeBytes p x = .ok (sealCartridge p (x.setText (v0Text x))) := by
  simp only [decodeBytes, hcart, Bool.false_eq_true, if_false, selectedBody, hclass, v0Body_of_valid hvalid]

/-- DECODE_BYTES of a whole cartridge whose code region is what ENCODE writes of a text that passes its checks. -/
theorem exec_decodeBytes_of_codeImage {v : State} {t : List Byte} (hcart : 32768 ≤ v.cartlen.toNat)
    (hlen : t.length ≤ 15616) (hutf8 : validUtf8 t = true) (hnul : 0 ∉ t)
    (hmagic1 : leadingMagic t ≠ Config.params.magicV1) (hmagic2 : leadingMagic t ≠ Config.params.magicV2)
    (h : ∀ i, i < 15616 → v.read .cart (codeBase + i) = t.getD i 0) :
    ∃ w, exec .decodeBytes v = .next w ∧ w.status = 0x0001 ∧ w.version = 0 ∧ holdsText w t := by
  have htext : v0Text v.toArch = t := v0Text_of_codeImage hlen hnul h
  have hclass : classify Config.params v.magicField = .v0 := by
    rw [magicField_of_codeImage h]
    exact classify_of_unknown hmagic1 hmagic2
  have hres := decodeBytes_of_v0 (shortCart_eq_false.mpr hcart) hclass (htext ▸ hutf8)
  rw [htext] at hres
  refine ⟨v.complete (.ok (sealCartridge Config.params (v.setText t))), exec_of_commandResult (hres ▸ .decodeBytes),
    rfl, ?_, holdsText_of_out_eq (x := v.toArch) (hlen.trans (by decide)) rfl rfl⟩
  exact congrArg Version.code hclass

/-- EXTRACT after ENCODE: the cartridge bytes that ENCODE stored in the pixels come back, and CARTLEN counts a whole
cartridge (R157). -/
theorem exec_extract_of_stored {s u : State} (hbpp : u.bpp = 4) (hcap : u.pixlen.toNat ≤ Config.params.pixCap)
    (hpartial : u.pixlen.toNat % 4 = 0) (hsize : 32768 ≤ u.pixlen.toNat / 4)
    (hpixel : ∀ k, k < 32768 →
      [u.read .pix (4 * k), u.read .pix (4 * k + 1), u.read .pix (4 * k + 2), u.read .pix (4 * k + 3)] =
        pixelWith s.toArch k (u.read .cart k)) :
    ∃ v, exec .extract u = .next v ∧ 32768 ≤ v.cartlen.toNat ∧ ∀ k, k < 32768 → v.read .cart k = u.read .cart k := by
  obtain ⟨v, hexec, -, hcartlen, hcart, -⟩ := extractCompletes u hbpp hcap hpartial
  refine ⟨v, hexec, by omega, fun k hk => ?_⟩
  rw [hcart k (by omega)]
  exact chanByte_of_eq_chanPut (hpixel k hk)

/-- Settles O45: ENCODE's success gives its checks and so its results (O42); EXTRACT gives back CART, whose text
DECODE_BYTES reads. -/
theorem encodeDecodeRoundTrip : Obligations.EncodeDecodeRoundTrip := by
  rintro s u t ht hexec hdone
  obtain ⟨y, hok⟩ := ok_of_status_done .encode hexec hdone
  obtain ⟨hsel, hpack, htext⟩ := encodeCheck_eq_none.mp (encodeText_ok hok).1
  obtain ⟨⟨hbpp, hcap, hpartial⟩, hsize⟩ := packCheck_eq_none.mp hpack
  obtain ⟨hoverlong, hutf8, hnul, hmagic1, hmagic2⟩ := textCheck_eq_none.mp htext
  obtain rfl : t = s.text := ht
  obtain ⟨u', hexec', -, hregion, -, hpixel, -, hframe, -⟩ := encodeCompletes s s.text rfl
    (encSelCheck_eq_none.mp hsel) hbpp hcap hpartial hsize hoverlong hutf8 hnul hmagic1 hmagic2
  obtain rfl : u = u' := Host.Outcome.next.inj (hexec.symm.trans hexec')
  have hubpp : u.bpp = s.bpp := (congrArg Arch.bpp hframe :)
  have hupixlen : u.pixlen = s.pixlen := (congrArg Arch.pixlen hframe :)
  rw [← hubpp] at hbpp
  rw [← hupixlen] at hcap hpartial hsize
  obtain ⟨v, hextract, hcartlen, hcart⟩ := exec_extract_of_stored (s := s) hbpp hcap hpartial hsize hpixel
  have hlen : s.text.length ≤ 15616 := by
    rw [Arch.text, bytes_length]
    exact hoverlong
  have hvregion : ∀ i, i < 15616 → v.read .cart (codeBase + i) = s.text.getD i 0 := fun i hi => by
    rw [hcart _ (by simp only [codeBase]; omega)]
    exact hregion i hi
  obtain ⟨w, hdecode, hresults⟩ :=
    exec_decodeBytes_of_codeImage hcartlen hlen hutf8 hnul hmagic1 hmagic2 hvregion
  exact ⟨v, w, hextract, hdecode, hresults⟩

end Sys2Proof.Machine

/-! PROOFS. The token-stream decoder V1 (43_v1_tokens.md): what each token leaves, what DECODE_V1 leaves and its bounds, and
that the token steps reach what the whole command leaves. -/

namespace Sys2Proof.Machine

/-! ### The tokens -/

/-- Settles O23: the effect of LIT, put back into the decode in progress. -/
theorem litCompletes : Obligations.LitCompletes := fun _ _ b hphase => exec_v1Token (.lit b) hphase

/-- Settles O24: as O23, with the effect of TAB. -/
theorem tabCompletes : Obligations.TabCompletes := fun _ _ k hphase => exec_v1Token (.tab k) hphase

theorem brefDistance_eq (n : Nibbles) (row : Fin 196) (h l : BitVec 4) :
    brefDistance n row h l = row.val * 16 + (if n = .doc then h.toNat else l.toNat) := by
  cases n <;> rfl

theorem brefLength_eq (n : Nibbles) (h l : BitVec 4) :
    brefLength n h l = (if n = .doc then l.toNat else h.toNat) + 2 := by
  cases n <;> rfl

/-- A copy that lies within the bytes already emitted (R165, R166). -/
theorem v1Copy_of_inRange {distance length : Nat} {d : V1State} (hdistance : distance ≤ d.out.length)
    (hlength : length ≤ distance) :
    v1Copy distance length d =
      .ok { cursor := d.cursor + 2, out := d.out ++ (d.out.drop (d.out.length - distance)).take length } :=
  if_neg (by omega)

theorem v1Copy_of_outOfRange {distance length : Nat} {d : V1State} (h : d.out.length < distance ∨ distance < length) :
    v1Copy distance length d = .error .v1BrefRange :=
  if_pos h

/-- BREF inside a V1 decode, its operands read as V1_NIBBLES says (R82, R165). -/
theorem exec_bref {s : State} {r : Run} {row : Fin 196} {h l : BitVec 4} {distance length : Nat} (hphase : s.phase = .v1 r)
    (hdistance : distance = row.val * 16 + (if Config.params.v1Nibbles = .doc then h.toNat else l.toNat))
    (hlength : length = (if Config.params.v1Nibbles = .doc then l.toNat else h.toNat) + 2) :
    exec (.bref row h l) s = .next (s.v1Put r (v1Copy distance length (s.v1View r))) := by
  have hexec := exec_v1Token (.bref row h l) hphase
  rwa [v1Exec, v1Bref, brefDistance_eq, brefLength_eq, ← hdistance, ← hlength] at hexec

/-- Settles O25: a copy in range is `length` bytes of what was there, appended to it. -/
theorem brefCompletes : Obligations.BrefCompletes := by
  intro s r row h l distance length hphase hdistance hlength hemitted hle
  have hcopy := v1Copy_of_inRange (d := s.v1View r) hemitted hle
  refine ⟨_, by rw [exec_bref hphase hdistance hlength, hcopy]; rfl, ?_, List.take_left, fun j hj => ?_⟩
  · simp [State.v1View]
    omega
  · rw [List.getElem?_append_right (Nat.le_add_right ..), Nat.add_sub_cancel_left, List.getElem?_take_of_lt hj,
      List.getElem?_drop]
    rfl

/-- Settles O26: a copy out of range is an error, which ends the command. -/
theorem brefOutOfRangeFails : Obligations.BrefOutOfRangeFails := by
  intro s r row h l distance length hphase hdistance hlength hrange
  have hcopy := v1Copy_of_outOfRange (d := s.v1View r) hrange
  rw [exec_bref hphase hdistance hlength, hcopy]
  rfl

/-! ### The bytes a token can use -/

theorem v1Window_of_ge {c : Nat} (x : Arch) (h : v1BodyLen ≤ c) : x.v1Window c = [] :=
  List.eq_nil_of_length_eq_zero (by rw [v1Window_length]; omega)

/-- At the last body byte a token has that byte alone. -/
theorem v1Window_last (x : Arch) : x.v1Window 15607 = [x.read .cart 0x7FFF] := rfl

/-- The register CURSOR is no part of CART. -/
theorem sameCart_cursor (x : Arch) (c : Nat) : sameCart { x with cursor := c } x :=
  fun a _ => read_congr (sp := .cart) rfl a

/-- Where no token is left, the step takes the error of R162. -/
theorem step_of_truncated {s : State} {r : Run} {e : DecodeReject} (hphase : s.phase = .v1 r)
    (h : decodeV1Token (s.v1Window s.cursor) = .error e) : step s = .next (s.abort r .v1Trunc) := by
  rw [step_of_v1 hphase]
  rcases stepV1_cases hphase with hstep | ⟨t, rest, hdec, -⟩
  · exact hstep
  · cases h.symm.trans hdec

/-- Settles O27: past the body there is no byte, and at its last byte a token of two bytes is cut off. -/
theorem truncatedV1TokenFails : Obligations.TruncatedV1TokenFails := by
  intro s r hphase hcut
  refine step_of_truncated (e := .v1Truncated) hphase ?_
  rcases hcut with hpast | ⟨hlast, hbyte⟩
  · rw [v1Window_of_ge s.toArch (by simp only [v1BodyLen]; omega)]
    rfl
  · have hcursor : s.cursor = 15607 := by omega
    rw [hcursor, v1Window_last]
    exact decodeV1Token_singleton (hbyte.imp_left fun hzero => by rw [hzero]; rfl)

/-! ### DECODE_V1 -/

theorem decodeV1_of_wholeCart {p : Params} {x : Arch} (h : shortCart x = false) : decodeV1 p x = v1Body p x := by
  simp only [decodeV1, h, Bool.false_eq_true, if_false]

/-- DECODE_V1 after its length check: the loop, and then what follows it (R161). -/
theorem v1Body_eq_bind (p : Params) (x : Arch) :
    v1Body p x = (v1Loop p x x.dlenField v1BodyLen v1Start).bind (v1Finish x x.dlenField) := by
  unfold v1Body
  cases v1Loop p x x.dlenField v1BodyLen v1Start <;> rfl

theorem v1Finish_of_valid {x : Arch} {dlen : Half} {d : V1State} (h : validUtf8 d.out = true) :
    v1Finish x dlen d = .ok { x.setText d.out with cursor := d.cursor, dlen := dlen, hdr6 := x.hdr6Field } :=
  if_pos h

theorem v1Finish_of_invalid {x : Arch} {dlen : Half} {d : V1State} (h : validUtf8 d.out = false) :
    v1Finish x dlen d = .error .utf8 := by
  simp only [v1Finish, h, Bool.false_eq_true, if_false]

/-- The result of DECODE_V1 on a whole cartridge, when its loop ends as `res` (R161). -/
theorem decodeV1_of_loop {p : Params} {x : Arch} {res : Except Err V1State} (hcart : 32768 ≤ x.cartlen.toNat)
    (h : v1Loop p x x.dlenField v1BodyLen v1Start = res) : decodeV1 p x = res.bind (v1Finish x x.dlenField) := by
  rw [decodeV1_of_wholeCart (shortCart_eq_false.mpr hcart), v1Body_eq_bind, h]

/-- Settles O28: the loop's end, and then the UTF-8 check, decide how the command ends. -/
theorem decodeV1Completes : Obligations.DecodeV1Completes := by
  intro s hcart
  refine ⟨fun d hloop hvalid => ?_, fun st hfail => ?_⟩
  · have hres := (decodeV1_of_loop hcart hloop).trans (v1Finish_of_valid hvalid)
    have hlen : d.out.length ≤ outCap := v1Bounded_length (v1Loop_bounded v1Start_bounded hloop)
    have hexec := exec_of_commandResult (s := s) .decodeV1
    rw [hres] at hexec
    exact ⟨_, hexec, rfl, holdsText_of_out_eq (x := s.toArch) hlen rfl rfl, rfl, rfl,
      rfl, storesOnly_setText s d.out, rfl, rfl, rfl, rfl, rfl⟩
  · rcases hfail with ⟨d, hloop, hinvalid, rfl⟩ | ⟨e, hloop, rfl⟩
    · have hres := (decodeV1_of_loop hcart hloop).trans (v1Finish_of_invalid hinvalid)
      exact ⟨failsWith_of_commandResult .decodeV1 hres, by decide⟩
    · refine ⟨failsWith_of_commandResult .decodeV1 (decodeV1_of_loop hcart hloop), ?_⟩
      rcases v1Loop_error hloop with rfl | rfl | rfl <;> decide

/-! ### The bounds of a decode that succeeds -/

/-- What a decode that succeeds leaves in CURSOR and OUTLEN: where its loop ended, and how much it had emitted. -/
theorem decodeV1_loop_ok {p : Params} {x y : Arch} (h : decodeV1 p x = .ok y) :
    ∃ d, v1Loop p x x.dlenField v1BodyLen v1Start = .ok d ∧ v1Bounded d ∧ y.cursor = d.cursor ∧
      y.outlen.toNat = d.out.length := by
  obtain ⟨d, hloop, -, rfl⟩ := v1Body_ok (decodeV1_ok h).2
  have hbound := v1Loop_bounded v1Start_bounded hloop
  exact ⟨d, hloop, hbound, rfl, Nat.mod_eq_of_lt ((v1Bounded_length hbound).trans_lt (by decide))⟩

/-- Settles O30: every token keeps the bound of R172. -/
theorem v1OutputIsBounded : Obligations.V1OutputIsBounded := by
  intro p x y h
  obtain ⟨d, -, hbound, hcursor, houtlen⟩ := decodeV1_loop_ok h
  rw [hcursor, houtlen]
  exact ⟨hbound.1, v1Bounded_length hbound⟩

theorem v1Continues_output {p : Params} (hp : p.v1LoopBound = .output) (dlen : Half) (d : V1State) :
    v1Continues p dlen d = decide (d.out.length < dlen.toNat) := by
  simp only [v1Continues, hp]

theorem v1Continues_cursor {p : Params} (hp : p.v1LoopBound = .cursor) (dlen : Half) (d : V1State) :
    v1Continues p dlen d = decide (d.cursor < dlen.toNat) := by
  simp only [v1Continues, hp]

/-- In OUTPUT mode a turn that succeeds has not emitted too much (R169). -/
theorem v1Turn_output_le {p : Params} {x : Arch} {dlen : Half} {d d' : V1State} (hp : p.v1LoopBound = .output)
    (h : v1Turn p x dlen d = .ok d') : d'.out.length ≤ dlen.toNat := by
  obtain ⟨t, rest, -, -, hover, -⟩ := v1Turn_ok h
  simpa [v1Overruns, hp] using hover

/-- Settles O31: no turn overruns dlen, and the loop ends only when it is reached. -/
theorem outputModeIsExact : Obligations.OutputModeIsExact := by
  intro p x y hp h
  obtain ⟨d, hloop, -, -, houtlen⟩ := decodeV1_loop_ok h
  obtain ⟨hle, hends⟩ := v1Loop_ok (P := fun d => d.out.length ≤ x.dlenField.toNat)
    (fun _ _ _ _ hturn => v1Turn_output_le hp hturn) (Nat.zero_le _) hloop
  simp only [v1Continues_output hp, decide_eq_false_iff_not] at hends
  omega

/-- A turn moves CURSOR on by one or two bytes (R79). -/
theorem v1Turn_cursor {p : Params} {x : Arch} {dlen : Half} {d d' : V1State} (h : v1Turn p x dlen d = .ok d') :
    d.cursor + 1 ≤ d'.cursor ∧ d'.cursor ≤ d.cursor + 2 := by
  obtain ⟨t, rest, -, hexec, -, -⟩ := v1Turn_ok h
  obtain ⟨hcursor, -⟩ := v1Exec_ok hexec
  have hsize : 1 ≤ v1Size t ∧ v1Size t ≤ 2 := by cases t <;> simp [v1Size]
  omega

/-- Settles O32: each turn starts before dlen and moves at most two bytes on, so the first boundary at or past dlen is at
most one past it. -/
theorem cursorModeEndsAtDlen : Obligations.CursorModeEndsAtDlen := by
  intro p x y hp h
  obtain ⟨d, hloop, ⟨hbody, -⟩, hcursor, houtlen⟩ := decodeV1_loop_ok h
  obtain ⟨n, f, hstart, hend, hturns⟩ := v1Loop_turns hloop
  obtain ⟨hnear, hends⟩ := v1Loop_ok (P := fun d => d.cursor ≤ x.dlenField.toNat + 1)
    (fun d d' _ hcont hturn => by
      have hbefore : d.cursor < x.dlenField.toNat := by simpa [v1Continues_cursor hp] using hcont
      have hmoves := v1Turn_cursor hturn
      omega) (Nat.zero_le _) hloop
  simp only [v1Continues_cursor hp, decide_eq_false_iff_not, decide_eq_true_eq] at hends hturns
  simp only [v1BodyLen] at hbody
  subst hend
  exact ⟨n, f, hstart, hturns, by omega, hcursor, houtlen, by omega, by omega⟩

/-! ### The turns of the loop -/

theorem v1Loop_of_stops {p : Params} {x : Arch} {dlen : Half} {d : V1State} (n : Nat)
    (h : v1Continues p dlen d = false) : v1Loop p x dlen n d = .ok d := by
  cases n <;> simp only [v1Loop, h, Bool.false_eq_true, if_false]

theorem v1Loop_zero_of_continues {p : Params} {x : Arch} {dlen : Half} {d : V1State}
    (h : v1Continues p dlen d = true) : v1Loop p x dlen 0 d = .error .v1Trunc :=
  if_pos h

theorem v1Loop_succ_of_continues {p : Params} {x : Arch} {dlen : Half} {d : V1State} (n : Nat)
    (h : v1Continues p dlen d = true) :
    v1Loop p x dlen (n + 1) d = (v1Turn p x dlen d).bind (v1Loop p x dlen n) := by
  simp only [v1Loop, h, if_true]
  cases v1Turn p x dlen d <;> rfl

theorem v1Turn_of_truncated {p : Params} {x : Arch} {dlen : Half} {d : V1State} {e : DecodeReject}
    (h : decodeV1Token (x.v1Window d.cursor) = .error e) : v1Turn p x dlen d = .error .v1Trunc := by
  simp only [v1Turn, h]

/-- A turn on a token that is there: its effect, then the overrun check (R161). -/
theorem v1Turn_of_token {p : Params} {x : Arch} {dlen : Half} {d : V1State} {t : V1Token} {rest : List Byte}
    (h : decodeV1Token (x.v1Window d.cursor) = .ok (t, rest)) :
    v1Turn p x dlen d =
      (v1Exec p t d).bind fun d' => if v1Overruns p dlen d' then .error .v1Overrun else .ok d' := by
  simp only [v1Turn, h]
  cases v1Exec p t d <;> rfl

theorem sameCart_v1Turn {x y : Arch} (h : sameCart x y) (p : Params) (dlen : Half) (d : V1State) :
    v1Turn p x dlen d = v1Turn p y dlen d := by
  simp only [v1Turn, sameCart_v1Window h]

/-- CURSOR is assigned after the loop, so what it held before does not matter. -/
theorem v1Finish_cursor (x : Arch) (c : Nat) (dlen : Half) (d : V1State) :
    v1Finish { x with cursor := c } dlen d = v1Finish x dlen d := by
  unfold v1Finish
  rw [sameCart_hdr6Field (sameCart_cursor x c)]
  rfl

/-! ### After a token -/

theorem v1After_of_overruns {p : Params} {s : State} {r : Run} (hphase : s.phase = .v1 r)
    (hover : v1Overruns p r.dlen (s.v1View r) = true) : s.v1After p = s.abort r .v1Overrun := by
  simp only [State.v1After, hphase, hover, if_true]

theorem v1After_of_continues {p : Params} {s : State} {r : Run} (hphase : s.phase = .v1 r)
    (hover : v1Overruns p r.dlen (s.v1View r) = false) (hcont : v1Continues p r.dlen (s.v1View r) = true) :
    s.v1After p = s := by
  simp only [State.v1After, hphase, hover, hcont, Bool.false_eq_true, if_false, if_true]

theorem v1After_of_stops {p : Params} {s : State} {r : Run} (hphase : s.phase = .v1 r)
    (hover : v1Overruns p r.dlen (s.v1View r) = false) (hstop : v1Continues p r.dlen (s.v1View r) = false) :
    s.v1After p = s.finish r (r.entry.result p (v1Finish s.toArch r.dlen (s.v1View r))) := by
  simp only [State.v1After, hphase, hover, hstop, Bool.false_eq_true, if_false]

/-- A step inside a V1 decode is a turn of the loop and then the loop's test (R161): an overrun ends the command alike in
the turn and after it. -/
theorem step_eq_v1Turn {s : State} {r : Run} (hphase : s.phase = .v1 r) :
    step s = .next
      ((s.v1Put r (v1Turn Config.params s.toArch r.dlen (s.v1View r))).v1After Config.params) := by
  cases hdec : decodeV1Token (s.v1Window s.cursor) with
  | error e =>
    rw [step_of_truncated hphase hdec, v1Turn_of_truncated hdec]
    rfl
  | ok q =>
    obtain ⟨t, rest⟩ := q
    rw [step_of_v1 hphase, stepV1_next (fetchV1_eq_some hdec) (exec_v1Token t hphase), v1Turn_of_token hdec]
    cases v1Exec Config.params t (s.v1View r) with
    | error e => rfl
    | ok d =>
      cases hover : v1Overruns Config.params r.dlen d with
      | true =>
        simp only [Except.bind, hover, if_true]
        rw [v1After_of_overruns (r := { r with out := d.out }) rfl hover]
        rfl
      | false => simp only [Except.bind, hover, Bool.false_eq_true, if_false]

/-! ### The loop as steps -/

/-- The decode of a DECODE_V1 that began in `s`, with this output so far. -/
def State.v1RunAt (s : State) (d : V1State) : Run :=
  { start := s.toArch, entry := .direct, dlen := s.dlenField, out := d.out }

/-- A DECODE_V1 that began in `s`, about to read a token at this CURSOR with this output. -/
def State.v1At (s : State) (d : V1State) : State := { s with cursor := d.cursor, phase := .v1 (s.v1RunAt d) }

theorem enterV1_direct (s : State) : s.enterV1 .direct = s.v1At v1Start := rfl

/-- A step from there, in terms of the command's own turn. -/
theorem step_v1At (s : State) (d : V1State) :
    step (s.v1At d) = .next (((s.v1At d).v1Put (s.v1RunAt d) (v1Turn Config.params s.toArch s.dlenField d)).v1After
      Config.params) := by
  rw [← sameCart_v1Turn (sameCart_cursor s.toArch d.cursor)]
  exact step_eq_v1Turn rfl

theorem step_v1At_of_error {s : State} {d : V1State} {e : Err}
    (h : v1Turn Config.params s.toArch s.dlenField d = .error e) : step (s.v1At d) = .next (s.complete (.error e)) := by
  rw [step_v1At, h]
  rfl

/-- A turn that succeeds and after which the loop's test passes: the next token is read (R161). -/
theorem step_v1At_of_continues {s : State} {d d' : V1State}
    (h : v1Turn Config.params s.toArch s.dlenField d = .ok d') (hcont : v1Continues Config.params s.dlenField d' = true) :
    step (s.v1At d) = .next (s.v1At d') := by
  obtain ⟨-, -, -, -, hover, -⟩ := v1Turn_ok h
  rw [step_v1At, h]
  exact congrArg _ (v1After_of_continues (s := s.v1At d') (r := s.v1RunAt d') rfl hover hcont)

/-- A turn that succeeds and after which the loop's test fails: the command ends (R161). -/
theorem step_v1At_of_stops {s : State} {d d' : V1State}
    (h : v1Turn Config.params s.toArch s.dlenField d = .ok d') (hstop : v1Continues Config.params s.dlenField d' = false) :
    step (s.v1At d) = .next (s.complete (v1Finish s.toArch s.dlenField d')) := by
  obtain ⟨-, -, -, -, hover, -⟩ := v1Turn_ok h
  rw [step_v1At, h, ← v1Finish_cursor s.toArch d'.cursor]
  exact congrArg _ (v1After_of_stops (s := s.v1At d') (r := s.v1RunAt d') rfl hover hstop)

theorem core_run_succ {s s' : State} (h : step s = .next s') (n : Nat) : core.run (n + 1) s = core.run n s' :=
  run_succ_next core (s := s) (s' := s') h n

/-- With fuel for each body byte that is left, the steps from a token on reach what the loop from there leaves. -/
theorem run_v1At {s : State} {n : Nat} {d : V1State} (hfuel : v1BodyLen ≤ d.cursor + n)
    (hcont : v1Continues Config.params s.dlenField d = true) :
    ∃ k, k ≤ n + 1 ∧ core.run k (s.v1At d) = .next
      (s.complete ((v1Loop Config.params s.toArch s.dlenField n d).bind (v1Finish s.toArch s.dlenField))) := by
  induction n generalizing d with
  | zero =>
    have htrunc : decodeV1Token (s.v1Window d.cursor) = .error .v1Truncated := by
      rw [v1Window_of_ge (c := d.cursor) s.toArch hfuel]
      rfl
    rw [v1Loop_zero_of_continues hcont]
    exact ⟨1, Nat.le_refl 1, core_run_succ (step_v1At_of_error (v1Turn_of_truncated htrunc)) 0⟩
  | succ n ih =>
    rw [v1Loop_succ_of_continues n hcont]
    cases hturn : v1Turn Config.params s.toArch s.dlenField d with
    | error e => exact ⟨1, by omega, core_run_succ (step_v1At_of_error hturn) 0⟩
    | ok d' =>
      cases hcont' : v1Continues Config.params s.dlenField d' with
      | true =>
        have hmoves := v1Turn_cursor hturn
        obtain ⟨k, hk, hrun⟩ := ih (d := d') (by omega) hcont'
        exact ⟨k + 1, by omega, (core_run_succ (step_v1At_of_continues hturn hcont') k).trans hrun⟩
      | false =>
        rw [Except.bind, v1Loop_of_stops n hcont']
        exact ⟨1, by omega, core_run_succ (step_v1At_of_stops hturn hcont') 0⟩

/-- Before the first token both counts that the loop's test can compare with dlen are 0. -/
theorem v1Start_continues {p : Params} {dlen : Half} (h : dlen ≠ 0) : v1Continues p dlen v1Start = true := by
  have hpos : 0 < dlen.toNat := Nat.pos_of_ne_zero fun hzero => h (BitVec.eq_of_toNat_eq hzero)
  cases hp : p.v1LoopBound with
  | cursor => simpa [v1Continues_cursor hp, v1Start] using hpos
  | output => simpa [v1Continues_output hp, v1Start] using hpos

/-- Settles O29: the whole body is ahead of the first token, and 15608 turns are fuel for it. -/
theorem tokenStepsComposeDecodeV1 : Obligations.TokenStepsComposeDecodeV1 := by
  intro s _ hcart hdlen
  obtain ⟨k, hk, hrun⟩ := run_v1At (s := s) (n := v1BodyLen) (d := v1Start) (Nat.le_add_left ..)
    (v1Start_continues hdlen)
  rw [← decodeV1_of_loop hcart rfl, ← enterV1_direct] at hrun
  exact ⟨k, _, hk, exec_of_commandResult .decodeV1, hrun⟩

end Sys2Proof.Machine

/-! PROOFS. The move-to-front decoder V2 (44_v2_mtf.md): the bit reader, the table, the checks of the header, what DECODE_V2
and its token leave, and that the token steps reach what the whole command leaves. -/

namespace Sys2Proof

/-! ### The bit reader -/

theorem readBits_succ_nil (w : Nat) : readBits (w + 1) [] = none := rfl

/-- `read_bits(w + 1)`: the bit read first stands below the `w` bits read after it (R195). -/
theorem readBits_succ_cons (w : Nat) (b : Bool) (bits : List Bool) :
    readBits (w + 1) (b :: bits) = (readBits w bits).map fun q => (Nat.bit b q.1, q.2) := by
  simp only [readBits, readBit]
  cases readBits w bits with
  | none => rfl
  | some q => exact congrArg (fun v => some (v, q.2)) (by rw [Nat.bit_val, Nat.add_comm])

theorem readBits_of_lt {w : Nat} {bits : List Bool} (h : bits.length < w) : readBits w bits = none := by
  induction w generalizing bits with
  | zero => exact absurd h (Nat.not_lt_zero _)
  | succ w ih =>
    cases bits with
    | nil => exact readBits_succ_nil w
    | cons b bits => rw [readBits_succ_cons, ih (Nat.lt_of_succ_lt_succ h), Option.map_none]

theorem readBits_of_le {w : Nat} {bits : List Bool} (h : w ≤ bits.length) :
    ∃ v, readBits w bits = some (v, bits.drop w) ∧ v < 2 ^ w ∧
      ∀ j (hj : j < bits.length), j < w → v.testBit j = bits[j] := by
  induction w generalizing bits with
  | zero => exact ⟨0, rfl, Nat.one_pos, fun j _ hlt => absurd hlt (Nat.not_lt_zero j)⟩
  | succ w ih =>
    cases bits with
    | nil => exact absurd h (Nat.not_succ_le_zero w)
    | cons b bits =>
      obtain ⟨v, hread, hlt, hbits⟩ := ih (Nat.le_of_succ_le_succ h)
      have hread' : readBits (w + 1) (b :: bits) = some (Nat.bit b v, bits.drop w) := by
        rw [readBits_succ_cons, hread, Option.map_some]
      refine ⟨Nat.bit b v, hread', Nat.bit_lt_two_pow_succ_iff.mpr hlt, fun j hj hjw => ?_⟩
      cases j with
      | zero => exact Nat.testBit_bit_zero b v
      | succ j =>
        rw [Nat.testBit_bit_succ]
        exact hbits j (Nat.lt_of_succ_lt_succ hj) (Nat.lt_of_succ_lt_succ hjw)

/-- Settles O7, by induction on the width: each bit read first is the lowest of the value. -/
theorem readBitsIsLsbFirst : Obligations.ReadBitsIsLsbFirst := fun _ _ => ⟨readBits_of_lt, readBits_of_le⟩

/-- `read_unary()` fails exactly where no zero is left (R196). -/
theorem readUnary_eq_none {bits : List Bool} : readUnary bits = none ↔ ∀ b ∈ bits, b = true := by
  induction bits with
  | nil => simp [readUnary]
  | cons b bits ih =>
    rw [List.forall_mem_cons, ← ih]
    cases b with
    | false => simp [readUnary]
    | true => cases hread : readUnary bits <;> simp [readUnary, hread]

/-- Settles O8: the two ends of `read_unary()`, each by induction on the bits. -/
theorem readUnaryCountsOnes : Obligations.ReadUnaryCountsOnes := fun _ =>
  ⟨fun _ _ => Machine.readUnary_eq_some, readUnary_eq_none⟩

end Sys2Proof

namespace Sys2Proof.Machine

/-! ### The table -/

/-- The table after `mtf_take(i)`: entry `i` in front of the others, which keep their order (R202). -/
theorem mtfTake_toList (i : Fin 256) (m : Mtf) : (mtfTake i m).2.toList = m[i] :: m.toList.eraseIdx i := by
  rw [List.eraseIdx_eq_take_drop_succ]
  rfl

/-- `mtf_take(i)` only reorders the table. -/
theorem mtfTake_perm (i : Fin 256) (m : Mtf) : (mtfTake i m).2.toList.Perm m.toList := by
  rw [mtfTake_toList]
  exact List.getElem_cons_eraseIdx_perm (l := m.toList) (n := i) (by simp)

/-- An entry of the new table past its front: those before `i` have moved up by one, those after it stay (R202). -/
theorem mtfTake_getElem_succ (i : Fin 256) (m : Mtf) {j : Nat} (h : j + 1 < 256) :
    (mtfTake i m).2[j + 1] = if j < i.val then m[j] else m[j + 1] := by
  rw [← Vector.getElem_toList (by simpa using h)]
  simp only [mtfTake_toList, List.getElem_cons_succ, List.getElem_eraseIdx, Vector.getElem_toList]
  split <;> rfl

/-- Settles O38: the new table is entry `i` in front of the old table without it. -/
theorem mtfTakeMovesToFront : Obligations.MtfTakeMovesToFront := fun i m =>
  ⟨rfl, rfl, fun _ h => mtfTake_getElem_succ i m h, (mtfTake_perm i m).nodup_iff.mpr⟩

/-! ### The header's checks -/

theorem badClen_eq_true {c : Half} : badClen c = true ↔ c.toNat < 264 ∨ 15616 < c.toNat := by
  simp [badClen, v2HdrBytes, codeLen]

/-- The check of R192 on the table field is what R192 says of the cartridge's bytes. -/
theorem isPermutation_iff (x : Arch) : isPermutation x.mtfField = true ↔ tableIsPermutation x :=
  isPermutation_mtfField x

theorem decodeV2_of_wholeCart {p : Params} {x : Arch} (h : 32768 ≤ x.cartlen.toNat) : decodeV2 p x = v2Body p x := by
  simp only [decodeV2, shortCart_eq_false.mpr h, Bool.false_eq_true, if_false]

theorem v2Body_of_badClen {p : Params} {x : Arch} (h : badClen x.hdr6Field = true) : v2Body p x = .error .v2Clen :=
  if_pos h

theorem v2Body_of_badTable {p : Params} {x : Arch} (hclen : badClen x.hdr6Field = false)
    (htable : isPermutation x.mtfField = false) : v2Body p x = .error .v2Mtf := by
  simp only [v2Body, hclen, htable, Bool.false_eq_true, Bool.not_false, if_false, if_true]

/-- DECODE_V2 past the checks of its header: the loop, and then what follows it (R199). -/
theorem v2Body_of_soundHeader {p : Params} {x : Arch} (hclen : badClen x.hdr6Field = false)
    (htable : isPermutation x.mtfField = true) :
    v2Body p x =
      (v2Loop p x (v2NBits x.hdr6Field) x.dlenField (v2NBits x.hdr6Field) (v2Start x)).bind
        (v2Finish x x.dlenField) := by
  simp only [v2Body, hclen, htable, Bool.false_eq_true, Bool.not_true, if_false]
  cases v2Loop p x (v2NBits x.hdr6Field) x.dlenField (v2NBits x.hdr6Field) (v2Start x) <;> rfl

/-- Settles O33: each check of the header, behind those before it. -/
theorem v2HeaderChecksInOrder : Obligations.V2HeaderChecksInOrder := by
  intro s hcart
  have hbody := decodeV2_of_wholeCart (p := Config.params) hcart
  refine ⟨fun hrange => ?_, fun hlo hhi htable => ?_⟩
  · exact failsWith_of_commandResult .decodeV2 (hbody.trans (v2Body_of_badClen (badClen_eq_true.mpr hrange)))
  · have hfails : isPermutation s.mtfField = false :=
      Bool.eq_false_iff.mpr fun hperm => htable ((isPermutation_iff s.toArch).mp hperm)
    exact failsWith_of_commandResult .decodeV2
      (hbody.trans (v2Body_of_badTable (badClen_eq_false.mpr ⟨hlo, hhi⟩) hfails))

/-! ### DECODE_V2 -/

/-- A cartridge that passes every check of DECODE_V2: whole (R251), its compressed_len in range (R191), its table a
permutation (R192). -/
structure Arch.SoundV2 (x : Arch) : Prop where
  cart : 32768 ≤ x.cartlen.toNat
  clen_ge : 264 ≤ x.hdr6Field.toNat
  clen_le : x.hdr6Field.toNat ≤ 15616
  table : tableIsPermutation x

/-- The result of DECODE_V2 behind its checks, when its loop ends as `res` (R199). -/
theorem decodeV2_of_loop {p : Params} {x : Arch} {res : Except Err V2State} (hx : x.SoundV2)
    (h : v2Loop p x (v2NBits x.hdr6Field) x.dlenField (v2NBits x.hdr6Field) (v2Start x) = res) :
    decodeV2 p x = res.bind (v2Finish x x.dlenField) := by
  rw [decodeV2_of_wholeCart hx.cart, ← h]
  exact v2Body_of_soundHeader (badClen_eq_false.mpr ⟨hx.clen_ge, hx.clen_le⟩) ((isPermutation_iff x).mpr hx.table)

theorem v2Finish_of_valid {x : Arch} {dlen : Half} {d : V2State} (h : validUtf8 d.out = true) :
    v2Finish x dlen d =
      .ok { x.setText d.out with bitpos := d.bitpos, mtf := d.mtf, dlen := dlen, hdr6 := x.hdr6Field } :=
  if_pos h

theorem v2Finish_of_invalid {x : Arch} {dlen : Half} {d : V2State} (h : validUtf8 d.out = false) :
    v2Finish x dlen d = .error .utf8 := by
  simp only [v2Finish, h, Bool.false_eq_true, if_false]

/-- Settles O36: the loop's end, and then the UTF-8 check, decide how the command ends. -/
theorem decodeV2Completes : Obligations.DecodeV2Completes := by
  refine ⟨fun s hcart hlo hhi htable => ?_, fun p x d hcart hlo hhi htable hloop hinvalid => ?_⟩
  · have hsound : s.SoundV2 := ⟨hcart, hlo, hhi, htable⟩
    refine ⟨fun d hloop hvalid => ?_, fun st hfail => ?_⟩
    · have hres := (decodeV2_of_loop hsound hloop).trans (v2Finish_of_valid hvalid)
      have hexact : d.out.length = s.dlenField.toNat := v2Loop_length (Nat.zero_le _) hloop
      have hlen : d.out.length ≤ outCap := le_outCap_of_le_dlen hexact.le
      have htext : holdsText (s.complete (.ok { s.setText d.out with
          bitpos := d.bitpos, mtf := d.mtf, dlen := s.dlenField, hdr6 := s.hdr6Field })) d.out :=
        holdsText_of_out_eq (x := s.toArch) hlen rfl rfl
      have hexec := exec_of_commandResult (s := s) .decodeV2
      rw [hres] at hexec
      exact ⟨_, hexec, rfl, htext, htext.1.trans hexact, rfl, rfl, storesOnly_setText s d.out, rfl, rfl, rfl, rfl⟩
    · rcases hfail with ⟨d, hloop, hinvalid, rfl⟩ | ⟨e, hloop, rfl⟩
      · have hres := (decodeV2_of_loop hsound hloop).trans (v2Finish_of_invalid hinvalid)
        exact ⟨failsWith_of_commandResult .decodeV2 hres, by decide⟩
      · refine ⟨failsWith_of_commandResult .decodeV2 (decodeV2_of_loop hsound hloop), ?_⟩
        rcases v2Loop_error hloop with rfl | rfl | rfl | rfl <;> decide
  · exact (decodeV2_of_loop ⟨hcart, hlo, hhi, htable⟩ hloop).trans (v2Finish_of_invalid hinvalid)

/-! ### A token -/

/-- With V2_GRAMMAR = NONE no token can be executed (R198). -/
theorem v2Exec_of_noGrammar {p : Params} (h : p.v2Grammar = none) (x : Arch) (nbits u : Nat) (d : V2State) :
    v2Exec p x nbits u d = .error .v2Grammar := by
  simp only [v2Exec, h]

/-- Settles O35, a case for each answer V2_GRAMMAR can give. -/
theorem v2TokenCompletes : Obligations.V2TokenCompletes := by
  intro s r nbits u hphase
  rw [exec_v2Token u hphase]
  cases hgrammar : Config.params.v2Grammar with
  | none =>
    rw [v2Exec_of_noGrammar hgrammar]
    rfl
  | some g =>
    simp only [v2Exec, hgrammar, State.v2View]
    cases g.run u (s.restBits nbits (s.bitpos + (u + 1))) s.mtf r.out with
    | truncErr => rfl
    | tokenErr => rfl
    | ok k e m => rfl

/-! ### The turns of the loop -/

theorem v2Loop_of_stops {p : Params} {x : Arch} {nbits : Nat} {dlen : Half} {d : V2State} (n : Nat)
    (h : v2Continues dlen d = false) : v2Loop p x nbits dlen n d = .ok d := by
  cases n <;> simp only [v2Loop, h, Bool.false_eq_true, if_false]

theorem v2Loop_zero_of_continues {p : Params} {x : Arch} {nbits : Nat} {dlen : Half} {d : V2State}
    (h : v2Continues dlen d = true) : v2Loop p x nbits dlen 0 d = .error (v2NoToken p) :=
  if_pos h

theorem v2Loop_succ_of_continues {p : Params} {x : Arch} {nbits : Nat} {dlen : Half} {d : V2State} (n : Nat)
    (h : v2Continues dlen d = true) :
    v2Loop p x nbits dlen (n + 1) d = (v2Turn p x nbits dlen d).bind (v2Loop p x nbits dlen n) := by
  simp only [v2Loop, h, if_true]
  cases v2Turn p x nbits dlen d <;> rfl

/-- A turn whose unary value is cut off (R196, R206). -/
theorem v2Turn_of_noUnary {p : Params} {x : Arch} {nbits : Nat} {dlen : Half} {d : V2State}
    (h : readUnary (x.restBits nbits d.bitpos) = none) : v2Turn p x nbits dlen d = .error (v2NoToken p) := by
  simp only [v2Turn, h]

/-- A turn whose unary value is there: the token's effect, then the overrun check (R199). -/
theorem v2Turn_of_unary {p : Params} {x : Arch} {nbits u : Nat} {dlen : Half} {d : V2State} {rest : List Bool}
    (h : readUnary (x.restBits nbits d.bitpos) = some (u, rest)) :
    v2Turn p x nbits dlen d =
      (v2Exec p x nbits u d).bind fun d' => if v2Overruns dlen d' then .error .v2Overrun else .ok d' := by
  simp only [v2Turn, h]
  cases v2Exec p x nbits u d <;> rfl

/-- At the stream's end no unary value can be read, not even its zero. -/
theorem v2Turn_of_streamEnd {p : Params} {x : Arch} {nbits : Nat} {dlen : Half} {d : V2State} (h : nbits ≤ d.bitpos) :
    v2Turn p x nbits dlen d = .error (v2NoToken p) := by
  have hempty : x.restBits nbits d.bitpos = [] :=
    List.eq_nil_of_length_eq_zero ((streamBits_length ..).trans (Nat.sub_eq_zero_of_le h))
  exact v2Turn_of_noUnary (by rw [hempty]; rfl)

/-- A turn moves BITPOS on by one bit at least: the zero that ends the unary value (R204). -/
theorem v2Turn_bitpos {p : Params} {x : Arch} {nbits : Nat} {dlen : Half} {d d' : V2State}
    (h : v2Turn p x nbits dlen d = .ok d') : d.bitpos + 1 ≤ d'.bitpos := by
  obtain ⟨u, -, -, hexec, -⟩ := v2Turn_ok h
  obtain ⟨-, k, -, -, -, -, rfl⟩ := v2Exec_ok hexec
  change d.bitpos + 1 ≤ d.bitpos + (u + 1) + k
  omega

/-- Before the first token nothing has been emitted. -/
theorem v2Start_continues {x : Arch} {dlen : Half} (h : dlen ≠ 0) : v2Continues dlen (v2Start x) = true :=
  decide_eq_true (Nat.pos_of_ne_zero fun hzero => h (BitVec.eq_of_toNat_eq hzero))

/-! ### No grammar -/

theorem v2NoToken_of_noGrammar {p : Params} (h : p.v2Grammar = none) : v2NoToken p = .v2Grammar := by
  simp only [v2NoToken, h]

theorem v2Turn_of_noGrammar {p : Params} (h : p.v2Grammar = none) (x : Arch) (nbits : Nat) (dlen : Half) (d : V2State) :
    v2Turn p x nbits dlen d = .error .v2Grammar := by
  cases hread : readUnary (x.restBits nbits d.bitpos) with
  | none => rw [v2Turn_of_noUnary hread, v2NoToken_of_noGrammar h]
  | some q =>
    rw [v2Turn_of_unary hread, v2Exec_of_noGrammar h]
    rfl

/-- The first token that is needed raises the error, whether or not its unary value is there (R198). -/
theorem v2Loop_of_noGrammar {p : Params} (h : p.v2Grammar = none) {x : Arch} {nbits : Nat} {dlen : Half} {d : V2State}
    (n : Nat) (hcont : v2Continues dlen d = true) : v2Loop p x nbits dlen n d = .error .v2Grammar := by
  cases n with
  | zero => rw [v2Loop_zero_of_continues hcont, v2NoToken_of_noGrammar h]
  | succ n =>
    rw [v2Loop_succ_of_continues n hcont, v2Turn_of_noGrammar h]
    rfl

/-- Settles O34: a length other than 0 needs a first token, length 0 ends the loop before any. -/
theorem noGrammarIsUnsupported : Obligations.NoGrammarIsUnsupported := by
  intro p x hp hcart hlo hhi htable
  have hsound : x.SoundV2 := ⟨hcart, hlo, hhi, htable⟩
  refine ⟨fun hdlen => ?_, fun hdlen => ?_⟩
  · exact decodeV2_of_loop hsound (v2Loop_of_noGrammar hp _ (v2Start_continues hdlen))
  · have hstops : v2Continues x.dlenField (v2Start x) = false := by
      rw [hdlen]
      rfl
    have hres := (decodeV2_of_loop (p := p) hsound (v2Loop_of_stops _ hstops)).trans (v2Finish_of_valid rfl)
    exact ⟨_, hres, rfl, hdlen, rfl⟩

/-! ### After a token -/

theorem v2After_of_overruns {p : Params} {s : State} {r : Run} {nbits : Nat} (hphase : s.phase = .v2 r nbits)
    (hover : v2Overruns r.dlen (s.v2View r) = true) : s.v2After p = s.abort r .v2Overrun := by
  simp only [State.v2After, hphase, hover, if_true]

theorem v2After_of_continues {p : Params} {s : State} {r : Run} {nbits : Nat} (hphase : s.phase = .v2 r nbits)
    (hover : v2Overruns r.dlen (s.v2View r) = false) (hcont : v2Continues r.dlen (s.v2View r) = true) :
    s.v2After p = s := by
  simp only [State.v2After, hphase, hover, hcont, Bool.false_eq_true, if_false, if_true]

theorem v2After_of_stops {p : Params} {s : State} {r : Run} {nbits : Nat} (hphase : s.phase = .v2 r nbits)
    (hover : v2Overruns r.dlen (s.v2View r) = false) (hstop : v2Continues r.dlen (s.v2View r) = false) :
    s.v2After p = s.finish r (r.entry.result p (v2Finish s.toArch r.dlen (s.v2View r))) := by
  simp only [State.v2After, hphase, hover, hstop, Bool.false_eq_true, if_false]

theorem fetchV2_eq_none {s : State} {nbits : Nat} (h : readUnary (s.restBits nbits s.bitpos) = none) :
    s.fetchV2 nbits = none := by
  simp only [State.fetchV2, h]

/-- Where no unary value can be read, the step takes the error of a token that is needed (R198, R206). -/
theorem step_of_noUnary {s : State} {r : Run} {nbits : Nat} (hphase : s.phase = .v2 r nbits)
    (h : readUnary (s.restBits nbits s.bitpos) = none) : step s = .next (s.abort r (v2NoToken Config.params)) := by
  rw [step_of_v2 hphase]
  simp only [stepV2, fetchV2_eq_none h]

/-- A step inside a V2 decode is a turn of the loop and then the loop's test (R199): an overrun ends the command alike in
the turn and after it. -/
theorem step_eq_v2Turn {s : State} {r : Run} {nbits : Nat} (hphase : s.phase = .v2 r nbits) :
    step s = .next
      ((s.v2Put r nbits (v2Turn Config.params s.toArch nbits r.dlen (s.v2View r))).v2After Config.params) := by
  cases hread : readUnary (s.restBits nbits s.bitpos) with
  | none =>
    rw [step_of_noUnary hphase hread, v2Turn_of_noUnary hread]
    rfl
  | some q =>
    obtain ⟨u, rest⟩ := q
    rw [step_of_v2 hphase, stepV2_next (fetchV2_eq_some hread) (exec_v2Token u hphase), v2Turn_of_unary hread]
    cases v2Exec Config.params s.toArch nbits u (s.v2View r) with
    | error e => rfl
    | ok d =>
      cases hover : v2Overruns r.dlen d with
      | true =>
        simp only [Except.bind, hover, if_true]
        rw [v2After_of_overruns (v2Put_ok_phase s r nbits d) hover]
        rfl
      | false => simp only [Except.bind, hover, Bool.false_eq_true, if_false]

/-! ### The loop as steps -/

/-- BITPOS and MTF, which the loop reads from its own state, play no part in what a turn makes of CART. -/
theorem v2Turn_internal (p : Params) (x : Arch) (b : Nat) (m : Mtf) (nbits : Nat) (dlen : Half) (d : V2State) :
    v2Turn p { x with bitpos := b, mtf := m } nbits dlen d = v2Turn p x nbits dlen d := by
  have hrest : ∀ k, Arch.restBits { x with bitpos := b, mtf := m } nbits k = x.restBits nbits k :=
    restBits_congr (show ({ x with bitpos := b, mtf := m } : Arch).cart = x.cart from rfl) nbits
  simp only [v2Turn, v2Exec, hrest]

/-- BITPOS and MTF are assigned after the loop, so what they held before does not matter. -/
theorem v2Finish_internal (x : Arch) (b : Nat) (m : Mtf) (dlen : Half) (d : V2State) :
    v2Finish { x with bitpos := b, mtf := m } dlen d = v2Finish x dlen d := rfl

/-- The decode of a DECODE_V2 that began in `s`, with this output so far. -/
def State.v2RunAt (s : State) (d : V2State) : Run :=
  { start := s.toArch, entry := .direct, dlen := s.dlenField, out := d.out }

/-- A DECODE_V2 that began in `s`, about to read a token at this BITPOS with this table and output. -/
def State.v2At (s : State) (d : V2State) : State :=
  { s with bitpos := d.bitpos, mtf := d.mtf, phase := .v2 (s.v2RunAt d) (v2NBits s.hdr6Field) }

theorem enterV2_direct (s : State) : s.enterV2 .direct = s.v2At (v2Start s.toArch) := rfl

/-- A step from there, in terms of the command's own turn. -/
theorem step_v2At (s : State) (d : V2State) :
    step (s.v2At d) = .next (((s.v2At d).v2Put (s.v2RunAt d) (v2NBits s.hdr6Field)
      (v2Turn Config.params s.toArch (v2NBits s.hdr6Field) s.dlenField d)).v2After Config.params) := by
  rw [← v2Turn_internal Config.params s.toArch d.bitpos d.mtf]
  exact step_eq_v2Turn rfl

theorem step_v2At_of_error {s : State} {d : V2State} {e : Err}
    (h : v2Turn Config.params s.toArch (v2NBits s.hdr6Field) s.dlenField d = .error e) :
    step (s.v2At d) = .next (s.complete (.error e)) := by
  rw [step_v2At, h]
  rfl

/-- A turn that succeeds and after which the loop's test passes: the next token is read (R199). -/
theorem step_v2At_of_continues {s : State} {d d' : V2State}
    (h : v2Turn Config.params s.toArch (v2NBits s.hdr6Field) s.dlenField d = .ok d')
    (hcont : v2Continues s.dlenField d' = true) : step (s.v2At d) = .next (s.v2At d') := by
  obtain ⟨-, -, -, -, hover⟩ := v2Turn_ok h
  rw [step_v2At, h]
  exact congrArg _ (v2After_of_continues (s := s.v2At d') rfl hover hcont)

/-- A turn that succeeds and after which the loop's test fails: the command ends (R199). -/
theorem step_v2At_of_stops {s : State} {d d' : V2State}
    (h : v2Turn Config.params s.toArch (v2NBits s.hdr6Field) s.dlenField d = .ok d')
    (hstop : v2Continues s.dlenField d' = false) :
    step (s.v2At d) = .next (s.complete (v2Finish s.toArch s.dlenField d')) := by
  obtain ⟨-, -, -, -, hover⟩ := v2Turn_ok h
  rw [step_v2At, h, ← v2Finish_internal s.toArch d'.bitpos d'.mtf]
  exact congrArg _ (v2After_of_stops (s := s.v2At d') rfl hover hstop)

/-- With fuel for each stream bit that is left, the steps from a token on reach what the loop from there leaves. -/
theorem run_v2At {s : State} {n : Nat} {d : V2State} (hfuel : v2NBits s.hdr6Field ≤ d.bitpos + n)
    (hcont : v2Continues s.dlenField d = true) :
    ∃ k, k ≤ n + 1 ∧ core.run k (s.v2At d) = .next
      (s.complete ((v2Loop Config.params s.toArch (v2NBits s.hdr6Field) s.dlenField n d).bind
        (v2Finish s.toArch s.dlenField))) := by
  induction n generalizing d with
  | zero =>
    rw [v2Loop_zero_of_continues hcont]
    exact ⟨1, Nat.le_refl 1, core_run_succ (step_v2At_of_error (v2Turn_of_streamEnd hfuel)) 0⟩
  | succ n ih =>
    rw [v2Loop_succ_of_continues n hcont]
    cases hturn : v2Turn Config.params s.toArch (v2NBits s.hdr6Field) s.dlenField d with
    | error e => exact ⟨1, by omega, core_run_succ (step_v2At_of_error hturn) 0⟩
    | ok d' =>
      cases hcont' : v2Continues s.dlenField d' with
      | true =>
        have hmoves := v2Turn_bitpos hturn
        obtain ⟨k, hk, hrun⟩ := ih (d := d') (by omega) hcont'
        exact ⟨k + 1, by omega, (core_run_succ (step_v2At_of_continues hturn hcont') k).trans hrun⟩
      | false =>
        rw [Except.bind, v2Loop_of_stops n hcont']
        exact ⟨1, by omega, core_run_succ (step_v2At_of_stops hturn hcont') 0⟩

/-- Settles O37: the whole stream is ahead of the first token, and NBITS turns are fuel for it. -/
theorem tokenStepsComposeDecodeV2 : Obligations.TokenStepsComposeDecodeV2 := by
  intro s _ hcart hdlen hlo hhi htable
  obtain ⟨k, hk, hrun⟩ := run_v2At (s := s) (n := v2NBits s.hdr6Field) (d := v2Start s.toArch) (Nat.le_add_left ..)
    (v2Start_continues hdlen)
  rw [← decodeV2_of_loop ⟨hcart, hlo, hhi, htable⟩ rfl, ← enterV2_direct] at hrun
  exact ⟨k, _, hk, exec_of_commandResult .decodeV2, hrun⟩

end Sys2Proof.Machine

/-! PROOFS. The back-reference matcher (45_backref.md): FIND's operand check, and what FIND reports. -/

namespace Sys2Proof.Machine

/-! ### The operand check -/

theorem mbufBad_eq_true {x : Arch} :
    mbufBad x = true ↔ 32768 < x.mbuflen.toNat ∨ x.mbuflen.toNat < x.msplit.toNat := by
  simp only [mbufBad, Bool.or_eq_true, decide_eq_true_eq]

theorem mbufBad_eq_false {x : Arch} :
    mbufBad x = false ↔ x.msplit.toNat ≤ x.mbuflen.toNat ∧ x.mbuflen.toNat ≤ 32768 := by
  rw [← Bool.not_eq_true, mbufBad_eq_true]
  omega

theorem find_of_mbufBad {x : Arch} (h : mbufBad x = true) : find x = .error .mbufRange := if_pos h

/-- FIND past its operand check: the match is all that it can report. -/
theorem find_of_inRange {x : Arch} (h : mbufBad x = false) :
    find x = .ok (withMatch x (findMatch x.searchBuf x.currentBuf)) := by
  simp only [find, h, Bool.false_eq_true, if_false]

/-- Settles O40: the operand check fails, and FIND with it. -/
theorem findRangeCheck : Obligations.FindRangeCheck := fun _ hbad =>
  failsWith_of_commandResult .find (find_of_mbufBad (mbufBad_eq_true.mpr hbad))

/-! ### The match -/

/-- Nothing is found where there is nothing to look for, or nowhere its first byte. -/
theorem findMatch_eq_none {S C : List Byte} (h : C = [] ∨ ∃ c C', C = c :: C' ∧ c ∉ S) : findMatch S C = none := by
  obtain rfl | ⟨c, C', rfl, hc⟩ := h
  · rfl
  · simp only [findMatch, findByte_eq_none.mpr hc]

/-- The match is the run at the earliest position of the first byte, and its distance is counted from the end of the
search buffer (R222). -/
theorem findMatch_eq_some {S C' : List Byte} {c : Byte} {p : Nat} (hget : S[p]? = some c)
    (hfirst : ∀ q, q < p → S[q]? ≠ some c) :
    findMatch S (c :: C') = some (matchLen (S.drop p) (c :: C'), S.length - p) := by
  simp only [findMatch, findByte_eq_some.mpr ⟨hget, hfirst⟩]

/-- The run at a position: inside both buffers, agreeing throughout, and ended by a difference or an end (R222, R223). -/
theorem matchLen_drop_spec {S C : List Byte} {p : Nat} (hp : p ≤ S.length) :
    p + matchLen (S.drop p) C ≤ S.length ∧ matchLen (S.drop p) C ≤ C.length ∧
      (∀ j, j < matchLen (S.drop p) C → S[p + j]? = C[j]?) ∧
      (p + matchLen (S.drop p) C < S.length → matchLen (S.drop p) C < C.length →
        S[p + matchLen (S.drop p) C]? ≠ C[matchLen (S.drop p) C]?) := by
  obtain ⟨hleS, hleC, hagree, hend⟩ := matchLen_spec (S.drop p) C
  rw [List.length_drop] at hleS hend
  simp only [List.getElem?_drop] at hagree hend
  exact ⟨by omega, hleC, hagree, fun hS => hend (by omega)⟩

/-! ### The results -/

@[simp] theorem read_withMatch (x : Arch) (m : Option (Nat × Nat)) (sp : Space) (a : Nat) :
    (withMatch x m).read sp a = x.read sp a :=
  read_congr (by cases m <;> cases sp <;> rfl) a

/-- The bits of FLAGS that FIND does not own (R34). -/
theorem withMatch_flags (x : Arch) (m : Option (Nat × Nat)) :
    flagTextValid (withMatch x m).flags = flagTextValid x.flags ∧ flagEmpty (withMatch x m).flags = flagEmpty x.flags ∧
      (withMatch x m).flags.extractLsb' 4 4 = x.flags.extractLsb' 4 4 := by
  cases m <;> exact ⟨flagTextValid_withMatch .., flagEmpty_withMatch .., withMatch_reserved ..⟩

/-- All but FLAGS, MLEN and MDIST, and STATUS when FIND ends, is kept (R222). -/
theorem withMatch_frame (x : Arch) (m : Option (Nat × Nat)) :
    { withMatch x m with status := x.status, flags := x.flags, mlen := x.mlen, mdist := x.mdist } = x := by
  cases m <;> rfl

theorem withMatch_none (x : Arch) :
    flagMfound (withMatch x none).flags = false ∧ flagMemit (withMatch x none).flags = false ∧
      (withMatch x none).mlen = 0 ∧ (withMatch x none).mdist = 0 :=
  ⟨flagMfound_withMatch .., flagMemit_withMatch .., rfl, rfl⟩

/-- A match whose numbers fit their registers is reported as it is (R222, R225). -/
theorem withMatch_some (x : Arch) {len dist : Nat} (hlen : len < 2 ^ 16) (hdist : dist < 2 ^ 16) :
    flagMfound (withMatch x (some (len, dist))).flags = true ∧ (withMatch x (some (len, dist))).mlen.toNat = len ∧
      (withMatch x (some (len, dist))).mdist.toNat = dist ∧
      flagMemit (withMatch x (some (len, dist))).flags = emitPolicy len dist :=
  ⟨flagMfound_withMatch .., Nat.mod_eq_of_lt hlen, Nat.mod_eq_of_lt hdist, flagMemit_withMatch ..⟩

/-- Settles O39: the results by whether C's first byte occurs in S, and the frame. -/
theorem findCompletes : Obligations.FindCompletes := by
  intro s S C hsplit hlen hS hC
  have hres : find s.toArch = .ok (withMatch s.toArch (findMatch S C)) := by
    rw [hS, hC]
    exact find_of_inRange (mbufBad_eq_false.mpr ⟨hsplit, hlen⟩)
  have hlenS : S.length ≤ 32768 := by
    rw [hS, bytes_length]
    omega
  obtain ⟨htext, hempty, hreserved⟩ := withMatch_flags s.toArch (findMatch S C)
  have hstores : storesNothing s (s.complete (.ok (withMatch s.toArch (findMatch S C)))) := fun sp a => by
    rw [read_complete_ok, read_withMatch]
  refine ⟨s.complete (.ok (withMatch s.toArch (findMatch S C))), exec_of_commandResult (hres ▸ .find), rfl,
    fun hnone => ?_, fun p c C' hCc hp hget hfirst => ?_, htext, hempty, hreserved, hstores,
    withMatch_frame .., rfl, rfl⟩
  · rw [findMatch_eq_none hnone]
    exact withMatch_none s.toArch
  · subst hCc
    have hmatch := findMatch_eq_some (C' := C') hget hfirst
    obtain ⟨hpos, -, -⟩ := findMatch_bounds hmatch
    obtain ⟨hleS, hleC, hagree, hend⟩ := matchLen_drop_spec (C := c :: C') hp.le
    obtain ⟨hfound, hmlen, hmdist, hemit⟩ :=
      withMatch_some s.toArch (len := matchLen (S.drop p) (c :: C')) (dist := S.length - p) (by omega) (by omega)
    simp only [complete_toArch, completed_ok, hmatch]
    rw [hmlen, hmdist]
    exact ⟨hfound, rfl, hpos, hleS, hleC, hagree, hend, hemit⟩

end Sys2Proof.Machine

/-! PROOFS. The decode entry points and the Cartridge (46_cartridge.md): what the decoder a magic selects makes of a
cartridge, what DECODE_BYTES and DECODE_IMAGE leave of it, that a second DECODE_BYTES changes nothing, what the direct
decoders never write, and the housekeeping commands. -/

namespace Sys2Proof.Machine

/-! ### SHORT_CART -/

theorem decodeV1_of_shortCart {p : Params} {x : Arch} (h : shortCart x = true) : decodeV1 p x = .error .shortCart :=
  if_pos h

theorem decodeV2_of_shortCart {p : Params} {x : Arch} (h : shortCart x = true) : decodeV2 p x = .error .shortCart :=
  if_pos h

theorem decodeBytes_of_shortCart {p : Params} {x : Arch} (h : shortCart x = true) :
    decodeBytes p x = .error .shortCart :=
  if_pos h

/-- Settles O20: the length check is the first of each decoder. -/
theorem shortCartFails : Obligations.ShortCartFails := by
  intro s i hi hcart
  have hshort : shortCart s.toArch = true := shortCart_eq_true.mpr hcart
  obtain rfl | rfl | rfl | rfl := hi
  · exact failsWith_of_commandResult .decodeV0 (decodeV0_of_shortCart hshort)
  · exact failsWith_of_commandResult .decodeV1 (decodeV1_of_shortCart hshort)
  · exact failsWith_of_commandResult .decodeV2 (decodeV2_of_shortCart hshort)
  · exact failsWith_of_commandResult .decodeBytes (decodeBytes_of_shortCart hshort)

/-! ### What a decoder never writes -/

theorem v0Body_frame {x y : Arch} (h : v0Body x = .ok y) : restoreDecode x y = x := by
  obtain ⟨-, rfl⟩ := v0Body_ok h
  rfl

theorem v1Body_frame {p : Params} {x y : Arch} (h : v1Body p x = .ok y) : restoreDecode x y = x := by
  obtain ⟨d, -, -, rfl⟩ := v1Body_ok h
  rfl

theorem v2Body_frame {p : Params} {x y : Arch} (h : v2Body p x = .ok y) : restoreDecode x y = x := by
  obtain ⟨-, -, d, -, -, rfl⟩ := v2Body_ok h
  rfl

/-- A direct decoder that succeeds differs from its start in what decoders write alone. -/
theorem CommandResult.restoreDecode_eq {p : Params} {x y : Arch} {i : Instr} {res : Except Err Arch}
    (h : CommandResult p x i res) (hi : i = .decodeV0 ∨ i = .decodeV1 ∨ i = .decodeV2) (hok : res = .ok y) :
    restoreDecode x y = x := by
  obtain rfl | rfl | rfl := hi
  all_goals cases h
  · exact v0Body_frame (decodeV0_ok hok).2
  · exact v1Body_frame (decodeV1_ok hok).2
  · exact v2Body_frame (decodeV2_ok hok).2

/-- However a command ends, STATUS is the one register its end writes (R300, R307): a decoder's frame survives it. -/
theorem restoreDecode_completed {x : Arch} {res : Except Err Arch} (h : ∀ y, res = .ok y → restoreDecode x y = x) :
    restoreDecode x (x.completed res) = x := by
  cases res with
  | ok y => exact h y rfl
  | error e => rfl

/-- Settles O49: the registers of the Cartridge, CART and PIX lie in a decoder's frame. -/
theorem directDecodersBuildNoCartridge : Obligations.DirectDecodersBuildNoCartridge := by
  intro s t i hi hexec
  obtain ⟨res, hres⟩ : ∃ res, CommandResult Config.params s.toArch i res := by
    obtain rfl | rfl | rfl := hi
    exacts [⟨_, .decodeV0⟩, ⟨_, .decodeV1⟩, ⟨_, .decodeV2⟩]
  obtain rfl : s.complete res = t := Host.Outcome.next.inj ((exec_of_commandResult hres).symm.trans hexec)
  have hframe : restoreDecode s.toArch (s.toArch.completed res) = s.toArch :=
    restoreDecode_completed fun y hok => hres.restoreDecode_eq hi hok
  have hcart : (s.complete res).mem .cart = s.mem .cart := (congrArg Arch.cart hframe :)
  have hpix : (s.complete res).mem .pix = s.mem .pix := (congrArg Arch.pix hframe :)
  exact ⟨(congrArg Arch.version hframe :), (congrArg Arch.magic hframe :), (congrArg Arch.textlen hframe :),
    (congrArg Arch.flags hframe :), fun a => ⟨read_congr hcart a, read_congr hpix a⟩⟩

/-! ### The decoder the magic selects -/

/-- What a decoder that succeeds on `x` with this text leaves: the text in OUT, its length in OUTLEN, and outside the
registers of a decode nothing else changed. -/
structure Arch.DecodesTo (x : Arch) (text : List Byte) (y : Arch) : Prop where
  length_le : text.length ≤ outCap
  outlen_eq : y.outlen = BitVec.ofNat 32 text.length
  out_eq : y.out = x.out.writeRange 0 text
  frame : restoreDecode x y = x

theorem v0Body_of_text {x : Arch} {text : List Byte} (hvalid : validUtf8 text = true) (hend : v0End x text.length)
    (htext : text = x.bytes .cart codeBase text.length) : ∃ y, v0Body x = .ok y ∧ x.DecodesTo text y := by
  have hv0 : v0Text x = text := (v0Text_of_v0End hend).trans htext.symm
  have hbody : v0Body x = .ok (x.setText text) := hv0 ▸ v0Body_of_valid (hv0.symm ▸ hvalid)
  exact ⟨_, hbody, hend.1.trans (by decide), rfl, rfl, v0Body_frame hbody⟩

theorem v1Body_of_text {p : Params} {x : Arch} {d : V1State} (hvalid : validUtf8 d.out = true)
    (hloop : v1Loop p x x.dlenField v1BodyLen v1Start = .ok d) : ∃ y, v1Body p x = .ok y ∧ x.DecodesTo d.out y := by
  have hbody := v1Body_eq_bind p x
  rw [hloop] at hbody
  have hbody := hbody.trans (v1Finish_of_valid hvalid)
  exact ⟨_, hbody, v1Bounded_length (v1Loop_bounded v1Start_bounded hloop), rfl, rfl, v1Body_frame hbody⟩

theorem v2Body_of_text {p : Params} {x : Arch} {d : V2State} (hclen : badClen x.hdr6Field = false)
    (htable : isPermutation x.mtfField = true) (hvalid : validUtf8 d.out = true)
    (hloop : v2Loop p x (v2NBits x.hdr6Field) x.dlenField (v2NBits x.hdr6Field) (v2Start x) = .ok d) :
    ∃ y, v2Body p x = .ok y ∧ x.DecodesTo d.out y := by
  have hbody := v2Body_of_soundHeader (p := p) hclen htable
  rw [hloop] at hbody
  have hbody := hbody.trans (v2Finish_of_valid hvalid)
  have hexact : d.out.length = x.dlenField.toNat := v2Loop_length (Nat.zero_le _) hloop
  exact ⟨_, hbody, le_outCap_of_le_dlen hexact.le, rfl, rfl, v2Body_frame hbody⟩

/-- `selectedText` is what the selected decoder makes of CART (R251). -/
theorem selectedBody_of_selectedText {x : Arch} {text : List Byte} (h : selectedText x text) :
    ∃ y, selectedBody Config.params x = .ok y ∧ x.DecodesTo text y := by
  obtain ⟨hvalid, h⟩ := h
  unfold selectedBody
  cases hclass : classify Config.params x.magicField with
  | v0 =>
    rw [hclass] at h
    obtain ⟨hend, htext⟩ := h
    exact v0Body_of_text hvalid hend htext
  | v1 =>
    rw [hclass] at h
    obtain ⟨c, hloop⟩ := h
    exact v1Body_of_text (d := ⟨c, text⟩) hvalid hloop
  | v2 =>
    rw [hclass] at h
    obtain ⟨hlo, hhi, htable, b, m, hloop⟩ := h
    exact v2Body_of_text (d := ⟨b, m, text⟩) (badClen_eq_false.mpr ⟨hlo, hhi⟩) ((isPermutation_iff x).mpr htable)
      hvalid hloop

/-- A loop that fails, or whose output fails the UTF-8 check after it, ends the decoder with that STATUS. -/
theorem bind_of_loopFailure {α : Type} {out : α → List Byte} {res : Except Err α} {st : Half} {f : α → Except Err Arch}
    (h : loopFailure out res st) (hf : ∀ d, validUtf8 (out d) = false → f d = .error .utf8) :
    ∃ e, res.bind f = .error e ∧ e.status = st := by
  obtain ⟨d, rfl, hinvalid, rfl⟩ | ⟨e, rfl, rfl⟩ := h
  · exact ⟨.utf8, hf d hinvalid, by decide⟩
  · exact ⟨e, rfl, rfl⟩

/-- `selectedFailure` is how the selected decoder fails on CART (R251). -/
theorem selectedBody_of_selectedFailure {x : Arch} {st : Half} (h : selectedFailure x st) :
    ∃ e, selectedBody Config.params x = .error e ∧ e.status = st := by
  unfold selectedFailure at h
  unfold selectedBody
  cases hclass : classify Config.params x.magicField with
  | v0 =>
    rw [hclass] at h
    obtain ⟨z, hend, hinvalid, rfl⟩ := h
    exact ⟨.utf8, v0Body_of_invalid ((v0Text_of_v0End hend).symm ▸ hinvalid), by decide⟩
  | v1 =>
    rw [hclass] at h
    simp only [v1Body_eq_bind]
    exact bind_of_loopFailure h fun d => v1Finish_of_invalid
  | v2 =>
    rw [hclass] at h
    obtain ⟨hrange, rfl⟩ | ⟨hlo, hhi, htable, rfl⟩ | ⟨hlo, hhi, htable, hloop⟩ := h
    · exact ⟨.v2Clen, v2Body_of_badClen (badClen_eq_true.mpr hrange), by decide⟩
    · have hfails : isPermutation x.mtfField = false :=
        Bool.eq_false_iff.mpr fun hperm => htable ((isPermutation_iff x).mp hperm)
      exact ⟨.v2Mtf, v2Body_of_badTable (badClen_eq_false.mpr ⟨hlo, hhi⟩) hfails, by decide⟩
    · simp only [v2Body_of_soundHeader (badClen_eq_false.mpr ⟨hlo, hhi⟩) ((isPermutation_iff x).mpr htable)]
      exact bind_of_loopFailure hloop fun d => v2Finish_of_invalid

/-! ### The Cartridge -/

@[simp] theorem read_sealCartridge (p : Params) (y : Arch) (sp : Space) (a : Nat) :
    (sealCartridge p y).read sp a = y.read sp a :=
  read_congr (by cases sp <;> rfl) a

theorem Arch.DecodesTo.cart_eq {x y : Arch} {text : List Byte} (h : x.DecodesTo text y) : y.cart = x.cart :=
  (congrArg Arch.cart h.frame :)

theorem Arch.DecodesTo.flags_eq {x y : Arch} {text : List Byte} (h : x.DecodesTo text y) : y.flags = x.flags :=
  (congrArg Arch.flags h.frame :)

/-- Every byte reads as after the text's write to OUT. -/
theorem Arch.DecodesTo.read_eq {x y : Arch} {text : List Byte} (h : x.DecodesTo text y) (sp : Space) (a : Nat) :
    y.read sp a = (x.write .out 0 text).read sp a := by
  refine read_congr ?_ a
  cases sp with
  | cart => exact h.cart_eq
  | pix => exact (congrArg Arch.pix h.frame :)
  | out => exact h.out_eq
  | mbuf => exact (congrArg Arch.mbuf h.frame :)
  | tok => exact (congrArg Arch.tok h.frame :)

theorem Arch.DecodesTo.sameCart {x y : Arch} {text : List Byte} (h : x.DecodesTo text y) : sameCart y x :=
  fun a _ => read_congr (sp := .cart) h.cart_eq a

/-- EMPTY is computed from the length a register holds (R253). -/
theorem beq_zero_of_toNat_eq {v : Word} {n : Nat} (h : v.toNat = n) : (v == 0) = decide (n = 0) := by
  subst h
  rw [Bool.eq_iff_iff, beq_iff_eq, decide_eq_true_iff, ← BitVec.toNat_inj]
  rfl

/-- What an entry point that succeeds leaves, where it decodes the cartridge `x` holds to this text (R251, R253). -/
structure Arch.BuildsCartridge (x : Arch) (text : List Byte) (t : State) : Prop where
  status : t.status = 0x0001
  cartridge : holdsCartridge t (classify Config.params x.magicField) text
  magic : t.magic = x.magicField
  dlen : t.dlen = x.dlenField
  hdr6 : t.hdr6 = x.hdr6Field
  mfound : flagMfound t.flags = flagMfound x.flags
  memit : flagMemit t.flags = flagMemit x.flags
  reserved : t.flags.extractLsb' 4 4 = x.flags.extractLsb' 4 4
  read_eq : ∀ sp a, t.read sp a = (x.write .out 0 text).read sp a
  frame : restoreCartridge x t.toArch = x

/-- A decoder's results, sealed as a Cartridge. -/
theorem Arch.DecodesTo.buildsCartridge {x y : Arch} {text : List Byte} (h : x.DecodesTo text y) (s : State) :
    x.BuildsCartridge text (s.complete (.ok (sealCartridge Config.params y))) := by
  have htext : holdsText (s.complete (.ok (sealCartridge Config.params y))) text :=
    holdsText_of_out_eq h.length_le h.outlen_eq h.out_eq
  have hmagic : y.magicField = x.magicField := sameCart_magicField h.sameCart
  have hflags := h.flags_eq
  have hempty : (y.outlen == 0) = decide (text.length = 0) := beq_zero_of_toNat_eq htext.1
  exact {
    status := rfl
    cartridge := ⟨congrArg (fun m => (classify Config.params m).code) hmagic, htext.1, flagTextValid_withCartridge ..,
      (flagEmpty_withCartridge ..).trans hempty, htext⟩
    magic := hmagic
    dlen := sameCart_dlenField h.sameCart
    hdr6 := sameCart_hdr6Field h.sameCart
    mfound := (flagMfound_withCartridge ..).trans (congrArg flagMfound hflags)
    memit := (flagMemit_withCartridge ..).trans (congrArg flagMemit hflags)
    reserved := (withCartridge_reserved ..).trans (congrArg (BitVec.extractLsb' 4 4) hflags)
    read_eq := fun sp a => by rw [read_complete_ok, read_sealCartridge, h.read_eq]
    frame := congrArg
      (fun z : Arch => { z with magic := x.magic, version := x.version, textlen := x.textlen, flags := x.flags })
      h.frame }

/-! ### DECODE_BYTES -/

/-- DECODE_BYTES of a whole cartridge: the selected decoder, its results sealed as a Cartridge (R251). -/
theorem decodeBytes_of_wholeCart {p : Params} {x : Arch} (h : shortCart x = false) :
    decodeBytes p x = (selectedBody p x).map (sealCartridge p) := by
  simp only [decodeBytes, h, Bool.false_eq_true, if_false]
  cases selectedBody p x <;> rfl

/-- DECODE_BYTES succeeds where the selected decoder does, with the same text. -/
theorem decodeBytes_of_selectedText {x : Arch} {text : List Byte} (hcart : 32768 ≤ x.cartlen.toNat)
    (h : selectedText x text) :
    ∃ y, decodeBytes Config.params x = .ok (sealCartridge Config.params y) ∧ x.DecodesTo text y := by
  obtain ⟨y, hbody, hy⟩ := selectedBody_of_selectedText h
  exact ⟨y, by rw [decodeBytes_of_wholeCart (shortCart_eq_false.mpr hcart), hbody]; rfl, hy⟩

/-- DECODE_BYTES fails where the selected decoder does, with the same STATUS. -/
theorem decodeBytes_of_selectedFailure {x : Arch} {st : Half} (hcart : 32768 ≤ x.cartlen.toNat)
    (h : selectedFailure x st) : ∃ e, decodeBytes Config.params x = .error e ∧ e.status = st := by
  obtain ⟨e, hbody, hstatus⟩ := selectedBody_of_selectedFailure h
  exact ⟨e, by rw [decodeBytes_of_wholeCart (shortCart_eq_false.mpr hcart), hbody]; rfl, hstatus⟩

/-- Settles O46: the selected decoder ends as `selectedText` and `selectedFailure` say, and DECODE_BYTES with it. -/
theorem decodeBytesCompletes : Obligations.DecodeBytesCompletes := by
  refine fun s hcart => ⟨fun text htext => ?_, fun st hfail => ?_⟩
  · obtain ⟨y, hres, hy⟩ := decodeBytes_of_selectedText hcart htext
    have hbuilt := hy.buildsCartridge s
    exact ⟨s.complete (.ok (sealCartridge Config.params y)), exec_of_commandResult (hres ▸ .decodeBytes),
      hbuilt.status, hbuilt.cartridge, hbuilt.magic, hbuilt.dlen, hbuilt.hdr6, hbuilt.mfound, hbuilt.memit,
      hbuilt.reserved, storesOnly_of_read_eq hbuilt.read_eq, hbuilt.frame, rfl, rfl⟩
  · obtain ⟨e, hres, rfl⟩ := decodeBytes_of_selectedFailure hcart hfail
    exact failsWith_of_commandResult .decodeBytes hres

/-! ### DECODE_IMAGE -/

/-- An image of at least 32768 pixels carries a whole cartridge, and EXTRACT leaves all of it (R102, R103). -/
theorem extractBody_eq_imageCartridge {s : State} (hsize : 32768 ≤ s.pixlen.toNat / 4) :
    extractBody s.toArch = imageCartridge s := by
  have hmin : min s.npix cartSize = 32768 := min_eq_right hsize
  unfold extractBody
  rw [hmin]
  rfl

/-- DECODE_IMAGE past the checks of its operands is DECODE_BYTES of the cartridge the image carries (R252). -/
theorem decodeImage_of_wholeImage {s : State} (hbpp : s.bpp = 4) (hcap : s.pixlen.toNat ≤ Config.params.pixCap)
    (hpartial : s.pixlen.toNat % 4 = 0) (hsize : 32768 ≤ s.pixlen.toNat / 4) :
    decodeImage Config.params s.toArch = decodeBytes Config.params (imageCartridge s) := by
  simp only [decodeImage, extract_of_imageCheck_none (imageCheck_eq_none.mpr ⟨hbpp, hcap, hpartial⟩),
    extractBody_eq_imageCartridge hsize]

theorem imageCartridge_cartlen_toNat {s : State} (hsize : 32768 ≤ s.pixlen.toNat / 4) :
    (imageCartridge s).cartlen.toNat = s.pixlen.toNat / 4 := by
  rw [← extractBody_eq_imageCartridge hsize]
  exact extractBody_cartlen_toNat s.toArch

/-- Outside CART the state a whole image is decoded from reads as the command's start. -/
theorem read_imageCartridge_ne (s : State) {sp : Space} (h : sp ≠ .cart) (a : Nat) :
    (imageCartridge s).read sp a = s.read sp a := by
  refine read_congr ?_ a
  cases sp with
  | cart => exact absurd rfl h
  | pix => rfl
  | out => rfl
  | mbuf => rfl
  | tok => rfl

/-- Settles O47: DECODE_BYTES of the cartridge the image carries, its frame seen from the command's start. -/
theorem decodeImageCompletes : Obligations.DecodeImageCompletes := by
  intro s hbpp hcap hpartial hsize
  have himage := decodeImage_of_wholeImage hbpp hcap hpartial hsize
  have hcartlen := imageCartridge_cartlen_toNat hsize
  have hcart : 32768 ≤ (imageCartridge s).cartlen.toNat := hcartlen.symm ▸ hsize
  refine ⟨fun text htext => ?_, fun st hfail => ?_⟩
  · obtain ⟨y, hres, hy⟩ := decodeBytes_of_selectedText hcart htext
    have hbuilt := hy.buildsCartridge s
    have hlen : (s.complete (.ok (sealCartridge Config.params y))).cartlen = (imageCartridge s).cartlen :=
      (congrArg Arch.cartlen hbuilt.frame :)
    refine ⟨s.complete (.ok (sealCartridge Config.params y)),
      exec_of_commandResult (himage.trans hres ▸ .decodeImage), hbuilt.status, hbuilt.cartridge, hbuilt.magic,
      hbuilt.dlen, hbuilt.hdr6, hlen ▸ hcartlen, fun a => ?_, hbuilt.mfound, hbuilt.memit, hbuilt.reserved,
      fun sp a hsp hout => ?_, ?_, rfl, rfl⟩
    · rw [hbuilt.read_eq, read_write_ne _ (by simp)]
    · rw [hbuilt.read_eq, ← read_imageCartridge_ne s hsp]
      by_cases hspout : sp = .out
      · subst hspout
        exact read_write_out _ _ _ _ _ (.inr (by simpa using hout))
      · exact read_write_ne _ hspout ..
    · exact congrArg (fun z : Arch => { z with cart := s.cart, cartlen := s.cartlen }) hbuilt.frame
  · obtain ⟨e, hres, rfl⟩ := decodeBytes_of_selectedFailure hcart hfail
    exact failsWith_of_commandResult .decodeImage (himage.trans hres)

/-! ### A second DECODE_BYTES, after a failure -/

theorem v0Body_error_congr {x w : Arch} {e : Err} (hsame : sameCart w x) (h : v0Body x = .error e) :
    v0Body w = .error e := by
  unfold v0Body at h ⊢
  rw [sameCart_v0Text hsame]
  split at h
  · cases h
  · next hinvalid => rw [if_neg hinvalid, h]

theorem v1Finish_error_congr {x w : Arch} {dlen : Half} {d : V1State} {e : Err} (h : v1Finish x dlen d = .error e) :
    v1Finish w dlen d = .error e := by
  unfold v1Finish at h ⊢
  split at h
  · cases h
  · next hinvalid => rw [if_neg hinvalid, h]

theorem v2Finish_error_congr {x w : Arch} {dlen : Half} {d : V2State} {e : Err} (h : v2Finish x dlen d = .error e) :
    v2Finish w dlen d = .error e := by
  unfold v2Finish at h ⊢
  split at h
  · cases h
  · next hinvalid => rw [if_neg hinvalid, h]

/-- What follows a loop, exchanged for something that fails wherever it fails. -/
theorem bind_error_congr {α : Type} {res : Except Err α} {f g : α → Except Err Arch} {e : Err}
    (hfg : ∀ d, f d = .error e → g d = .error e) (h : res.bind f = .error e) : res.bind g = .error e := by
  cases res with
  | error e' => exact h
  | ok d => exact hfg d h

theorem v1Body_error_congr {p : Params} {x w : Arch} {e : Err} (hsame : sameCart w x) (h : v1Body p x = .error e) :
    v1Body p w = .error e := by
  rw [v1Body_eq_bind] at h ⊢
  rw [sameCart_dlenField hsame, sameCart_v1Loop hsame]
  exact bind_error_congr (fun _ => v1Finish_error_congr) h

/-- The loop of a second DECODE_V2 whose cartridge reads as that of the first: the same loop (R199). -/
theorem v2Body_of_sameCart {p : Params} {x w : Arch} (hsame : sameCart w x) (hclen : badClen x.hdr6Field = false)
    (htable : isPermutation x.mtfField = true) :
    v2Body p w =
      (v2Loop p x (v2NBits x.hdr6Field) x.dlenField (v2NBits x.hdr6Field) (v2Start x)).bind
        (v2Finish w x.dlenField) := by
  have hhdr6 := sameCart_hdr6Field hsame
  have hmtf := sameCart_mtfField hsame
  have hstart : v2Start w = v2Start x := by rw [v2Start, hmtf, v2Start]
  rw [← hhdr6] at hclen
  rw [← hmtf] at htable
  rw [v2Body_of_soundHeader hclen htable, sameCart_v2Loop hsame p (v2NBits_le hclen), hhdr6,
    sameCart_dlenField hsame, hstart]

theorem v2Body_error_congr {p : Params} {x w : Arch} {e : Err} (hsame : sameCart w x) (h : v2Body p x = .error e) :
    v2Body p w = .error e := by
  have hbadClen : badClen w.hdr6Field = badClen x.hdr6Field := by rw [sameCart_hdr6Field hsame]
  have hpermutation : isPermutation w.mtfField = isPermutation x.mtfField := by rw [sameCart_mtfField hsame]
  cases hclen : badClen x.hdr6Field with
  | true =>
    rw [v2Body_of_badClen hclen] at h
    rw [v2Body_of_badClen (hbadClen.trans hclen), h]
  | false =>
    cases htable : isPermutation x.mtfField with
    | false =>
      rw [v2Body_of_badTable hclen htable] at h
      rw [v2Body_of_badTable (hbadClen.trans hclen) (hpermutation.trans htable), h]
    | true =>
      rw [v2Body_of_soundHeader hclen htable] at h
      rw [v2Body_of_sameCart hsame hclen htable]
      exact bind_error_congr (fun _ => v2Finish_error_congr) h

/-- Whether and how the selected decoder fails depends on CART's bytes alone. -/
theorem selectedBody_error_congr {p : Params} {x w : Arch} {e : Err} (hsame : sameCart w x)
    (h : selectedBody p x = .error e) : selectedBody p w = .error e := by
  unfold selectedBody at h ⊢
  rw [sameCart_magicField hsame]
  cases hclass : classify p x.magicField with
  | v0 =>
    rw [hclass] at h
    exact v0Body_error_congr hsame h
  | v1 =>
    rw [hclass] at h
    exact v1Body_error_congr hsame h
  | v2 =>
    rw [hclass] at h
    exact v2Body_error_congr hsame h

/-- A DECODE_BYTES that failed fails alike on the state it left. -/
theorem decodeBytes_failed {p : Params} {x : Arch} {e : Err} (h : decodeBytes p x = .error e) :
    decodeBytes p (x.failed e) = .error e := by
  have hshort : shortCart (x.failed e) = shortCart x := rfl
  cases hs : shortCart x with
  | true =>
    rw [decodeBytes_of_shortCart hs] at h
    rw [decodeBytes_of_shortCart (hshort.trans hs), h]
  | false =>
    rw [decodeBytes_of_wholeCart hs] at h
    rw [decodeBytes_of_wholeCart (hshort.trans hs)]
    have hsame : sameCart (x.failed e) x := fun a _ => read_congr (sp := .cart) rfl a
    cases hbody : selectedBody p x with
    | ok y => rw [hbody] at h; cases h
    | error e' =>
      rw [hbody] at h
      cases h
      rw [selectedBody_error_congr hsame hbody]
      rfl

/-! ### A second DECODE_BYTES, after a success -/

/-- A text stored where it already stands. -/
theorem setText_self {x : Arch} {m : Memory} {bs : List Byte} (hout : x.out = m.writeRange 0 bs)
    (houtlen : x.outlen = BitVec.ofNat 32 bs.length) : x.setText bs = x := by
  have htwice : x.out.writeRange 0 bs = x.out := by rw [hout, writeRange_twice]
  simp only [Arch.setText, Arch.write, Arch.setMem, mem_out, htwice, ← houtlen]

/-- `w` holds the cartridge of `x`, its header, and all else that a decoder which succeeded on `x` left in `y`. -/
structure Arch.HoldsResults (w x y : Arch) : Prop where
  cart : sameCart w x
  out_eq : w.out = y.out
  outlen_eq : w.outlen = y.outlen
  cursor_eq : w.cursor = y.cursor
  bitpos_eq : w.bitpos = y.bitpos
  mtf_eq : w.mtf = y.mtf
  dlen_eq : w.dlen = x.dlenField
  hdr6_eq : w.hdr6 = x.hdr6Field

theorem v0Body_again {x y w : Arch} (h : v0Body x = .ok y) (hw : w.HoldsResults x y) : v0Body w = .ok w := by
  obtain ⟨hvalid, rfl⟩ := v0Body_ok h
  rw [← sameCart_v0Text hw.cart] at hvalid
  rw [v0Body_of_valid hvalid, sameCart_v0Text hw.cart, setText_self hw.out_eq hw.outlen_eq]

theorem v1Body_again {p : Params} {x y w : Arch} (h : v1Body p x = .ok y) (hw : w.HoldsResults x y) :
    v1Body p w = .ok w := by
  obtain ⟨d, hloop, hvalid, rfl⟩ := v1Body_ok h
  have htext : w.setText d.out = w := setText_self hw.out_eq hw.outlen_eq
  have hcursor : d.cursor = w.cursor := hw.cursor_eq.symm
  rw [v1Body_eq_bind, sameCart_dlenField hw.cart, sameCart_v1Loop hw.cart, hloop]
  refine (v1Finish_of_valid hvalid).trans ?_
  rw [htext, hcursor, sameCart_hdr6Field hw.cart, ← hw.dlen_eq, ← hw.hdr6_eq]

theorem v2Body_again {p : Params} {x y w : Arch} (h : v2Body p x = .ok y) (hw : w.HoldsResults x y) :
    v2Body p w = .ok w := by
  obtain ⟨hclen, htable, d, hloop, hvalid, rfl⟩ := v2Body_ok h
  have htext : w.setText d.out = w := setText_self hw.out_eq hw.outlen_eq
  have hbitpos : d.bitpos = w.bitpos := hw.bitpos_eq.symm
  have hmtf : d.mtf = w.mtf := hw.mtf_eq.symm
  rw [v2Body_of_sameCart hw.cart hclen htable, hloop]
  refine (v2Finish_of_valid hvalid).trans ?_
  rw [htext, hbitpos, hmtf, sameCart_hdr6Field hw.cart, ← hw.dlen_eq, ← hw.hdr6_eq]

/-- The selected decoder, run where its results already stand, changes nothing. -/
theorem selectedBody_again {p : Params} {x y w : Arch} (h : selectedBody p x = .ok y) (hw : w.HoldsResults x y) :
    selectedBody p w = .ok w := by
  unfold selectedBody at h ⊢
  rw [sameCart_magicField hw.cart]
  cases hclass : classify p x.magicField with
  | v0 =>
    rw [hclass] at h
    exact v0Body_again h hw
  | v1 =>
    rw [hclass] at h
    exact v1Body_again h hw
  | v2 =>
    rw [hclass] at h
    exact v2Body_again h hw

/-- FLAGS is its four named bits and the reserved ones (R34). -/
theorem flags_ext {f g : Byte} (hvalid : flagTextValid f = flagTextValid g) (hempty : flagEmpty f = flagEmpty g)
    (hmfound : flagMfound f = flagMfound g) (hmemit : flagMemit f = flagMemit g)
    (hreserved : f.extractLsb' 4 4 = g.extractLsb' 4 4) : f = g := by
  refine BitVec.eq_of_getLsbD_eq fun i hi => ?_
  by_cases hlow : i < 4
  · obtain rfl | rfl | rfl | rfl : i = 0 ∨ i = 1 ∨ i = 2 ∨ i = 3 := by omega
    exacts [hvalid, hempty, hmfound, hmemit]
  · have hbit := congrArg (fun v : BitVec 4 => v.getLsbD (i - 4)) hreserved
    simpa only [BitVec.getLsbD_extractLsb', show 4 + (i - 4) = i by omega, show i - 4 < 4 by omega, decide_true,
      Bool.true_and] using hbit

@[simp] theorem flagsWithCartridge_twice (f : Byte) (b : Bool) :
    flagsWithCartridge (flagsWithCartridge f b) b = flagsWithCartridge f b :=
  flags_ext (by simp) (by simp) (flagMfound_withCartridge ..) (flagMemit_withCartridge ..)
    (withCartridge_reserved ..)

/-- What DECODE_BYTES leaves where the selected decoder leaves `y` (R251, R307). -/
def builtState (p : Params) (y : Arch) : Arch := { sealCartridge p y with status := statusDone }

theorem completed_sealCartridge (p : Params) (x y : Arch) :
    x.completed (.ok (sealCartridge p y)) = builtState p y := rfl

/-- Sealing the Cartridge a second time. -/
theorem builtState_builtState (p : Params) (y : Arch) : builtState p (builtState p y) = builtState p y := by
  have hflags : flagsWithCartridge (builtState p y).flags ((builtState p y).outlen == 0) = (builtState p y).flags :=
    flagsWithCartridge_twice ..
  have hbuilt : builtState p (builtState p y) =
      { builtState p y with flags := flagsWithCartridge (builtState p y).flags ((builtState p y).outlen == 0) } := rfl
  rw [hbuilt, hflags]

theorem builtState_holdsResults {p : Params} {x y : Arch} (hcart : y.cart = x.cart) :
    (builtState p y).HoldsResults x y where
  cart _ _ := read_congr (sp := .cart) hcart _
  out_eq := rfl
  outlen_eq := rfl
  cursor_eq := rfl
  bitpos_eq := rfl
  mtf_eq := rfl
  dlen_eq := sameCart_dlenField fun _ _ => read_congr (sp := .cart) hcart _
  hdr6_eq := sameCart_hdr6Field fun _ _ => read_congr (sp := .cart) hcart _

/-- A DECODE_BYTES that succeeded succeeds again on the state it left. -/
theorem decodeBytes_builtState {p : Params} {x y : Arch} (hshort : shortCart x = false)
    (h : selectedBody p x = .ok y) : decodeBytes p (builtState p y) = .ok (sealCartridge p (builtState p y)) := by
  obtain ⟨-, -, -, -, -, hframe⟩ := selectedBody_ok h
  have hcartlen : y.cartlen = x.cartlen := (congrArg Arch.cartlen hframe :)
  have hshort' : shortCart (builtState p y) = false := by
    rw [shortCart_eq_false] at hshort ⊢
    exact hcartlen.symm ▸ hshort
  rw [decodeBytes_of_wholeCart hshort', selectedBody_again h (builtState_holdsResults (selectedBody_cart h))]
  rfl

/-- The state DECODE_BYTES leaves is one it does not change. -/
theorem completed_decodeBytes_twice (p : Params) (x : Arch) :
    (x.completed (decodeBytes p x)).completed (decodeBytes p (x.completed (decodeBytes p x))) =
      x.completed (decodeBytes p x) := by
  cases hres : decodeBytes p x with
  | error e =>
    have hagain : decodeBytes p (x.completed (.error e)) = .error e := decodeBytes_failed hres
    rw [hagain]
    rfl
  | ok y =>
    obtain ⟨hshort, z, hbody, rfl⟩ := decodeBytes_ok hres
    rw [completed_sealCartridge, decodeBytes_builtState hshort hbody, completed_sealCartridge,
      builtState_builtState]

/-- Settles O48: the first DECODE_BYTES leaves a state in which the second ends alike, writing what stands there. -/
theorem decodeBytesIsIdempotent : Obligations.DecodeBytesIsIdempotent := by
  intro s t u hfirst hsecond
  obtain rfl : s.complete (decodeBytes Config.params s.toArch) = t :=
    Host.Outcome.next.inj ((exec_of_commandResult .decodeBytes).symm.trans hfirst)
  obtain rfl := Host.Outcome.next.inj ((exec_of_commandResult .decodeBytes).symm.trans hsecond)
  exact congrArg (fun x : Arch => ({ s with toArch := x, phase := .idle } : State))
    (completed_decodeBytes_twice Config.params s.toArch)

/-! ### Housekeeping -/

/-- Settles O50: NOP's result is its start, and a reserved value's is the error ILLEGAL_CMD. -/
theorem nopAndReservedCompletes : Obligations.NopAndReservedCompletes := fun _ op =>
  ⟨exec_of_commandResult .nop, exec_of_commandResult (.illegalCmd op)⟩

@[simp] theorem read_softReset (x : Arch) (sp : Space) (a : Nat) : (softReset x).read sp a = x.read sp a :=
  read_congr (softReset_mem x sp) a

/-- Settles O51: the registers are the reset state's own, and no memory is touched. -/
theorem softResetCompletes : Obligations.SoftResetCompletes := by
  intro s
  have hstores : storesNothing s (s.complete (.ok (softReset s.toArch))) := fun sp a => by
    rw [read_complete_ok, read_softReset]
  exact ⟨s.complete (.ok (softReset s.toArch)), exec_of_commandResult .softReset, rfl, hstores, rfl, rfl, rfl⟩

end Sys2Proof.Machine

/-! PROOFS. Errors (60_exceptions.md): the DONE and ERR bits of STATUS, the two ways a command can end, and the STATUS it
leaves. -/

namespace Sys2Proof.Machine

/-! ### The bits of STATUS -/

@[simp] theorem statusDoneBit_statusWord (cause : Byte) (kind : BitVec 3) (err done : Bool) :
    statusDoneBit (statusWord cause kind err done) = done :=
  BitVec.getLsbD_append.trans (by simp)

@[simp] theorem statusErrBit_statusWord (cause : Byte) (kind : BitVec 3) (err done : Bool) :
    statusErrBit (statusWord cause kind err done) = err :=
  BitVec.getLsbD_append.trans (BitVec.getLsbD_append.trans (by simp))

/-- ERR is 0 in the STATUS of a command that reached `done` (R307). -/
theorem statusErrBit_statusDone : statusErrBit statusDone = false := statusErrBit_statusWord ..

theorem ne_zero_of_statusDoneBit {st : Half} (h : statusDoneBit st = true) : st ≠ 0x0000 := by
  rintro rfl
  exact absurd h (by decide)

/-! ### The two ways a command can end -/

/-- All that a command can leave: its results with STATUS = done (R307), or its start with the STATUS of the error it raised
(R300, R305). -/
theorem exec_command_cases {i : Instr} {s t : State} (hi : isCommand i) (hexec : exec i s = .next t) :
    (∃ y, CommandResult Config.params s.toArch i (.ok y) ∧ t = s.complete (.ok y)) ∨
      ∃ e : Err, CommandResult Config.params s.toArch i (.error e) ∧ t = { s with status := e.status, phase := .idle } := by
  obtain ⟨res, hres, hcomplete⟩ := exec_command hi s
  obtain rfl : s.complete res = t := Host.Outcome.next.inj (hcomplete.symm.trans hexec)
  cases res with
  | ok y => exact .inl ⟨y, hres, rfl⟩
  | error e => exact .inr ⟨e, hres, complete_error s e⟩

/-- Settles O52: ERR rules out the first of the two ends, and the second is the claim. -/
theorem failedCommandsChangeOnlyStatus : Obligations.FailedCommandsChangeOnlyStatus := by
  intro s t i hi hexec herr
  obtain ⟨y, -, rfl⟩ | ⟨e, -, rfl⟩ := exec_command_cases hi hexec
  · exact absurd (statusErrBit_statusDone.symm.trans herr) Bool.false_ne_true
  · rfl

/-- Settles O53: both ends write a STATUS of the table, and one whose DONE bit is 1. -/
theorem commandsLeaveListedStatus : Obligations.CommandsLeaveListedStatus := by
  intro s t i hi hexec
  obtain ⟨y, -, rfl⟩ | ⟨e, -, rfl⟩ := exec_command_cases hi hexec
  · exact ⟨statusDone_mem_legalStatus, ne_zero_of_statusDoneBit (statusDoneBit_statusWord ..)⟩
  · exact ⟨e.status_mem_legalStatus, ne_zero_of_statusDoneBit (statusDoneBit_statusWord ..)⟩

end Sys2Proof.Machine
